-- ==== Sys2Proof/Word.lean ====
section
/-!
DEFINITION. The word types of CUP: 32-bit words, 8-bit bytes, 5-bit register numbers.
-/

namespace Sys2Proof

/-- "word: 32 bits, the native word-size" (00_scope.md R9). -/
abbrev Word := BitVec 32

/-- "byte: 8 bits" (00_scope.md R9). -/
abbrev Byte := BitVec 8

/-- A register number `r0`..`r31`, as the 5-bit fields `rt`, `ra`, `rb` hold it (30_encoding.md R51). -/
abbrev Reg := BitVec 5

end Sys2Proof
end

