-- ==== Sys2Proof/Config.lean ====
section
/-!
DEFINITION. The parameters of 00_scope.md R6, each with every value the spec admits for it, and the free values: constants
without a body, of which nothing can be proved. The value each parameter takes in `State.reset` stands in
Machine/Parameters.lean.
-/

namespace Sys2Proof

/-! ## The parameters that choose among readings -/

/-- `R_LAYOUT`: the order of `rb`, `imm5`, `op1` in bits 15:0 of an R-type word, from the top down (30_encoding.md R52). -/
inductive RLayout where
  | rbImm5Op1
  | rbOp1Imm5
  | imm5RbOp1
  | imm5Op1Rb
  | op1RbImm5
  | op1Imm5Rb
  deriving DecidableEq, Repr

/-- `UNUSED_FIELD_MODE`: what a nonzero unused field does (30_encoding.md R61). -/
inductive UnusedFieldMode where
  | refuse
  | ignore
  deriving DecidableEq, Repr

/-- `SHIFT_REG_MODE`: a shift amount of 32 or more taken from a register (40_logical.md R71). -/
inductive ShiftRegMode where
  | low5
  | full
  | stop
  deriving DecidableEq, Repr

/-- `FLAGS`: C and O by the table of 10_state.md R21, or by any function at all; N and Z are R21's in both. -/
inductive FlagsMode where
  | table
  | free
  deriving DecidableEq, Repr

/-- `SUB_CARRY`: what C means after SUBF (10_state.md R21). -/
inductive SubCarry where
  | borrow
  | notBorrow
  deriving DecidableEq, Repr

/-- `DIV_CORNER`: a model stop, or an uninterpreted function of the three inputs (41_arithmetic.md R103). -/
inductive DivCorner where
  | stop
  | free
  deriving DecidableEq, Repr

/-- `JALR_R31_MODE`: what JALR reads when `ra` or `rb` is 31 (42_control_flow.md R121). -/
inductive JalrR31Mode where
  | old
  | new
  | refuse
  deriving DecidableEq, Repr

/-- `PC_ALIGN_MODE`: a fetch from a `pc` whose low two bits are not zero (10_state.md R18). -/
inductive PcAlignMode where
  | stop
  | mask
  deriving DecidableEq, Repr

/-! ## The memory map -/

/-- What stands behind an address (20_memory.md R39). -/
inductive RegionKind where
  | ram
  | io
  | unmapped
  deriving DecidableEq, Repr

/-- `size` addresses from `base` up, all of one kind. -/
structure Region where
  base : Nat
  size : Nat
  kind : RegionKind
  deriving DecidableEq, Repr

/-! ## The configuration -/

/-- The parameters of 00_scope.md R6 that are data (`END_OF_RUN`, a predicate, is an argument of `runUntil`).
`memoryMap` denotes a partition of the address space: the first region that holds an address decides, and an address in
no region is unmapped (20_memory.md R39). -/
structure Config where
  rLayout : RLayout
  unusedFieldMode : UnusedFieldMode
  shiftRegMode : ShiftRegMode
  flagsMode : FlagsMode
  subCarry : SubCarry
  mulSigned : Bool
  divSigned : Bool
  divCorner : DivCorner
  brgtSigned : Bool
  jalrR31Mode : JalrR31Mode
  pcAlignMode : PcAlignMode
  memoryMap : List Region
  resetPc : Word
  deriving DecidableEq, Repr

/-! ## Flags -/

/-- The four flags of `psr`: negative, overflow, carry, zero (10_state.md R19). -/
structure Flags where
  n : Bool
  o : Bool
  c : Bool
  z : Bool
  deriving DecidableEq, Repr, Inhabited

/-- The 17 flag-setting instructions of 10_state.md R20: the mnemonic that `FLAGS` is applied to. -/
inductive FlagOp where
  | slrf | srrf | sras | slif | srif | sraj
  | adrf | orrf | notf | xorf | andi | orri | xori
  | addf | subf | mulf | divf
  deriving DecidableEq, Repr

/-- What `FLAGS` may look at: "any total function of mnemonic, operands, result and old flags" (00_scope.md R6).
`result` is the 64-bit product for MULF and the 32-bit result, zero-extended, for the others. -/
structure FlagRequest where
  op : FlagOp
  operands : List Word
  result : BitVec 64
  old : Flags
  deriving DecidableEq, Repr

/-! ## Free values -/

/-- What a division corner leaves: the values written to `x[rt]` and `ep` and, for DIVF, the flags (41_arithmetic.md R103). -/
structure DivideAnswer where
  quotient : Word
  remainder : Word
  flags : Flags
  deriving DecidableEq, Repr, Inhabited

/-- FREE VALUE. DESIGN CHOICE (log 5), safe: the answer of a division corner for (`ep`, `x[ra]`, `x[rb]`), of which
41_arithmetic.md R103 lets a claim "assume nothing but that it is a function". -/
opaque Config.divideAnswer : Word → Word → Word → DivideAnswer

/-- FREE VALUE. Safe (log 11): C and O, in this order, under `FLAGS` = `free` (00_scope.md R6, 10_state.md R21). -/
opaque Config.freeCarryOverflow : FlagRequest → Bool × Bool

/-- FREE VALUE. Safe (log 19): the byte the environment answers to the `n`th byte drawn from an I/O region, at the given
address (20_memory.md R38: "an oracle draw, under no law"). -/
opaque Config.ioByte : Nat → Word → Byte

end Sys2Proof
end

