-- ==== Sys2Proof/Machine/Parameters.lean ====
section
/-!
DEFINITION. The value each parameter of 00_scope.md R6 has in State.reset: the spec's own value, except where a log entry
names another admissible one.
-/

namespace Sys2Proof

/-- The spec's values (00_scope.md R6). `divCorner`: DESIGN CHOICE (log 5), the spec's own value is `stop` and it admits
`free`. `memoryMap` (log 6) and `resetPc` (log 2) are OPEN in the spec: DESIGN CHOICE, the values of its test vectors. -/
def defaultConfig : Config where
  rLayout := .rbImm5Op1
  unusedFieldMode := .refuse
  shiftRegMode := .low5
  flagsMode := .table
  subCarry := .borrow
  mulSigned := true
  divSigned := true
  divCorner := .free
  brgtSigned := true
  jalrR31Mode := .old
  pcAlignMode := .stop
  memoryMap := [⟨0, 2 ^ 32, .ram⟩]
  resetPc := 0x00000000#32

end Sys2Proof
end

