-- ==== Sys2Proof/Machine/State.lean ====
section
/-!
DEFINITION. The state of CUP as plain data (10_state.md R10), why a step can stop (60_exceptions.md R162), and the state
right after reset (10_state.md R25).
-/

namespace Sys2Proof.Machine

/-- The bytes of memory that differ from what an unlisted address reads as: addresses strictly rising (Machine/Memory.lean). -/
abbrev Memory := List Host.Cell

/-- One access of the CPU to I/O regions: the I/O bytes it touched, in address order from the access's first byte, with
the byte read or written. One event per access: the number and order of bus transactions inside an access is not in the
spec and is not recorded (20_memory.md R37). -/
inductive IoEvent where
  | read (cells : List (Word × Byte))
  | write (cells : List (Word × Byte))
  deriving DecidableEq, Repr

/-- The machine's state. `gprs` to `mem` are the tuple of 10_state.md R10; `config` holds the parameters of the step
(log 4); `ioLog` and `draws` are the model's record of its dealings with the environment (20_memory.md R38; logs 18, 19). -/
structure State where
  /-- `x[1]`..`x[31]`; `x[0]` is not state (10_state.md R10, R11). -/
  gprs : Vector Word 31
  /-- The extended-precision register (10_state.md R14). -/
  ep : Word
  /-- The address of the next instruction to fetch; inside an instruction, of that instruction (10_state.md R16). -/
  pc : Word
  /-- The four flags of `psr` (10_state.md R19). -/
  flags : Flags
  /-- The bytes of the RAM regions (10_state.md R24). -/
  mem : Memory
  /-- The parameters of 00_scope.md R6; no step changes them. -/
  config : Config
  /-- What the environment was asked and handed, oldest first (20_memory.md R38, R42). -/
  ioLog : List IoEvent
  /-- The index of the next byte the environment answers (20_memory.md R38). -/
  draws : Nat
  deriving DecidableEq, Repr

/-- The model stops of 60_exceptions.md R162 that mark the run as one to which the spec gives no further meaning. None is
an event of the hardware, which has no exceptions (R160). All are safe: the model stops where the hardware may go on. -/
inductive Fault where
  /-- Raised by the fetch under `PC_ALIGN_MODE` = `stop` (30_encoding.md R63 step 1). Safe. -/
  | misalignedFetch (pc : Word)
  /-- Raised by a fetch, load or store that touches a byte with neither RAM nor a device; the address is the first such
  byte in access order (20_memory.md R39). Safe. -/
  | unmappedAccess (addr : Word)
  /-- Raised by decoding an unassigned opcode (30_encoding.md R60). Safe. -/
  | illegalInstruction (w : Word)
  /-- Raised by the six shifts by register value under `SHIFT_REG_MODE` = `stop` (40_logical.md R71). Safe. -/
  | shiftRange (amount : Nat)
  /-- Raised by DIVR and DIVF under `DIV_CORNER` = `stop` (41_arithmetic.md R103). Safe. -/
  | divideCorner (ep a b : Word)
  deriving DecidableEq, Repr

/-- The forms the spec refuses to give a meaning. -/
inductive Refusal where
  /-- Raised by `exec` for an instruction that has no meaning yet; no arm raises it now. Safe. -/
  | notModelled (mnemonic : String)
  /-- Raised by decoding a nonzero unused field under `UNUSED_FIELD_MODE` = `refuse` (30_encoding.md R61), and for JALR
  naming `r31` under `JALR_R31_MODE` = `refuse` (42_control_flow.md R121). Safe. -/
  | reservedField (w : Word)
  deriving DecidableEq, Repr

/-- What one instruction or one step answers. -/
abbrev Result := Host.Outcome State Fault Refusal

/-- The machine right after reset with nothing loaded (10_state.md R25). `pc` is RESET_PC; the registers, `ep` and the
flags have no reset value in the spec: DESIGN CHOICE 0 (log 1), unsafe. -/
def State.reset : State where
  gprs := Vector.replicate 31 0#32
  ep := 0#32
  pc := defaultConfig.resetPc
  flags := ⟨false, false, false, false⟩
  mem := []
  config := defaultConfig
  ioLog := []
  draws := 0

end Sys2Proof.Machine
end

