-- ==== Sys2Proof/Machine/Flags.lean ====
section
/-!
DEFINITION. How each of the 17 flag-setting instructions computes N, O, C, Z (10_state.md R20, R21).
-/

namespace Sys2Proof.Machine

/-- `FLAGS`: N and Z as 10_state.md R21 gives them; C and O from its table, or from any function of the request under
`FLAGS` = `free` (00_scope.md R6). -/
def computeFlags (c : Config) (request : FlagRequest) (n z carry overflow : Bool) : Flags :=
  match c.flagsMode with
  | .table => { n := n, o := overflow, c := carry, z := z }
  | .free =>
    { n := n, o := (Config.freeCarryOverflow request).2, c := (Config.freeCarryOverflow request).1, z := z }

/-- Shifts, logical operations and DIVF's quotient: N and Z from the 32-bit result, C and O the same (10_state.md R21). -/
def flagsOfResult (c : Config) (op : FlagOp) (operands : List Word) (res : Word) (old : Flags) : Flags :=
  computeFlags c ⟨op, operands, res.setWidth 64, old⟩ res.msb (res == 0#32) old.c old.o

/-- ADDF's C: `u(a) + u(b) >= 2^32` (10_state.md R21). -/
def addCarry (a b : Word) : Bool := decide (2 ^ 32 ≤ a.toNat + b.toNat)

/-- ADDF's O: operands of one sign, result of the other (10_state.md R21). -/
def addOverflow (a b res : Word) : Bool := a.msb == b.msb && res.msb != a.msb

/-- SUBF's C under `SUB_CARRY` (10_state.md R21). -/
def subCarryFlag (mode : SubCarry) (a b : Word) : Bool :=
  match mode with
  | .borrow => decide (a.toNat < b.toNat)
  | .notBorrow => !decide (a.toNat < b.toNat)

/-- SUBF's O: operands of different signs, result's sign not the minuend's (10_state.md R21). -/
def subOverflow (a b res : Word) : Bool := a.msb != b.msb && res.msb != a.msb

/-- ADDF (10_state.md R21). -/
def flagsOfAdd (c : Config) (a b res : Word) (old : Flags) : Flags :=
  computeFlags c ⟨.addf, [a, b], res.setWidth 64, old⟩ res.msb (res == 0#32) (addCarry a b) (addOverflow a b res)

/-- SUBF (10_state.md R21). -/
def flagsOfSub (c : Config) (a b res : Word) (old : Flags) : Flags :=
  computeFlags c ⟨.subf, [a, b], res.setWidth 64, old⟩ res.msb (res == 0#32) (subCarryFlag c.subCarry a b)
    (subOverflow a b res)

/-- MULF: N and Z from all 64 bits of the product, C and O the same (10_state.md R21). -/
def flagsOfMul (c : Config) (a b : Word) (product : BitVec 64) (old : Flags) : Flags :=
  computeFlags c ⟨.mulf, [a, b], product, old⟩ product.msb (product == 0#64) old.c old.o

end Sys2Proof.Machine
end

