-- ==== Sys2Proof/Machine/Memory.lean ====
section
/-!
DEFINITION. Memory as a list in one canonical form, one byte at a time (10_state.md R24, 20_memory.md R30), and the map
that says what stands behind an address (20_memory.md R39).
-/

namespace Sys2Proof.Machine

/-- What a RAM byte that nothing has written reads as. DESIGN CHOICE (log 3), unsafe: 10_state.md R25 leaves the bytes the
host did not load unspecified. -/
def unlistedByte : Byte := 0x00#8

/-- The byte at `a`. -/
def Memory.read (m : Memory) (a : Word) : Byte :=
  match m with
  | [] => unlistedByte
  | (k, b) :: rest => if k = a.toNat then b else Memory.read rest a

/-- The cell for address `k` in front of a memory whose addresses are all above `k`: none if it would say nothing. -/
def Memory.cons (k : Nat) (b : Byte) (m : Memory) : Memory :=
  if b = unlistedByte then m else (k, b) :: m

/-- Make the byte at `a` equal to `b`, keeping the canonical form. -/
def Memory.write (m : Memory) (a : Word) (b : Byte) : Memory :=
  match m with
  | [] => Memory.cons a.toNat b []
  | (k, old) :: rest =>
    if a.toNat < k then Memory.cons a.toNat b ((k, old) :: rest)
    else if a.toNat = k then Memory.cons a.toNat b rest
    else (k, old) :: Memory.write rest a b

/-- Write several bytes, the first one first. -/
def Memory.writeCells (m : Memory) (cells : List (Word × Byte)) : Memory :=
  cells.foldl (fun m c => Memory.write m c.1 c.2) m

/-- The addresses listed from `low` up are strictly rising and below 2^32, and no entry says what an unlisted address
reads as. -/
def Memory.wfFrom (low : Nat) : Memory → Bool
  | [] => true
  | (k, b) :: rest => decide (low ≤ k) && decide (k < 2 ^ 32) && (b != unlistedByte) && Memory.wfFrom (k + 1) rest

/-- The canonical form: equal contents are equal lists. -/
def Memory.wf (m : Memory) : Bool := Memory.wfFrom 0 m

/-- Whether a region holds an address. -/
def regionHolds (r : Region) (a : Word) : Bool :=
  decide (r.base ≤ a.toNat) && decide (a.toNat < r.base + r.size)

/-- What stands behind an address: the first region that holds it decides, no region means unmapped (20_memory.md R39). -/
def regionAt (regions : List Region) (a : Word) : RegionKind :=
  match regions with
  | [] => .unmapped
  | r :: rest => if regionHolds r a then r.kind else regionAt rest a

end Sys2Proof.Machine
end

