-- ==== Sys2Proof/Machine/Ops.lean ====
section
/-!
DEFINITION. The named operations over registers and memory that every instruction is written from. CUP raises no exception
and returns from none (60_exceptions.md R160, R165): where another machine would take an exception this one has a model
stop (R162), which saves nothing and transfers control nowhere, so the only operation is to answer it.
-/

namespace Sys2Proof.Machine

/-! ## Registers -/

/-- `x[r]`; `x[0]` is always 0 (10_state.md R11). -/
def State.readReg (s : State) (r : Reg) : Word :=
  if h : r = 0#5 then 0#32 else s.gprs[r.toNat - 1]'(by have := r.isLt; omega)

/-- `x[r] <- v`; a write to `r0` is discarded (10_state.md R11). -/
def State.writeReg (s : State) (r : Reg) (v : Word) : State :=
  if h : r = 0#5 then s
  else { s with gprs := s.gprs.set (r.toNat - 1) v (by have := r.isLt; omega) }

/-- `ep <- v` (10_state.md R14). -/
def State.setEp (s : State) (v : Word) : State := { s with ep := v }

/-- `pc <- v` (00_scope.md R8). -/
def State.setPc (s : State) (v : Word) : State := { s with pc := v }

/-- `flags <- f` (00_scope.md R8). -/
def State.setFlags (s : State) (f : Flags) : State := { s with flags := f }

/-- The address of the instruction after the one at `pc`, modulo 2^32 (10_state.md R17). -/
def State.nextPc (s : State) : Word := s.pc + 4#32

/-- `pc <- pc + 4` (10_state.md R17). -/
def State.advance (s : State) : State := s.setPc s.nextPc

/-- The link register (10_state.md R12). -/
def linkReg : Reg := 31#5

/-- How every instruction that only writes a register ends: `x[rt] <- res; pc <- pc + 4`, the flags as they were
(40_logical.md R72, 41_arithmetic.md R100, 43_load_store.md R141). -/
def State.finish (s : State) (rt : Reg) (res : Word) : Result :=
  .next (s.writeReg rt res).advance

/-! ## The environment -/

/-- The environment answered a read of these I/O bytes; nothing happens if there are none (20_memory.md R38). -/
def State.recordRead (s : State) (cells : List (Word × Byte)) : State :=
  if cells = [] then s
  else { s with ioLog := s.ioLog ++ [.read cells], draws := s.draws + cells.length }

/-- These I/O bytes were handed to the environment; nothing happens if there are none (20_memory.md R38). -/
def State.recordWrite (s : State) (cells : List (Word × Byte)) : State :=
  if cells = [] then s else { s with ioLog := s.ioLog ++ [.write cells] }

/-! ## Memory -/

/-- What stands behind an address in this machine. -/
def State.region (s : State) (a : Word) : RegionKind := regionAt s.config.memoryMap a

/-- The addresses of an access of `n` bytes, `addr`, `addr + 1`, ... modulo 2^32 (20_memory.md R32). -/
def accessBytes (addr : Word) (n : Nat) : List Word :=
  (List.range n).map fun k => addr + BitVec.ofNat 32 k

/-- The first unmapped byte of an access, in access order (60_exceptions.md R162). -/
def State.firstUnmapped (s : State) (as : List Word) : Option Word :=
  as.find? fun a => s.region a == .unmapped

/-- The bytes of an access, in access order: RAM bytes from memory, I/O bytes from the environment, one draw each, `n`
being the index of the next draw (20_memory.md R32, R38). -/
def State.bytesRead (s : State) (n : Nat) : List Word → List Byte
  | [] => []
  | a :: as =>
    if s.region a = .io then Config.ioByte n a :: s.bytesRead (n + 1) as
    else s.mem.read a :: s.bytesRead n as

/-- The cells of an access that lie in regions of one kind. -/
def State.cellsIn (s : State) (kind : RegionKind) (cells : List (Word × Byte)) : List (Word × Byte) :=
  cells.filter fun c => s.region c.1 == kind

/-- `B_0 + 2^8 * B_1 + ...`, the byte at the lowest address least significant (20_memory.md R32). -/
def littleEndian : List Byte → Nat
  | [] => 0
  | b :: bs => b.toNat + 2 ^ 8 * littleEndian bs

/-- `MemRead(addr, n)`: the `8n`-bit value, zero-extended to a word, and the state after the environment was asked
(20_memory.md R32). -/
def State.memRead (s : State) (addr : Word) (n : Nat) : Except Fault (Word × State) :=
  match s.firstUnmapped (accessBytes addr n) with
  | some a => .error (.unmappedAccess a)
  | none =>
    let bytes := s.bytesRead s.draws (accessBytes addr n)
    .ok (BitVec.ofNat 32 (littleEndian bytes),
      s.recordRead (s.cellsIn .io ((accessBytes addr n).zip bytes)))

/-- `v[8k+7 : 8k]` (20_memory.md R33). -/
def byteOf (v : Word) (k : Nat) : Byte := v.extractLsb' (8 * k) 8

/-- The cells a store of the low `n` bytes of `v` writes (20_memory.md R33). -/
def storeCells (addr : Word) (n : Nat) (v : Word) : List (Word × Byte) :=
  (List.range n).map fun k => (addr + BitVec.ofNat 32 k, byteOf v k)

/-- The RAM bytes become the stored ones and the I/O bytes go to the environment, changing no RAM byte (20_memory.md R33, R38). -/
def State.storeBytes (s : State) (cells : List (Word × Byte)) : State :=
  { s with mem := s.mem.writeCells (s.cellsIn .ram cells) }.recordWrite (s.cellsIn .io cells)

/-- `MemWrite(addr, n, v)` (20_memory.md R33); an access with an unmapped byte changes nothing (R39). -/
def State.memWrite (s : State) (addr : Word) (n : Nat) (v : Word) : Except Fault State :=
  match s.firstUnmapped (accessBytes addr n) with
  | some a => .error (.unmappedAccess a)
  | none => .ok (s.storeBytes (storeCells addr n v))

end Sys2Proof.Machine
end

