-- ==== Sys2Proof/Machine/Operands.lean ====
section
/-!
DEFINITION. Every operand form of CUP: shift amounts, extended immediates, effective addresses and targets (30_encoding.md
R57), and the shift primitives (40_logical.md R70).
-/

namespace Sys2Proof.Machine

/-! ## Shifts -/

/-- `shl(v, k)` (40_logical.md R70), and 0 for an amount of 32 or more (R71). -/
def shl (v : Word) (k : Nat) : Word := if k < 32 then v <<< k else 0#32

/-- `shr(v, k)` (40_logical.md R70), and 0 for an amount of 32 or more (R71). -/
def shr (v : Word) (k : Nat) : Word := if k < 32 then v >>> k else 0#32

/-- `sar(v, k)` (40_logical.md R70), and the sign in every bit for an amount of 32 or more (R71). -/
def sar (v : Word) (k : Nat) : Word :=
  if k < 32 then v.sshiftRight k else if v.msb then BitVec.allOnes 32 else 0#32

/-- `amt(b)`: the shift amount taken from a register (40_logical.md R71). -/
def shiftAmount (mode : ShiftRegMode) (b : Word) : Except Fault Nat :=
  match mode with
  | .low5 => .ok (b.extractLsb' 0 5).toNat
  | .full => .ok b.toNat
  | .stop => if b.toNat < 32 then .ok b.toNat else .error (.shiftRange b.toNat)

/-! ## Immediates -/

/-- `zext_32(imm16)` (30_encoding.md R57). -/
def zext16 (imm : BitVec 16) : Word := imm.setWidth 32

/-- `sext_32(imm16)` (30_encoding.md R57). -/
def sext16 (imm : BitVec 16) : Word := imm.signExtend 32

/-- `sext_32(imm21)` (30_encoding.md R57). -/
def sext21 (imm : BitVec 21) : Word := imm.signExtend 32

/-- `sext_32(imm26) << 2` modulo 2^32: a word offset as a byte offset (30_encoding.md R57). -/
def wordOffset (imm : BitVec 26) : Word := imm.signExtend 32 <<< 2

/-! ## Loaded values -/

/-- `sext_32` of the low byte (00_scope.md R8). -/
def sextByte (v : Word) : Word := (v.setWidth 8).signExtend 32

/-- `sext_32` of the low half-word (00_scope.md R8). -/
def sextHalf (v : Word) : Word := (v.setWidth 16).signExtend 32

/-- `zext_32` of the low byte (00_scope.md R8). -/
def zextByte (v : Word) : Word := (v.setWidth 8).setWidth 32

/-- `zext_32` of the low half-word (00_scope.md R8). -/
def zextHalf (v : Word) : Word := (v.setWidth 16).setWidth 32

/-- `{imm16, v[15:0]}` (43_load_store.md R142). -/
def withUpperHalf (imm : BitVec 16) (v : Word) : Word := imm ++ v.extractLsb' 0 16

/-! ## Addresses -/

/-- `ea = (x[ra] + sext_32(imm16)) mod 2^32` (43_load_store.md R140). -/
def State.effectiveAddress (s : State) (ra : Reg) (imm : BitVec 16) : Word := s.readReg ra + sext16 imm

/-- `(x[ra] + shl(x[rb], u(imm5))) mod 2^32` (42_control_flow.md R122). -/
def State.registerTarget (s : State) (ra rb : Reg) (imm5 : BitVec 5) : Word :=
  s.readReg ra + shl (s.readReg rb) imm5.toNat

/-- `(pc + (sext_32(imm26) << 2)) mod 2^32` (42_control_flow.md R124). -/
def State.jumpTarget (s : State) (imm : BitVec 26) : Word := s.pc + wordOffset imm

/-- `(x[rt] + sext_32(imm21)) mod 2^32` (42_control_flow.md R126). -/
def State.flagTarget (s : State) (rt : Reg) (imm : BitVec 21) : Word := s.readReg rt + sext21 imm

/-- `(pc + sext_32(imm16)) mod 2^32` (42_control_flow.md R130). -/
def State.compareTarget (s : State) (imm : BitVec 16) : Word := s.pc + sext16 imm

end Sys2Proof.Machine
end

