-- ==== Sys2Proof/Machine/Logical.lean ====
section
/-!
DEFINITION. The 23 logical and shift instructions (40_logical.md).
-/

namespace Sys2Proof.Machine

/-! ## Shared endings -/

/-- Write the result, set the flags from it (also when `rt` is `r0`) and go on (40_logical.md R72). -/
def State.finishWithFlags (s : State) (op : FlagOp) (operands : List Word) (rt : Reg) (res : Word) : Result :=
  .next ((s.writeReg rt res).setFlags (flagsOfResult s.config op operands res s.flags)).advance

/-- A shift of `x[ra]` by `amt(x[rb])` (40_logical.md R71). -/
def State.shiftByReg (s : State) (shift : Word → Nat → Word) (rt ra rb : Reg) : Result :=
  match shiftAmount s.config.shiftRegMode (s.readReg rb) with
  | .error f => .fault f
  | .ok k => s.finish rt (shift (s.readReg ra) k)

/-- A flag-setting shift of `x[ra]` by `amt(x[rb])` (40_logical.md R71, R72). -/
def State.shiftByRegWithFlags (s : State) (op : FlagOp) (shift : Word → Nat → Word) (rt ra rb : Reg) : Result :=
  match shiftAmount s.config.shiftRegMode (s.readReg rb) with
  | .error f => .fault f
  | .ok k => s.finishWithFlags op [s.readReg ra, s.readReg rb] rt (shift (s.readReg ra) k)

/-! ## Shifts by register value -/

/-- SLLR (40_logical.md R73). -/
def execSllr (rt ra rb : Reg) (s : State) : Result :=
  s.shiftByReg shl rt ra rb

/-- SLRF (40_logical.md R74). -/
def execSlrf (rt ra rb : Reg) (s : State) : Result :=
  s.shiftByRegWithFlags .slrf shl rt ra rb

/-- SRLR (40_logical.md R75). -/
def execSrlr (rt ra rb : Reg) (s : State) : Result :=
  s.shiftByReg shr rt ra rb

/-- SRRF (40_logical.md R76). -/
def execSrrf (rt ra rb : Reg) (s : State) : Result :=
  s.shiftByRegWithFlags .srrf shr rt ra rb

/-- SRAR (40_logical.md R77). -/
def execSrar (rt ra rb : Reg) (s : State) : Result :=
  s.shiftByReg sar rt ra rb

/-- SRAS (40_logical.md R78). -/
def execSras (rt ra rb : Reg) (s : State) : Result :=
  s.shiftByRegWithFlags .sras sar rt ra rb

/-! ## Shifts by immediate value -/

/-- SLLI (40_logical.md R79). -/
def execSlli (rt ra : Reg) (imm5 : BitVec 5) (s : State) : Result :=
  s.finish rt (shl (s.readReg ra) imm5.toNat)

/-- SLIF (40_logical.md R80). -/
def execSlif (rt ra : Reg) (imm5 : BitVec 5) (s : State) : Result :=
  s.finishWithFlags .slif [s.readReg ra, imm5.setWidth 32] rt (shl (s.readReg ra) imm5.toNat)

/-- SRLI (40_logical.md R81). -/
def execSrli (rt ra : Reg) (imm5 : BitVec 5) (s : State) : Result :=
  s.finish rt (shr (s.readReg ra) imm5.toNat)

/-- SRIF (40_logical.md R82). -/
def execSrif (rt ra : Reg) (imm5 : BitVec 5) (s : State) : Result :=
  s.finishWithFlags .srif [s.readReg ra, imm5.setWidth 32] rt (shr (s.readReg ra) imm5.toNat)

/-- SRAI (40_logical.md R83). -/
def execSrai (rt ra : Reg) (imm5 : BitVec 5) (s : State) : Result :=
  s.finish rt (sar (s.readReg ra) imm5.toNat)

/-- SRAJ (40_logical.md R84). -/
def execSraj (rt ra : Reg) (imm5 : BitVec 5) (s : State) : Result :=
  s.finishWithFlags .sraj [s.readReg ra, imm5.setWidth 32] rt (sar (s.readReg ra) imm5.toNat)

/-! ## Register-register logical instructions -/

/-- ANDR (40_logical.md R85). -/
def execAndr (rt ra rb : Reg) (s : State) : Result :=
  s.finish rt (s.readReg ra &&& s.readReg rb)

/-- ADRF (40_logical.md R86). -/
def execAdrf (rt ra rb : Reg) (s : State) : Result :=
  s.finishWithFlags .adrf [s.readReg ra, s.readReg rb] rt (s.readReg ra &&& s.readReg rb)

/-- ORRR (40_logical.md R87). -/
def execOrrr (rt ra rb : Reg) (s : State) : Result :=
  s.finish rt (s.readReg ra ||| s.readReg rb)

/-- ORRF (40_logical.md R88). -/
def execOrrf (rt ra rb : Reg) (s : State) : Result :=
  s.finishWithFlags .orrf [s.readReg ra, s.readReg rb] rt (s.readReg ra ||| s.readReg rb)

/-- NOTR (40_logical.md R89). -/
def execNotr (rt ra : Reg) (s : State) : Result :=
  s.finish rt (~~~ s.readReg ra)

/-- NOTF (40_logical.md R90). -/
def execNotf (rt ra : Reg) (s : State) : Result :=
  s.finishWithFlags .notf [s.readReg ra] rt (~~~ s.readReg ra)

/-- XORR (40_logical.md R91). -/
def execXorr (rt ra rb : Reg) (s : State) : Result :=
  s.finish rt (s.readReg ra ^^^ s.readReg rb)

/-- XORF (40_logical.md R92). -/
def execXorf (rt ra rb : Reg) (s : State) : Result :=
  s.finishWithFlags .xorf [s.readReg ra, s.readReg rb] rt (s.readReg ra ^^^ s.readReg rb)

/-! ## Logical instructions with an immediate: the immediate is zero-extended, the flags are always set -/

/-- ANDI (40_logical.md R93). -/
def execAndi (rt ra : Reg) (imm16 : BitVec 16) (s : State) : Result :=
  s.finishWithFlags .andi [s.readReg ra, zext16 imm16] rt (s.readReg ra &&& zext16 imm16)

/-- ORRI (40_logical.md R94). -/
def execOrri (rt ra : Reg) (imm16 : BitVec 16) (s : State) : Result :=
  s.finishWithFlags .orri [s.readReg ra, zext16 imm16] rt (s.readReg ra ||| zext16 imm16)

/-- XORI (40_logical.md R95). -/
def execXori (rt ra : Reg) (imm16 : BitVec 16) (s : State) : Result :=
  s.finishWithFlags .xori [s.readReg ra, zext16 imm16] rt (s.readReg ra ^^^ zext16 imm16)

end Sys2Proof.Machine
end

