-- ==== Sys2Proof/Machine/Arithmetic.lean ====
section
/-!
DEFINITION. The 10 arithmetic instructions and the `ep` register (41_arithmetic.md).
-/

namespace Sys2Proof.Machine

/-! ## Multiplication and division on numbers -/

/-- The 64-bit product under `MUL_SIGNED` (41_arithmetic.md R101). -/
def product (signed : Bool) (a b : Word) : BitVec 64 :=
  if signed then a.signExtend 64 * b.signExtend 64 else a.setWidth 64 * b.setWidth 64

/-- Quotient and remainder of signed division, rounded toward zero; none in a corner (41_arithmetic.md R102, R103). -/
def divideSigned (ep a b : Word) : Option (Word × Word) :=
  let dividend := (ep ++ a).toInt
  let divisor := b.toInt
  let q := dividend.tdiv divisor
  if divisor = 0 then none
  else if -2 ^ 31 ≤ q ∧ q < 2 ^ 31 then some (BitVec.ofInt 32 q, BitVec.ofInt 32 (dividend - q * divisor))
  else none

/-- Quotient and remainder of unsigned division; none in a corner (41_arithmetic.md R102, R103). -/
def divideUnsigned (ep a b : Word) : Option (Word × Word) :=
  let dividend := (ep ++ a).toNat
  let divisor := b.toNat
  let q := dividend / divisor
  if divisor = 0 then none
  else if q < 2 ^ 32 then some (BitVec.ofNat 32 q, BitVec.ofNat 32 (dividend - q * divisor))
  else none

/-- The 64-bit dividend `{ep, a}` by `b` under `DIV_SIGNED`: quotient and remainder, or none in a corner (41_arithmetic.md
R102, R103). -/
def divide (signed : Bool) (ep a b : Word) : Option (Word × Word) :=
  if signed then divideSigned ep a b else divideUnsigned ep a b

/-- A division corner: a stop, or the free answer with the flags the instruction leaves (41_arithmetic.md R103). -/
def State.divideCorner (s : State) (rt ra rb : Reg) (flags : DivideAnswer → Flags) : Result :=
  match s.config.divCorner with
  | .stop => .fault (.divideCorner s.ep (s.readReg ra) (s.readReg rb))
  | .free =>
    let answer := Config.divideAnswer s.ep (s.readReg ra) (s.readReg rb)
    .next (((s.writeReg rt answer.quotient).setEp answer.remainder).setFlags (flags answer)).advance

/-! ## Addition and subtraction -/

/-- ADDR (41_arithmetic.md R104). -/
def execAddr (rt ra rb : Reg) (s : State) : Result :=
  s.finish rt (s.readReg ra + s.readReg rb)

/-- ADDF (41_arithmetic.md R105). -/
def execAddf (rt ra rb : Reg) (s : State) : Result :=
  let res := s.readReg ra + s.readReg rb
  .next ((s.writeReg rt res).setFlags (flagsOfAdd s.config (s.readReg ra) (s.readReg rb) res s.flags)).advance

/-- SUBR (41_arithmetic.md R106). -/
def execSubr (rt ra rb : Reg) (s : State) : Result :=
  s.finish rt (s.readReg ra - s.readReg rb)

/-- SUBF (41_arithmetic.md R107). -/
def execSubf (rt ra rb : Reg) (s : State) : Result :=
  let res := s.readReg ra - s.readReg rb
  .next ((s.writeReg rt res).setFlags (flagsOfSub s.config (s.readReg ra) (s.readReg rb) res s.flags)).advance

/-! ## Multiplication and division -/

/-- MULR: lower word to `x[rt]`, upper word to `ep` (41_arithmetic.md R108). -/
def execMulr (rt ra rb : Reg) (s : State) : Result :=
  let p := product s.config.mulSigned (s.readReg ra) (s.readReg rb)
  .next ((s.writeReg rt (p.extractLsb' 0 32)).setEp (p.extractLsb' 32 32)).advance

/-- MULF (41_arithmetic.md R109). -/
def execMulf (rt ra rb : Reg) (s : State) : Result :=
  let p := product s.config.mulSigned (s.readReg ra) (s.readReg rb)
  .next (((s.writeReg rt (p.extractLsb' 0 32)).setEp (p.extractLsb' 32 32)).setFlags
    (flagsOfMul s.config (s.readReg ra) (s.readReg rb) p s.flags)).advance

/-- DIVR: quotient to `x[rt]`, remainder to `ep`, both from the values before the instruction (41_arithmetic.md R110). -/
def execDivr (rt ra rb : Reg) (s : State) : Result :=
  match divide s.config.divSigned s.ep (s.readReg ra) (s.readReg rb) with
  | some (q, r) => .next ((s.writeReg rt q).setEp r).advance
  | none => s.divideCorner rt ra rb fun _ => s.flags

/-- DIVF: the flags are the quotient's, in a corner the corner's (41_arithmetic.md R111). -/
def execDivf (rt ra rb : Reg) (s : State) : Result :=
  match divide s.config.divSigned s.ep (s.readReg ra) (s.readReg rb) with
  | some (q, r) =>
    .next (((s.writeReg rt q).setEp r).setFlags
      (flagsOfResult s.config .divf [s.ep, s.readReg ra, s.readReg rb] q s.flags)).advance
  | none => s.divideCorner rt ra rb DivideAnswer.flags

/-! ## Access to ep -/

/-- RDEP (41_arithmetic.md R112). -/
def execRdep (rt : Reg) (s : State) : Result :=
  s.finish rt s.ep

/-- WREP (41_arithmetic.md R113). -/
def execWrep (ra : Reg) (s : State) : Result :=
  .next (s.setEp (s.readReg ra)).advance

end Sys2Proof.Machine
end

