-- ==== Sys2Proof/Syntax.lean ====
section
/-!
DEFINITION. The 52 instructions of CUP, one constructor per row of spec/opcode_table.json, in the table's order. The
arguments are the used fields of the row in the order `rt`, `ra`, `rb`, immediate (30_encoding.md R65), each as the bits of
its field; the unused fields of 30_encoding.md R61 are not part of an instruction.
-/

namespace Sys2Proof

inductive Instr where
  -- 40_logical.md R73 to R78: shifts by register value
  | sllr (rt ra rb : Reg)
  | slrf (rt ra rb : Reg)
  | srlr (rt ra rb : Reg)
  | srrf (rt ra rb : Reg)
  | srar (rt ra rb : Reg)
  | sras (rt ra rb : Reg)
  -- 40_logical.md R79 to R84: shifts by immediate value
  | slli (rt ra : Reg) (imm5 : BitVec 5)
  | slif (rt ra : Reg) (imm5 : BitVec 5)
  | srli (rt ra : Reg) (imm5 : BitVec 5)
  | srif (rt ra : Reg) (imm5 : BitVec 5)
  | srai (rt ra : Reg) (imm5 : BitVec 5)
  | sraj (rt ra : Reg) (imm5 : BitVec 5)
  -- 40_logical.md R85 to R92: register-register logical
  | andr (rt ra rb : Reg)
  | adrf (rt ra rb : Reg)
  | orrr (rt ra rb : Reg)
  | orrf (rt ra rb : Reg)
  | notr (rt ra : Reg)
  | notf (rt ra : Reg)
  | xorr (rt ra rb : Reg)
  | xorf (rt ra rb : Reg)
  -- 40_logical.md R93 to R95: logical with an immediate
  | andi (rt ra : Reg) (imm16 : BitVec 16)
  | orri (rt ra : Reg) (imm16 : BitVec 16)
  | xori (rt ra : Reg) (imm16 : BitVec 16)
  -- 41_arithmetic.md R104 to R113
  | addr (rt ra rb : Reg)
  | addf (rt ra rb : Reg)
  | subr (rt ra rb : Reg)
  | subf (rt ra rb : Reg)
  | mulr (rt ra rb : Reg)
  | mulf (rt ra rb : Reg)
  | divr (rt ra rb : Reg)
  | divf (rt ra rb : Reg)
  | rdep (rt : Reg)
  | wrep (ra : Reg)
  -- 42_control_flow.md R122 to R131
  | jmpr (ra rb : Reg) (imm5 : BitVec 5)
  | jalr (ra rb : Reg) (imm5 : BitVec 5)
  | jmpi (imm26 : BitVec 26)
  | jali (imm26 : BitVec 26)
  | brnr (rt : Reg) (imm21 : BitVec 21)
  | bror (rt : Reg) (imm21 : BitVec 21)
  | brcr (rt : Reg) (imm21 : BitVec 21)
  | brzr (rt : Reg) (imm21 : BitVec 21)
  | brne (rt ra : Reg) (imm16 : BitVec 16)
  | brgt (rt ra : Reg) (imm16 : BitVec 16)
  -- 43_load_store.md R142 to R150
  | ldui (rt : Reg) (imm16 : BitVec 16)
  | ldwd (rt ra : Reg) (imm16 : BitVec 16)
  | ldhs (rt ra : Reg) (imm16 : BitVec 16)
  | ldhu (rt ra : Reg) (imm16 : BitVec 16)
  | ldbs (rt ra : Reg) (imm16 : BitVec 16)
  | ldbu (rt ra : Reg) (imm16 : BitVec 16)
  | stwd (rt ra : Reg) (imm16 : BitVec 16)
  | sthw (rt ra : Reg) (imm16 : BitVec 16)
  | stsb (rt ra : Reg) (imm16 : BitVec 16)
  deriving DecidableEq, Repr

end Sys2Proof
end

