-- ==== Sys2Proof/WellFormed.lean ====
section
/-!
DEFINITION. Which instructions have a meaning under a configuration. Every field of an instruction is a bit vector of the
field's own width, so a field out of range cannot be written; the one form the spec lets a configuration refuse is JALR
naming `r31` (42_control_flow.md R121).
-/

namespace Sys2Proof

/-- JALR that reads the link register it writes (42_control_flow.md R121: "`ra` = 31 or `rb` = 31"). -/
def Instr.jalrReadsLink : Instr → Bool
  | .jalr ra rb _ => ra == 31#5 || rb == 31#5
  | _ => false

/-- Under `JALR_R31_MODE` = `refuse` a JALR that names `r31` has no meaning; everything else is well formed. -/
def wellFormed (c : Config) (i : Instr) : Bool :=
  !(c.jalrR31Mode == .refuse && i.jalrReadsLink)

end Sys2Proof
end

