-- ==== Sys2Proof/Decode.lean ====
section
/-!
DEFINITION. From bits to an instruction or a named rejection (30_encoding.md R50 to R63), and the encoder written from the
same tables.
-/

namespace Sys2Proof

/-- Why a word is no instruction. -/
inductive Reject where
  /-- 30_encoding.md R60: an unassigned `op0`, or an unassigned `op1` under `op0` = 0. -/
  | illegalInstruction (w : Word)
  /-- 30_encoding.md R61 under `UNUSED_FIELD_MODE` = `refuse`; 42_control_flow.md R121 under `JALR_R31_MODE` = `refuse`. -/
  | reservedField (w : Word)
  deriving DecidableEq, Repr

/-- Why a byte string does not begin with an instruction. -/
inductive ByteReject where
  /-- Fewer bytes than the one instruction length, four (30_encoding.md R50); a fetch never meets it. -/
  | tooShort (bytes : Nat)
  /-- The first four bytes are no instruction. -/
  | rejected (why : Reject)
  deriving DecidableEq, Repr

/-! ## Fields -/

/-- Every field any of the four formats reads (30_encoding.md R51 to R55). -/
structure Fields where
  op0 : BitVec 6
  rt : Reg
  ra : Reg
  rb : Reg
  imm5 : BitVec 5
  op1 : BitVec 6
  imm16 : BitVec 16
  imm21 : BitVec 21
  imm26 : BitVec 26
  deriving DecidableEq, Repr

/-- The lowest bit of `rb` under a layout (30_encoding.md R52). -/
def rbLow : RLayout → Nat
  | .rbImm5Op1 => 11
  | .rbOp1Imm5 => 11
  | .imm5RbOp1 => 6
  | .imm5Op1Rb => 0
  | .op1RbImm5 => 5
  | .op1Imm5Rb => 0

/-- The lowest bit of `imm5` under a layout (30_encoding.md R52). -/
def imm5Low : RLayout → Nat
  | .rbImm5Op1 => 6
  | .rbOp1Imm5 => 0
  | .imm5RbOp1 => 11
  | .imm5Op1Rb => 11
  | .op1RbImm5 => 0
  | .op1Imm5Rb => 5

/-- The lowest bit of `op1` under a layout (30_encoding.md R52). -/
def op1Low : RLayout → Nat
  | .rbImm5Op1 => 0
  | .rbOp1Imm5 => 5
  | .imm5RbOp1 => 0
  | .imm5Op1Rb => 5
  | .op1RbImm5 => 10
  | .op1Imm5Rb => 10

/-- The fields of an instruction word (30_encoding.md R51 to R55). -/
def fieldsOf (l : RLayout) (w : Word) : Fields where
  op0 := w.extractLsb' 26 6
  rt := w.extractLsb' 21 5
  ra := w.extractLsb' 16 5
  rb := w.extractLsb' (rbLow l) 5
  imm5 := w.extractLsb' (imm5Low l) 5
  op1 := w.extractLsb' (op1Low l) 6
  imm16 := w.extractLsb' 0 16
  imm21 := w.extractLsb' 0 21
  imm26 := w.extractLsb' 0 26

/-! ## The opcode maps -/

/-- The secondary opcode map (30_encoding.md R59): 00..1f are assigned, 20..3f are not. -/
def decodeRType (f : Fields) : Option Instr :=
  match f.op1 with
  | 0x00#6 => some (.sllr f.rt f.ra f.rb)
  | 0x01#6 => some (.slrf f.rt f.ra f.rb)
  | 0x02#6 => some (.srlr f.rt f.ra f.rb)
  | 0x03#6 => some (.srrf f.rt f.ra f.rb)
  | 0x04#6 => some (.srar f.rt f.ra f.rb)
  | 0x05#6 => some (.sras f.rt f.ra f.rb)
  | 0x06#6 => some (.slli f.rt f.ra f.imm5)
  | 0x07#6 => some (.slif f.rt f.ra f.imm5)
  | 0x08#6 => some (.srli f.rt f.ra f.imm5)
  | 0x09#6 => some (.srif f.rt f.ra f.imm5)
  | 0x0a#6 => some (.srai f.rt f.ra f.imm5)
  | 0x0b#6 => some (.sraj f.rt f.ra f.imm5)
  | 0x0c#6 => some (.andr f.rt f.ra f.rb)
  | 0x0d#6 => some (.adrf f.rt f.ra f.rb)
  | 0x0e#6 => some (.orrr f.rt f.ra f.rb)
  | 0x0f#6 => some (.orrf f.rt f.ra f.rb)
  | 0x10#6 => some (.notr f.rt f.ra)
  | 0x11#6 => some (.notf f.rt f.ra)
  | 0x12#6 => some (.xorr f.rt f.ra f.rb)
  | 0x13#6 => some (.xorf f.rt f.ra f.rb)
  | 0x14#6 => some (.addr f.rt f.ra f.rb)
  | 0x15#6 => some (.addf f.rt f.ra f.rb)
  | 0x16#6 => some (.subr f.rt f.ra f.rb)
  | 0x17#6 => some (.subf f.rt f.ra f.rb)
  | 0x18#6 => some (.mulr f.rt f.ra f.rb)
  | 0x19#6 => some (.mulf f.rt f.ra f.rb)
  | 0x1a#6 => some (.divr f.rt f.ra f.rb)
  | 0x1b#6 => some (.divf f.rt f.ra f.rb)
  | 0x1c#6 => some (.rdep f.rt)
  | 0x1d#6 => some (.wrep f.ra)
  | 0x1e#6 => some (.jmpr f.ra f.rb f.imm5)
  | 0x1f#6 => some (.jalr f.ra f.rb f.imm5)
  | _ => none

/-- The primary opcode map (30_encoding.md R58): 04 and 16..3f are unassigned. -/
def decodeFields (f : Fields) : Option Instr :=
  match f.op0 with
  | 0x00#6 => decodeRType f
  | 0x01#6 => some (.andi f.rt f.ra f.imm16)
  | 0x02#6 => some (.orri f.rt f.ra f.imm16)
  | 0x03#6 => some (.xori f.rt f.ra f.imm16)
  | 0x05#6 => some (.jmpi f.imm26)
  | 0x06#6 => some (.jali f.imm26)
  | 0x07#6 => some (.brnr f.rt f.imm21)
  | 0x08#6 => some (.bror f.rt f.imm21)
  | 0x09#6 => some (.brcr f.rt f.imm21)
  | 0x0a#6 => some (.brzr f.rt f.imm21)
  | 0x0b#6 => some (.brne f.rt f.ra f.imm16)
  | 0x0c#6 => some (.brgt f.rt f.ra f.imm16)
  | 0x0d#6 => some (.ldui f.rt f.imm16)
  | 0x0e#6 => some (.ldwd f.rt f.ra f.imm16)
  | 0x0f#6 => some (.ldhs f.rt f.ra f.imm16)
  | 0x10#6 => some (.ldhu f.rt f.ra f.imm16)
  | 0x11#6 => some (.ldbs f.rt f.ra f.imm16)
  | 0x12#6 => some (.ldbu f.rt f.ra f.imm16)
  | 0x13#6 => some (.stwd f.rt f.ra f.imm16)
  | 0x14#6 => some (.sthw f.rt f.ra f.imm16)
  | 0x15#6 => some (.stsb f.rt f.ra f.imm16)
  | _ => none

/-! ## Unused fields -/

/-- The unused fields of an instruction's format, as they stand in a word (30_encoding.md R61). -/
def unusedFields (f : Fields) : Instr → List (BitVec 5)
  | .sllr _ _ _ | .slrf _ _ _ | .srlr _ _ _ | .srrf _ _ _ | .srar _ _ _ | .sras _ _ _ => [f.imm5]
  | .slli _ _ _ | .slif _ _ _ | .srli _ _ _ | .srif _ _ _ | .srai _ _ _ | .sraj _ _ _ => [f.rb]
  | .andr _ _ _ | .adrf _ _ _ | .orrr _ _ _ | .orrf _ _ _ | .xorr _ _ _ | .xorf _ _ _ => [f.imm5]
  | .addr _ _ _ | .addf _ _ _ | .subr _ _ _ | .subf _ _ _ => [f.imm5]
  | .mulr _ _ _ | .mulf _ _ _ | .divr _ _ _ | .divf _ _ _ => [f.imm5]
  | .notr _ _ | .notf _ _ => [f.rb, f.imm5]
  | .rdep _ => [f.ra, f.rb, f.imm5]
  | .wrep _ => [f.rt, f.rb, f.imm5]
  | .jmpr _ _ _ | .jalr _ _ _ => [f.rt]
  | .ldui _ _ => [f.ra]
  | .andi _ _ _ | .orri _ _ _ | .xori _ _ _ => []
  | .jmpi _ | .jali _ => []
  | .brnr _ _ | .bror _ _ | .brcr _ _ | .brzr _ _ => []
  | .brne _ _ _ | .brgt _ _ _ => []
  | .ldwd _ _ _ | .ldhs _ _ _ | .ldhu _ _ _ | .ldbs _ _ _ | .ldbu _ _ _ => []
  | .stwd _ _ _ | .sthw _ _ _ | .stsb _ _ _ => []

/-- Whether some unused field of the instruction is nonzero (30_encoding.md R63 step 5). -/
def unusedNonzero (f : Fields) (i : Instr) : Bool :=
  (unusedFields f i).any (· != 0#5)

/-! ## Decoding -/

/-- 30_encoding.md R63, steps 3 to 5. A JALR that the configuration refuses is rejected after the unused fields
(60_exceptions.md R163: both are `ReservedField`). -/
def decode (c : Config) (w : Word) : Except Reject Instr :=
  match decodeFields (fieldsOf c.rLayout w) with
  | none => .error (.illegalInstruction w)
  | some i =>
    if c.unusedFieldMode = .refuse ∧ unusedNonzero (fieldsOf c.rLayout w) i = true then .error (.reservedField w)
    else if wellFormed c i then .ok i
    else .error (.reservedField w)

/-- Four bytes, lowest address first, as one little-endian word (20_memory.md R31, R32). -/
def wordOfBytes (b0 b1 b2 b3 : Byte) : Word :=
  b3 ++ b2 ++ b1 ++ b0

/-- One instruction off the front of a byte string, and the rest (30_encoding.md R50). -/
def decodeBytes (c : Config) : List Byte → Except ByteReject (Instr × List Byte)
  | b0 :: b1 :: b2 :: b3 :: rest =>
    match decode c (wordOfBytes b0 b1 b2 b3) with
    | .ok i => .ok (i, rest)
    | .error why => .error (.rejected why)
  | bytes => .error (.tooShort bytes.length)

/-- The bytes of the little-endian word that has `w` as its bits, lowest address first. -/
def bytesOfBits (w : Nat) : List Byte :=
  [BitVec.ofNat 8 w, BitVec.ofNat 8 (w / 2 ^ 8), BitVec.ofNat 8 (w / 2 ^ 16), BitVec.ofNat 8 (w / 2 ^ 24)]

/-- The host's question: what the decoder reads from an instruction with bits `w`, under the parameters of State.reset.
Every instruction is one 32-bit word (30_encoding.md R50), so the bits above `nbits` are the word's upper zeros. -/
def decodeTableWord (nbits w : Nat) : Option Instr :=
  match decodeBytes defaultConfig (bytesOfBits (w % 2 ^ nbits)) with
  | .ok (i, _) => some i
  | .error _ => none

/-! ## Encoding -/

/-- R-type word (30_encoding.md R52). -/
def encodeR (l : RLayout) (op1 : BitVec 6) (rt ra rb : Reg) (imm5 : BitVec 5) : Word :=
  match l with
  | .rbImm5Op1 => 0x00#6 ++ rt ++ ra ++ rb ++ imm5 ++ op1
  | .rbOp1Imm5 => 0x00#6 ++ rt ++ ra ++ rb ++ op1 ++ imm5
  | .imm5RbOp1 => 0x00#6 ++ rt ++ ra ++ imm5 ++ rb ++ op1
  | .imm5Op1Rb => 0x00#6 ++ rt ++ ra ++ imm5 ++ op1 ++ rb
  | .op1RbImm5 => 0x00#6 ++ rt ++ ra ++ op1 ++ rb ++ imm5
  | .op1Imm5Rb => 0x00#6 ++ rt ++ ra ++ op1 ++ imm5 ++ rb

/-- I-type word (30_encoding.md R53). -/
def encodeI (op0 : BitVec 6) (rt ra : Reg) (imm16 : BitVec 16) : Word :=
  op0 ++ rt ++ ra ++ imm16

/-- B-type word (30_encoding.md R54). -/
def encodeB (op0 : BitVec 6) (rt : Reg) (imm21 : BitVec 21) : Word :=
  op0 ++ rt ++ imm21

/-- J-type word (30_encoding.md R55). -/
def encodeJ (op0 : BitVec 6) (imm26 : BitVec 26) : Word :=
  op0 ++ imm26

/-- The word of an instruction, zero in every unused field (30_encoding.md R58, R59, R61). -/
def encode (c : Config) : Instr → Word
  | .sllr rt ra rb => encodeR c.rLayout 0x00#6 rt ra rb 0#5
  | .slrf rt ra rb => encodeR c.rLayout 0x01#6 rt ra rb 0#5
  | .srlr rt ra rb => encodeR c.rLayout 0x02#6 rt ra rb 0#5
  | .srrf rt ra rb => encodeR c.rLayout 0x03#6 rt ra rb 0#5
  | .srar rt ra rb => encodeR c.rLayout 0x04#6 rt ra rb 0#5
  | .sras rt ra rb => encodeR c.rLayout 0x05#6 rt ra rb 0#5
  | .slli rt ra imm5 => encodeR c.rLayout 0x06#6 rt ra 0#5 imm5
  | .slif rt ra imm5 => encodeR c.rLayout 0x07#6 rt ra 0#5 imm5
  | .srli rt ra imm5 => encodeR c.rLayout 0x08#6 rt ra 0#5 imm5
  | .srif rt ra imm5 => encodeR c.rLayout 0x09#6 rt ra 0#5 imm5
  | .srai rt ra imm5 => encodeR c.rLayout 0x0a#6 rt ra 0#5 imm5
  | .sraj rt ra imm5 => encodeR c.rLayout 0x0b#6 rt ra 0#5 imm5
  | .andr rt ra rb => encodeR c.rLayout 0x0c#6 rt ra rb 0#5
  | .adrf rt ra rb => encodeR c.rLayout 0x0d#6 rt ra rb 0#5
  | .orrr rt ra rb => encodeR c.rLayout 0x0e#6 rt ra rb 0#5
  | .orrf rt ra rb => encodeR c.rLayout 0x0f#6 rt ra rb 0#5
  | .notr rt ra => encodeR c.rLayout 0x10#6 rt ra 0#5 0#5
  | .notf rt ra => encodeR c.rLayout 0x11#6 rt ra 0#5 0#5
  | .xorr rt ra rb => encodeR c.rLayout 0x12#6 rt ra rb 0#5
  | .xorf rt ra rb => encodeR c.rLayout 0x13#6 rt ra rb 0#5
  | .andi rt ra imm16 => encodeI 0x01#6 rt ra imm16
  | .orri rt ra imm16 => encodeI 0x02#6 rt ra imm16
  | .xori rt ra imm16 => encodeI 0x03#6 rt ra imm16
  | .addr rt ra rb => encodeR c.rLayout 0x14#6 rt ra rb 0#5
  | .addf rt ra rb => encodeR c.rLayout 0x15#6 rt ra rb 0#5
  | .subr rt ra rb => encodeR c.rLayout 0x16#6 rt ra rb 0#5
  | .subf rt ra rb => encodeR c.rLayout 0x17#6 rt ra rb 0#5
  | .mulr rt ra rb => encodeR c.rLayout 0x18#6 rt ra rb 0#5
  | .mulf rt ra rb => encodeR c.rLayout 0x19#6 rt ra rb 0#5
  | .divr rt ra rb => encodeR c.rLayout 0x1a#6 rt ra rb 0#5
  | .divf rt ra rb => encodeR c.rLayout 0x1b#6 rt ra rb 0#5
  | .rdep rt => encodeR c.rLayout 0x1c#6 rt 0#5 0#5 0#5
  | .wrep ra => encodeR c.rLayout 0x1d#6 0#5 ra 0#5 0#5
  | .jmpr ra rb imm5 => encodeR c.rLayout 0x1e#6 0#5 ra rb imm5
  | .jalr ra rb imm5 => encodeR c.rLayout 0x1f#6 0#5 ra rb imm5
  | .jmpi imm26 => encodeJ 0x05#6 imm26
  | .jali imm26 => encodeJ 0x06#6 imm26
  | .brnr rt imm21 => encodeB 0x07#6 rt imm21
  | .bror rt imm21 => encodeB 0x08#6 rt imm21
  | .brcr rt imm21 => encodeB 0x09#6 rt imm21
  | .brzr rt imm21 => encodeB 0x0a#6 rt imm21
  | .brne rt ra imm16 => encodeI 0x0b#6 rt ra imm16
  | .brgt rt ra imm16 => encodeI 0x0c#6 rt ra imm16
  | .ldui rt imm16 => encodeI 0x0d#6 rt 0#5 imm16
  | .ldwd rt ra imm16 => encodeI 0x0e#6 rt ra imm16
  | .ldhs rt ra imm16 => encodeI 0x0f#6 rt ra imm16
  | .ldhu rt ra imm16 => encodeI 0x10#6 rt ra imm16
  | .ldbs rt ra imm16 => encodeI 0x11#6 rt ra imm16
  | .ldbu rt ra imm16 => encodeI 0x12#6 rt ra imm16
  | .stwd rt ra imm16 => encodeI 0x13#6 rt ra imm16
  | .sthw rt ra imm16 => encodeI 0x14#6 rt ra imm16
  | .stsb rt ra imm16 => encodeI 0x15#6 rt ra imm16

end Sys2Proof
end

