-- ==== Sys2Proof/Machine/ControlFlow.lean ====
section
/-!
DEFINITION. The 10 control-flow instructions (42_control_flow.md). `pc` is the address of the instruction itself
(10_state.md R16); a misaligned target is written as computed, the stop comes at the next fetch (10_state.md R18).
-/

namespace Sys2Proof.Machine

/-- A conditional transfer: to the target when taken, to the next instruction when not (42_control_flow.md R120). -/
def State.branch (s : State) (taken : Bool) (target : Word) : Result :=
  if taken then .next (s.setPc target) else .next s.advance

/-- Put the return address in the link register (42_control_flow.md R123, R125). -/
def State.link (s : State) : State := s.writeReg linkReg s.nextPc

/-- BRGT's comparison under `BRGT_SIGNED` (42_control_flow.md R131). -/
def greater (signed : Bool) (a b : Word) : Bool :=
  if signed then decide (b.toInt < a.toInt) else decide (b.toNat < a.toNat)

/-! ## Jumps through registers -/

/-- JMPR (42_control_flow.md R122). -/
def execJmpr (ra rb : Reg) (imm5 : BitVec 5) (s : State) : Result :=
  .next (s.setPc (s.registerTarget ra rb imm5))

/-- JALR: the target from the registers before the link is written, or after, or no meaning when it names `r31`, by
`JALR_R31_MODE` (42_control_flow.md R121, R123). -/
def execJalr (ra rb : Reg) (imm5 : BitVec 5) (s : State) : Result :=
  match s.config.jalrR31Mode with
  | .old => .next (s.link.setPc (s.registerTarget ra rb imm5))
  | .new => .next (s.link.setPc (s.link.registerTarget ra rb imm5))
  | .refuse =>
    if ra = linkReg ∨ rb = linkReg then .refused (.reservedField (encode s.config (.jalr ra rb imm5)))
    else .next (s.link.setPc (s.registerTarget ra rb imm5))

/-! ## Jumps with an immediate -/

/-- JMPI (42_control_flow.md R124). -/
def execJmpi (imm26 : BitVec 26) (s : State) : Result :=
  .next (s.setPc (s.jumpTarget imm26))

/-- JALI (42_control_flow.md R125). -/
def execJali (imm26 : BitVec 26) (s : State) : Result :=
  .next (s.link.setPc (s.jumpTarget imm26))

/-! ## Branches on a flag: the target is absolute, `x[rt]` plus the immediate -/

/-- BRNR (42_control_flow.md R126). -/
def execBrnr (rt : Reg) (imm21 : BitVec 21) (s : State) : Result :=
  s.branch s.flags.n (s.flagTarget rt imm21)

/-- BROR (42_control_flow.md R127). -/
def execBror (rt : Reg) (imm21 : BitVec 21) (s : State) : Result :=
  s.branch s.flags.o (s.flagTarget rt imm21)

/-- BRCR (42_control_flow.md R128). -/
def execBrcr (rt : Reg) (imm21 : BitVec 21) (s : State) : Result :=
  s.branch s.flags.c (s.flagTarget rt imm21)

/-- BRZR (42_control_flow.md R129). -/
def execBrzr (rt : Reg) (imm21 : BitVec 21) (s : State) : Result :=
  s.branch s.flags.z (s.flagTarget rt imm21)

/-! ## Branches on a register comparison: the target is relative to the branch's own address -/

/-- BRNE (42_control_flow.md R130). -/
def execBrne (rt ra : Reg) (imm16 : BitVec 16) (s : State) : Result :=
  s.branch (s.readReg rt != s.readReg ra) (s.compareTarget imm16)

/-- BRGT (42_control_flow.md R131). -/
def execBrgt (rt ra : Reg) (imm16 : BitVec 16) (s : State) : Result :=
  s.branch (greater s.config.brgtSigned (s.readReg rt) (s.readReg ra)) (s.compareTarget imm16)

end Sys2Proof.Machine
end

