-- ==== Sys2Proof/Machine/LoadStore.lean ====
section
/-!
DEFINITION. The 9 load-store instructions (43_load_store.md).
-/

namespace Sys2Proof.Machine

/-- A load of `n` bytes, extended to a word; the read happens also when `rt` is `r0` (43_load_store.md R141). -/
def State.load (s : State) (n : Nat) (extend : Word → Word) (rt ra : Reg) (imm16 : BitVec 16) : Result :=
  match s.memRead (s.effectiveAddress ra imm16) n with
  | .error f => .fault f
  | .ok (v, t) => t.finish rt (extend v)

/-- A store of the low `n` bytes of `x[rt]` (43_load_store.md R141). -/
def State.store (s : State) (n : Nat) (rt ra : Reg) (imm16 : BitVec 16) : Result :=
  match s.memWrite (s.effectiveAddress ra imm16) n (s.readReg rt) with
  | .error f => .fault f
  | .ok t => .next t.advance

/-- LDUI: bits 31:16 become the immediate, bits 15:0 keep their value (43_load_store.md R142). -/
def execLdui (rt : Reg) (imm16 : BitVec 16) (s : State) : Result :=
  s.finish rt (withUpperHalf imm16 (s.readReg rt))

/-- LDWD (43_load_store.md R143). -/
def execLdwd (rt ra : Reg) (imm16 : BitVec 16) (s : State) : Result :=
  s.load 4 id rt ra imm16

/-- LDHS (43_load_store.md R144). -/
def execLdhs (rt ra : Reg) (imm16 : BitVec 16) (s : State) : Result :=
  s.load 2 sextHalf rt ra imm16

/-- LDHU (43_load_store.md R145). -/
def execLdhu (rt ra : Reg) (imm16 : BitVec 16) (s : State) : Result :=
  s.load 2 zextHalf rt ra imm16

/-- LDBS (43_load_store.md R146). -/
def execLdbs (rt ra : Reg) (imm16 : BitVec 16) (s : State) : Result :=
  s.load 1 sextByte rt ra imm16

/-- LDBU (43_load_store.md R147). -/
def execLdbu (rt ra : Reg) (imm16 : BitVec 16) (s : State) : Result :=
  s.load 1 zextByte rt ra imm16

/-- STWD (43_load_store.md R148). -/
def execStwd (rt ra : Reg) (imm16 : BitVec 16) (s : State) : Result :=
  s.store 4 rt ra imm16

/-- STHW (43_load_store.md R149). -/
def execSthw (rt ra : Reg) (imm16 : BitVec 16) (s : State) : Result :=
  s.store 2 rt ra imm16

/-- STSB (43_load_store.md R150). -/
def execStsb (rt ra : Reg) (imm16 : BitVec 16) (s : State) : Result :=
  s.store 1 rt ra imm16

end Sys2Proof.Machine
end

