-- ==== Sys2Proof/Machine/Dispatch.lean ====
section
/-!
DEFINITION. One instruction's meaning: one arm per constructor of Instr.
-/

namespace Sys2Proof.Machine

def exec (i : Instr) (s : State) : Host.Outcome State Fault Refusal :=
  match i with
  | .sllr rt ra rb => Sys2Proof.Machine.execSllr rt ra rb s
  | .slrf rt ra rb => Sys2Proof.Machine.execSlrf rt ra rb s
  | .srlr rt ra rb => Sys2Proof.Machine.execSrlr rt ra rb s
  | .srrf rt ra rb => Sys2Proof.Machine.execSrrf rt ra rb s
  | .srar rt ra rb => Sys2Proof.Machine.execSrar rt ra rb s
  | .sras rt ra rb => Sys2Proof.Machine.execSras rt ra rb s
  | .slli rt ra imm5 => Sys2Proof.Machine.execSlli rt ra imm5 s
  | .slif rt ra imm5 => Sys2Proof.Machine.execSlif rt ra imm5 s
  | .srli rt ra imm5 => Sys2Proof.Machine.execSrli rt ra imm5 s
  | .srif rt ra imm5 => Sys2Proof.Machine.execSrif rt ra imm5 s
  | .srai rt ra imm5 => Sys2Proof.Machine.execSrai rt ra imm5 s
  | .sraj rt ra imm5 => Sys2Proof.Machine.execSraj rt ra imm5 s
  | .andr rt ra rb => Sys2Proof.Machine.execAndr rt ra rb s
  | .adrf rt ra rb => Sys2Proof.Machine.execAdrf rt ra rb s
  | .orrr rt ra rb => Sys2Proof.Machine.execOrrr rt ra rb s
  | .orrf rt ra rb => Sys2Proof.Machine.execOrrf rt ra rb s
  | .notr rt ra => Sys2Proof.Machine.execNotr rt ra s
  | .notf rt ra => Sys2Proof.Machine.execNotf rt ra s
  | .xorr rt ra rb => Sys2Proof.Machine.execXorr rt ra rb s
  | .xorf rt ra rb => Sys2Proof.Machine.execXorf rt ra rb s
  | .andi rt ra imm16 => Sys2Proof.Machine.execAndi rt ra imm16 s
  | .orri rt ra imm16 => Sys2Proof.Machine.execOrri rt ra imm16 s
  | .xori rt ra imm16 => Sys2Proof.Machine.execXori rt ra imm16 s
  | .addr rt ra rb => Sys2Proof.Machine.execAddr rt ra rb s
  | .addf rt ra rb => Sys2Proof.Machine.execAddf rt ra rb s
  | .subr rt ra rb => Sys2Proof.Machine.execSubr rt ra rb s
  | .subf rt ra rb => Sys2Proof.Machine.execSubf rt ra rb s
  | .mulr rt ra rb => Sys2Proof.Machine.execMulr rt ra rb s
  | .mulf rt ra rb => Sys2Proof.Machine.execMulf rt ra rb s
  | .divr rt ra rb => Sys2Proof.Machine.execDivr rt ra rb s
  | .divf rt ra rb => Sys2Proof.Machine.execDivf rt ra rb s
  | .rdep rt => Sys2Proof.Machine.execRdep rt s
  | .wrep ra => Sys2Proof.Machine.execWrep ra s
  | .jmpr ra rb imm5 => Sys2Proof.Machine.execJmpr ra rb imm5 s
  | .jalr ra rb imm5 => Sys2Proof.Machine.execJalr ra rb imm5 s
  | .jmpi imm26 => Sys2Proof.Machine.execJmpi imm26 s
  | .jali imm26 => Sys2Proof.Machine.execJali imm26 s
  | .brnr rt imm21 => Sys2Proof.Machine.execBrnr rt imm21 s
  | .bror rt imm21 => Sys2Proof.Machine.execBror rt imm21 s
  | .brcr rt imm21 => Sys2Proof.Machine.execBrcr rt imm21 s
  | .brzr rt imm21 => Sys2Proof.Machine.execBrzr rt imm21 s
  | .brne rt ra imm16 => Sys2Proof.Machine.execBrne rt ra imm16 s
  | .brgt rt ra imm16 => Sys2Proof.Machine.execBrgt rt ra imm16 s
  | .ldui rt imm16 => Sys2Proof.Machine.execLdui rt imm16 s
  | .ldwd rt ra imm16 => Sys2Proof.Machine.execLdwd rt ra imm16 s
  | .ldhs rt ra imm16 => Sys2Proof.Machine.execLdhs rt ra imm16 s
  | .ldhu rt ra imm16 => Sys2Proof.Machine.execLdhu rt ra imm16 s
  | .ldbs rt ra imm16 => Sys2Proof.Machine.execLdbs rt ra imm16 s
  | .ldbu rt ra imm16 => Sys2Proof.Machine.execLdbu rt ra imm16 s
  | .stwd rt ra imm16 => Sys2Proof.Machine.execStwd rt ra imm16 s
  | .sthw rt ra imm16 => Sys2Proof.Machine.execSthw rt ra imm16 s
  | .stsb rt ra imm16 => Sys2Proof.Machine.execStsb rt ra imm16 s

end Sys2Proof.Machine
end

