-- ==== Sys2Proof/Machine/Fetch.lean ====
section
/-!
DEFINITION. Fetching an instruction's word (30_encoding.md R63 steps 1 and 2), the stop of a word that is none, and the host
placing a word where the next fetch reads.
-/

namespace Sys2Proof.Machine

/-- "the least significant two bits of the `pc` register must always be zero" (10_state.md R15). -/
def wordAligned (a : Word) : Bool := a.extractLsb' 0 2 == 0#2

/-- The address with bits 1:0 cleared (10_state.md R18). -/
def clearLow2 (a : Word) : Word := a &&& 0xFFFFFFFC#32

/-- Where the next instruction is fetched (30_encoding.md R63 step 1). -/
def State.fetchAddress (s : State) : Except Fault Word :=
  if wordAligned s.pc then .ok s.pc
  else
    match s.config.pcAlignMode with
    | .stop => .error (.misalignedFetch s.pc)
    | .mask => .ok (clearLow2 s.pc)

/-- The instruction word, and the state the instruction executes in: `pc` is the address fetched from (30_encoding.md R63
steps 1 and 2). A fetch is an ordinary `MemRead` (20_memory.md R45). -/
def State.fetch (s : State) : Except Fault (Word × State) :=
  match s.fetchAddress with
  | .error f => .error f
  | .ok a => (s.setPc a).memRead a 4

/-- A word that decodes to no instruction stops the machine (60_exceptions.md R162). -/
def stopOf : Reject → Result
  | .illegalInstruction w => .fault (.illegalInstruction w)
  | .reservedField w => .refused (.reservedField w)

/-- Make the next fetch read `w`: the bytes are stored where it reads; only where it would not read RAM do those four bytes
become RAM, and only where it would stop on a misaligned `pc` are the low two bits of `pc` cleared. -/
def State.placeWord (s : State) (w : Word) : State :=
  let a := clearLow2 s.pc
  let allRam := (accessBytes a 4).all fun b => s.region b == .ram
  { s with
    pc := if s.config.pcAlignMode = .stop then a else s.pc
    mem := s.mem.writeCells (storeCells a 4 w)
    config := if allRam then s.config
      else { s.config with memoryMap := ⟨a.toNat, 4, .ram⟩ :: s.config.memoryMap } }

end Sys2Proof.Machine
end

