-- ==== Sys2Proof/Machine/Step.lean ====
section
/-!
DEFINITION. One step of the CPU (30_encoding.md R63): fetch, decode, execute.
-/

namespace Sys2Proof.Machine

/-- 30_encoding.md R63. -/
def step (s : State) : Host.Outcome State Fault Refusal :=
  match s.fetch with
  | .error f => .fault f
  | .ok (w, t) =>
    match decode t.config w with
    | .error why => stopOf why
    | .ok i => exec i t

/-- The host places an instruction's word where the next step fetches it (log 21). -/
def State.withFetchWord (s : State) (nbits w : Nat) : State :=
  s.placeWord (BitVec.ofNat 32 (w % 2 ^ nbits))

end Sys2Proof.Machine
end

