-- ==== Sys2Proof/Machine/Assembly.lean ====
section
/-!
DEFINITION. The assembler's side of an instruction (30_encoding.md R64, R65, R66): its mnemonic, its operands in the order
the assembler writes them, its text, and the instruction a mnemonic and operands stand for.
-/

namespace Sys2Proof.Machine

/-- "The mnemonics ... are always 4 uppercase letters" (30_encoding.md R64). -/
inductive Mnemonic where
  | sllr | slrf | srlr | srrf | srar | sras | slli | slif
  | srli | srif | srai | sraj | andr | adrf | orrr | orrf
  | notr | notf | xorr | xorf | andi | orri | xori | addr
  | addf | subr | subf | mulr | mulf | divr | divf | rdep
  | wrep | jmpr | jalr | jmpi | jali | brnr | bror | brcr
  | brzr | brne | brgt | ldui | ldwd | ldhs | ldhu | ldbs
  | ldbu | stwd | sthw | stsb
  deriving DecidableEq, Repr

/-- The four letters (30_encoding.md R64). -/
def mnemonicText : Mnemonic → String
  | .sllr => "SLLR"
  | .slrf => "SLRF"
  | .srlr => "SRLR"
  | .srrf => "SRRF"
  | .srar => "SRAR"
  | .sras => "SRAS"
  | .slli => "SLLI"
  | .slif => "SLIF"
  | .srli => "SRLI"
  | .srif => "SRIF"
  | .srai => "SRAI"
  | .sraj => "SRAJ"
  | .andr => "ANDR"
  | .adrf => "ADRF"
  | .orrr => "ORRR"
  | .orrf => "ORRF"
  | .notr => "NOTR"
  | .notf => "NOTF"
  | .xorr => "XORR"
  | .xorf => "XORF"
  | .andi => "ANDI"
  | .orri => "ORRI"
  | .xori => "XORI"
  | .addr => "ADDR"
  | .addf => "ADDF"
  | .subr => "SUBR"
  | .subf => "SUBF"
  | .mulr => "MULR"
  | .mulf => "MULF"
  | .divr => "DIVR"
  | .divf => "DIVF"
  | .rdep => "RDEP"
  | .wrep => "WREP"
  | .jmpr => "JMPR"
  | .jalr => "JALR"
  | .jmpi => "JMPI"
  | .jali => "JALI"
  | .brnr => "BRNR"
  | .bror => "BROR"
  | .brcr => "BRCR"
  | .brzr => "BRZR"
  | .brne => "BRNE"
  | .brgt => "BRGT"
  | .ldui => "LDUI"
  | .ldwd => "LDWD"
  | .ldhs => "LDHS"
  | .ldhu => "LDHU"
  | .ldbs => "LDBS"
  | .ldbu => "LDBU"
  | .stwd => "STWD"
  | .sthw => "STHW"
  | .stsb => "STSB"

/-- An operand as the assembler writes it: a register, or the value of an immediate field (30_encoding.md R65). -/
inductive Operand where
  | reg (r : Reg)
  | imm (value : Int)
  deriving DecidableEq, Repr

/-- "Registers are written `r0` to `r31`, lower-case" (30_encoding.md R64); an immediate in decimal, with a leading `-` for
a negative value (R65). -/
def operandText : Operand → String
  | .reg r => "r" ++ toString r.toNat
  | .imm v => toString v

/-- Operands "are separated by `, `" (30_encoding.md R64). -/
def operandsText : List Operand → String
  | [] => ""
  | [a] => operandText a
  | a :: rest => operandText a ++ ", " ++ operandsText rest

/-- The mnemonic of an instruction. -/
def mnemonicOf : Instr → Mnemonic
  | .sllr _ _ _ => .sllr
  | .slrf _ _ _ => .slrf
  | .srlr _ _ _ => .srlr
  | .srrf _ _ _ => .srrf
  | .srar _ _ _ => .srar
  | .sras _ _ _ => .sras
  | .slli _ _ _ => .slli
  | .slif _ _ _ => .slif
  | .srli _ _ _ => .srli
  | .srif _ _ _ => .srif
  | .srai _ _ _ => .srai
  | .sraj _ _ _ => .sraj
  | .andr _ _ _ => .andr
  | .adrf _ _ _ => .adrf
  | .orrr _ _ _ => .orrr
  | .orrf _ _ _ => .orrf
  | .notr _ _ => .notr
  | .notf _ _ => .notf
  | .xorr _ _ _ => .xorr
  | .xorf _ _ _ => .xorf
  | .andi _ _ _ => .andi
  | .orri _ _ _ => .orri
  | .xori _ _ _ => .xori
  | .addr _ _ _ => .addr
  | .addf _ _ _ => .addf
  | .subr _ _ _ => .subr
  | .subf _ _ _ => .subf
  | .mulr _ _ _ => .mulr
  | .mulf _ _ _ => .mulf
  | .divr _ _ _ => .divr
  | .divf _ _ _ => .divf
  | .rdep _ => .rdep
  | .wrep _ => .wrep
  | .jmpr _ _ _ => .jmpr
  | .jalr _ _ _ => .jalr
  | .jmpi _ => .jmpi
  | .jali _ => .jali
  | .brnr _ _ => .brnr
  | .bror _ _ => .bror
  | .brcr _ _ => .brcr
  | .brzr _ _ => .brzr
  | .brne _ _ _ => .brne
  | .brgt _ _ _ => .brgt
  | .ldui _ _ => .ldui
  | .ldwd _ _ _ => .ldwd
  | .ldhs _ _ _ => .ldhs
  | .ldhu _ _ _ => .ldhu
  | .ldbs _ _ _ => .ldbs
  | .ldbu _ _ _ => .ldbu
  | .stwd _ _ _ => .stwd
  | .sthw _ _ _ => .sthw
  | .stsb _ _ _ => .stsb

/-- The operands in the assembler's order: the used fields in the order `rt`, `ra`, `rb`, immediate (30_encoding.md R65). A
field that is sign-extended is written as a signed number, the others as unsigned ones (R57). -/
def operandsOf : Instr → List Operand
  | .sllr rt ra rb => [.reg rt, .reg ra, .reg rb]
  | .slrf rt ra rb => [.reg rt, .reg ra, .reg rb]
  | .srlr rt ra rb => [.reg rt, .reg ra, .reg rb]
  | .srrf rt ra rb => [.reg rt, .reg ra, .reg rb]
  | .srar rt ra rb => [.reg rt, .reg ra, .reg rb]
  | .sras rt ra rb => [.reg rt, .reg ra, .reg rb]
  | .slli rt ra imm5 => [.reg rt, .reg ra, .imm imm5.toNat]
  | .slif rt ra imm5 => [.reg rt, .reg ra, .imm imm5.toNat]
  | .srli rt ra imm5 => [.reg rt, .reg ra, .imm imm5.toNat]
  | .srif rt ra imm5 => [.reg rt, .reg ra, .imm imm5.toNat]
  | .srai rt ra imm5 => [.reg rt, .reg ra, .imm imm5.toNat]
  | .sraj rt ra imm5 => [.reg rt, .reg ra, .imm imm5.toNat]
  | .andr rt ra rb => [.reg rt, .reg ra, .reg rb]
  | .adrf rt ra rb => [.reg rt, .reg ra, .reg rb]
  | .orrr rt ra rb => [.reg rt, .reg ra, .reg rb]
  | .orrf rt ra rb => [.reg rt, .reg ra, .reg rb]
  | .notr rt ra => [.reg rt, .reg ra]
  | .notf rt ra => [.reg rt, .reg ra]
  | .xorr rt ra rb => [.reg rt, .reg ra, .reg rb]
  | .xorf rt ra rb => [.reg rt, .reg ra, .reg rb]
  | .andi rt ra imm16 => [.reg rt, .reg ra, .imm imm16.toNat]
  | .orri rt ra imm16 => [.reg rt, .reg ra, .imm imm16.toNat]
  | .xori rt ra imm16 => [.reg rt, .reg ra, .imm imm16.toNat]
  | .addr rt ra rb => [.reg rt, .reg ra, .reg rb]
  | .addf rt ra rb => [.reg rt, .reg ra, .reg rb]
  | .subr rt ra rb => [.reg rt, .reg ra, .reg rb]
  | .subf rt ra rb => [.reg rt, .reg ra, .reg rb]
  | .mulr rt ra rb => [.reg rt, .reg ra, .reg rb]
  | .mulf rt ra rb => [.reg rt, .reg ra, .reg rb]
  | .divr rt ra rb => [.reg rt, .reg ra, .reg rb]
  | .divf rt ra rb => [.reg rt, .reg ra, .reg rb]
  | .rdep rt => [.reg rt]
  | .wrep ra => [.reg ra]
  | .jmpr ra rb imm5 => [.reg ra, .reg rb, .imm imm5.toNat]
  | .jalr ra rb imm5 => [.reg ra, .reg rb, .imm imm5.toNat]
  | .jmpi imm26 => [.imm imm26.toInt]
  | .jali imm26 => [.imm imm26.toInt]
  | .brnr rt imm21 => [.reg rt, .imm imm21.toInt]
  | .bror rt imm21 => [.reg rt, .imm imm21.toInt]
  | .brcr rt imm21 => [.reg rt, .imm imm21.toInt]
  | .brzr rt imm21 => [.reg rt, .imm imm21.toInt]
  | .brne rt ra imm16 => [.reg rt, .reg ra, .imm imm16.toInt]
  | .brgt rt ra imm16 => [.reg rt, .reg ra, .imm imm16.toInt]
  | .ldui rt imm16 => [.reg rt, .imm imm16.toNat]
  | .ldwd rt ra imm16 => [.reg rt, .reg ra, .imm imm16.toInt]
  | .ldhs rt ra imm16 => [.reg rt, .reg ra, .imm imm16.toInt]
  | .ldhu rt ra imm16 => [.reg rt, .reg ra, .imm imm16.toInt]
  | .ldbs rt ra imm16 => [.reg rt, .reg ra, .imm imm16.toInt]
  | .ldbu rt ra imm16 => [.reg rt, .reg ra, .imm imm16.toInt]
  | .stwd rt ra imm16 => [.reg rt, .reg ra, .imm imm16.toInt]
  | .sthw rt ra imm16 => [.reg rt, .reg ra, .imm imm16.toInt]
  | .stsb rt ra imm16 => [.reg rt, .reg ra, .imm imm16.toInt]

/-- One line of assembly (30_encoding.md R64, R65). -/
def instrText (i : Instr) : String :=
  mnemonicText (mnemonicOf i) ++ " " ++ operandsText (operandsOf i)

/-- An immediate operand is the value of an unsigned field (30_encoding.md R65); a value the field cannot hold is rejected,
DEDUCED (log 22). -/
def unsignedField (w : Nat) (v : Int) : Option (BitVec w) :=
  if 0 ≤ v ∧ v < 2 ^ w then some (BitVec.ofInt w v) else none

/-- An immediate operand of a sign-extended field: the field's own value, or a negative value "which the assembler truncates
to the field's width" (30_encoding.md R65); a value that fits neither way is rejected, DEDUCED (log 22). -/
def signedField (w : Nat) (v : Int) : Option (BitVec w) :=
  if -2 ^ (w - 1) ≤ v ∧ v < 2 ^ w then some (BitVec.ofInt w v) else none

/-- The instruction that a mnemonic and its operands stand for (30_encoding.md R65). -/
def assemble : Mnemonic → List Operand → Option Instr
  | .sllr, [.reg rt, .reg ra, .reg rb] => some (.sllr rt ra rb)
  | .slrf, [.reg rt, .reg ra, .reg rb] => some (.slrf rt ra rb)
  | .srlr, [.reg rt, .reg ra, .reg rb] => some (.srlr rt ra rb)
  | .srrf, [.reg rt, .reg ra, .reg rb] => some (.srrf rt ra rb)
  | .srar, [.reg rt, .reg ra, .reg rb] => some (.srar rt ra rb)
  | .sras, [.reg rt, .reg ra, .reg rb] => some (.sras rt ra rb)
  | .slli, [.reg rt, .reg ra, .imm v] => (unsignedField 5 v).map (Instr.slli rt ra)
  | .slif, [.reg rt, .reg ra, .imm v] => (unsignedField 5 v).map (Instr.slif rt ra)
  | .srli, [.reg rt, .reg ra, .imm v] => (unsignedField 5 v).map (Instr.srli rt ra)
  | .srif, [.reg rt, .reg ra, .imm v] => (unsignedField 5 v).map (Instr.srif rt ra)
  | .srai, [.reg rt, .reg ra, .imm v] => (unsignedField 5 v).map (Instr.srai rt ra)
  | .sraj, [.reg rt, .reg ra, .imm v] => (unsignedField 5 v).map (Instr.sraj rt ra)
  | .andr, [.reg rt, .reg ra, .reg rb] => some (.andr rt ra rb)
  | .adrf, [.reg rt, .reg ra, .reg rb] => some (.adrf rt ra rb)
  | .orrr, [.reg rt, .reg ra, .reg rb] => some (.orrr rt ra rb)
  | .orrf, [.reg rt, .reg ra, .reg rb] => some (.orrf rt ra rb)
  | .notr, [.reg rt, .reg ra] => some (.notr rt ra)
  | .notf, [.reg rt, .reg ra] => some (.notf rt ra)
  | .xorr, [.reg rt, .reg ra, .reg rb] => some (.xorr rt ra rb)
  | .xorf, [.reg rt, .reg ra, .reg rb] => some (.xorf rt ra rb)
  | .andi, [.reg rt, .reg ra, .imm v] => (unsignedField 16 v).map (Instr.andi rt ra)
  | .orri, [.reg rt, .reg ra, .imm v] => (unsignedField 16 v).map (Instr.orri rt ra)
  | .xori, [.reg rt, .reg ra, .imm v] => (unsignedField 16 v).map (Instr.xori rt ra)
  | .addr, [.reg rt, .reg ra, .reg rb] => some (.addr rt ra rb)
  | .addf, [.reg rt, .reg ra, .reg rb] => some (.addf rt ra rb)
  | .subr, [.reg rt, .reg ra, .reg rb] => some (.subr rt ra rb)
  | .subf, [.reg rt, .reg ra, .reg rb] => some (.subf rt ra rb)
  | .mulr, [.reg rt, .reg ra, .reg rb] => some (.mulr rt ra rb)
  | .mulf, [.reg rt, .reg ra, .reg rb] => some (.mulf rt ra rb)
  | .divr, [.reg rt, .reg ra, .reg rb] => some (.divr rt ra rb)
  | .divf, [.reg rt, .reg ra, .reg rb] => some (.divf rt ra rb)
  | .rdep, [.reg rt] => some (.rdep rt)
  | .wrep, [.reg ra] => some (.wrep ra)
  | .jmpr, [.reg ra, .reg rb, .imm v] => (unsignedField 5 v).map (Instr.jmpr ra rb)
  | .jalr, [.reg ra, .reg rb, .imm v] => (unsignedField 5 v).map (Instr.jalr ra rb)
  | .jmpi, [.imm v] => (signedField 26 v).map (Instr.jmpi)
  | .jali, [.imm v] => (signedField 26 v).map (Instr.jali)
  | .brnr, [.reg rt, .imm v] => (signedField 21 v).map (Instr.brnr rt)
  | .bror, [.reg rt, .imm v] => (signedField 21 v).map (Instr.bror rt)
  | .brcr, [.reg rt, .imm v] => (signedField 21 v).map (Instr.brcr rt)
  | .brzr, [.reg rt, .imm v] => (signedField 21 v).map (Instr.brzr rt)
  | .brne, [.reg rt, .reg ra, .imm v] => (signedField 16 v).map (Instr.brne rt ra)
  | .brgt, [.reg rt, .reg ra, .imm v] => (signedField 16 v).map (Instr.brgt rt ra)
  | .ldui, [.reg rt, .imm v] => (unsignedField 16 v).map (Instr.ldui rt)
  | .ldwd, [.reg rt, .reg ra, .imm v] => (signedField 16 v).map (Instr.ldwd rt ra)
  | .ldhs, [.reg rt, .reg ra, .imm v] => (signedField 16 v).map (Instr.ldhs rt ra)
  | .ldhu, [.reg rt, .reg ra, .imm v] => (signedField 16 v).map (Instr.ldhu rt ra)
  | .ldbs, [.reg rt, .reg ra, .imm v] => (signedField 16 v).map (Instr.ldbs rt ra)
  | .ldbu, [.reg rt, .reg ra, .imm v] => (signedField 16 v).map (Instr.ldbu rt ra)
  | .stwd, [.reg rt, .reg ra, .imm v] => (signedField 16 v).map (Instr.stwd rt ra)
  | .sthw, [.reg rt, .reg ra, .imm v] => (signedField 16 v).map (Instr.sthw rt ra)
  | .stsb, [.reg rt, .reg ra, .imm v] => (signedField 16 v).map (Instr.stsb rt ra)
  | _, _ => none

/-- The pseudo-instruction NOP: "`SLLR r0, r0, r0`" (30_encoding.md R62, R66). -/
def nop : Instr := .sllr 0#5 0#5 0#5

/-- The idiom that loads a 32-bit constant: ORRI of the low half, then LDUI of the high half (30_encoding.md R66). -/
def loadConstant (rt : Reg) (k : Word) : List Instr :=
  [.orri rt 0#5 (k.extractLsb' 0 16), .ldui rt (k.extractLsb' 16 16)]

/-- The idiom that copies a register: OR with `r0` (30_encoding.md R66). -/
def copyRegister (rt ra : Reg) : Instr := .orrr rt ra 0#5

end Sys2Proof.Machine
end

