-- ==== Sys2Proof/Machine/Boot.lean ====
section
/-!
DEFINITION. What the host does before a run (70_reset_and_hazards.md R182): choose the parameters, load an image into RAM,
release reset.
-/

namespace Sys2Proof.Machine

/-- The image bytes that lie in RAM regions: the host writes "into RAM regions" only (70_reset_and_hazards.md R182).
DEDUCED (log 29): they are written first to last, so an address the image names twice keeps the last byte, and the bytes
outside RAM are discarded. The second is safe; the first is unsafe for a claim about such an image. -/
def State.loadImage (s : State) (image : List (Word × Byte)) : State :=
  { s with mem := s.mem.writeCells (s.cellsIn .ram image) }

/-- The machine at the release of reset, with the parameters and the image the host chose (10_state.md R25). -/
def bootState (c : Config) (image : List (Word × Byte)) : State :=
  { State.reset with pc := c.resetPc, config := c }.loadImage image

/-- "`RESET_PC` must be word-aligned and must lie in a region that `MEMORY_MAP` makes RAM" (70_reset_and_hazards.md R181).
DESIGN CHOICE (log 30), safe: the rule speaks of the address `RESET_PC` and does not say how much from there on must be RAM;
here all four bytes of the first instruction word must be, in one RAM region or in several. No step asks this. -/
def resetPcAdmissible (c : Config) : Bool :=
  wordAligned c.resetPc && (accessBytes c.resetPc 4).all fun a => regionAt c.memoryMap a == .ram

end Sys2Proof.Machine
end

