-- ==== Sys2Proof/Machine/Run.lean ====
section
/-!
DEFINITION. Runs and their end (70_reset_and_hazards.md R184). CUP has no halt instruction: when a run is over is the
parameter END_OF_RUN, here an argument.
-/

namespace Sys2Proof.Machine

/-- The ten control-flow instructions (10_state.md R17). -/
def isControlFlow : Instr → Bool
  | .jmpr _ _ _ | .jalr _ _ _ | .jmpi _ | .jali _ => true
  | .brnr _ _ | .bror _ _ | .brcr _ _ | .brzr _ _ => true
  | .brne _ _ _ | .brgt _ _ _ => true
  | .sllr _ _ _ | .slrf _ _ _ | .srlr _ _ _ | .srrf _ _ _ | .srar _ _ _ | .sras _ _ _ | .slli _ _ _
  | .slif _ _ _ | .srli _ _ _ | .srif _ _ _ | .srai _ _ _ | .sraj _ _ _ | .andr _ _ _ | .adrf _ _ _
  | .orrr _ _ _ | .orrf _ _ _ | .notr _ _ | .notf _ _ | .xorr _ _ _ | .xorf _ _ _ | .andi _ _ _ | .orri _ _ _
  | .xori _ _ _ | .addr _ _ _ | .addf _ _ _ | .subr _ _ _ | .subf _ _ _ | .mulr _ _ _ | .mulf _ _ _
  | .divr _ _ _ | .divf _ _ _ | .rdep _ | .wrep _ | .ldui _ _ | .ldwd _ _ _ | .ldhs _ _ _ | .ldhu _ _ _
  | .ldbs _ _ _ | .ldbu _ _ _ | .stwd _ _ _ | .sthw _ _ _ | .stsb _ _ _ => false

/-- The instruction the next step runs, where there is one (30_encoding.md R63). -/
def State.nextInstr (s : State) : Option Instr :=
  match s.fetch with
  | .error _ => none
  | .ok (w, t) =>
    match decode t.config w with
    | .error _ => none
    | .ok i => some i

/-- The spec's own END_OF_RUN: the instruction at `pc` is a control transfer to `pc` itself that changes no other state
(70_reset_and_hazards.md R184). -/
def atSelfJump (s : State) : Bool :=
  match s.nextInstr, step s with
  | some i, .next t => isControlFlow i && decide (t = s)
  | _, _ => false

/-- At most `k` steps, ending in the first state that `endOfRun` holds of, or at a stop (70_reset_and_hazards.md R184). -/
def runUntil (endOfRun : State → Bool) : Nat → State → Result
  | 0, s => .next s
  | k + 1, s =>
    if endOfRun s then .next s
    else
      match step s with
      | .next t => runUntil endOfRun k t
      | .fault f => .fault f
      | .refused r => .refused r

end Sys2Proof.Machine
end

