-- ==== Sys2Proof/Safety.lean ====
section
/-!
DEFINITION. What holds of every state a run reaches, and what counts as a safe run.
-/

namespace Sys2Proof.Safety

open Sys2Proof.Machine

/-- The cells of an event with the environment. -/
def eventCells : IoEvent → List (Word × Byte)
  | .read cells => cells
  | .write cells => cells

/-- How many bytes an event drew from the environment. -/
def eventDraws : IoEvent → Nat
  | .read cells => cells.length
  | .write _ => 0

/-- The invariant of the machine: memory keeps its canonical form and lists RAM bytes only (10_state.md R24); every event
with the environment touched at least one byte and I/O bytes only (20_memory.md R38); every byte the environment answered
is one draw. -/
structure Inv (s : State) : Prop where
  memWf : s.mem.wf = true
  memRam : ∀ cell ∈ s.mem, s.region (BitVec.ofNat 32 cell.1) = .ram
  logIo : ∀ e ∈ s.ioLog, eventCells e ≠ [] ∧ ∀ cell ∈ eventCells e, s.region cell.1 = .io
  logDraws : s.draws = (s.ioLog.map eventDraws).sum

/-- A run that meets no model stop in `k` steps (60_exceptions.md R162). -/
def SafeFor (k : Nat) (s : State) : Prop := ∃ t, Sys2Proof.core.run k s = .next t

end Sys2Proof.Safety
end

