-- ==== Sys2Proof/Certificates/Slice0/Obligations.lean ====
section
/-!
DEFINITION. The statements for the provers. Results are stated as numbers, as the rules of spec/ give them, so that a
statement does not repeat the definition it is about. A helper under Sys2Proof.Claims says what several statements share.
-/

namespace Sys2Proof.Claims

open Sys2Proof.Machine

/-! ## What an instruction leaves -/

/-- The general registers after `x[rt] <- v`: a write to `r0` changes nothing (10_state.md R11). -/
def regsAfter (s : State) (rt : Reg) (v : Word) (r : Reg) : Word :=
  if r = 0#5 then 0#32 else if r = rt then v else s.readReg r

/-- `t` follows `s`: the registers, `ep`, `pc` and flags are the given ones; every byte of memory, the configuration and
the environment's record are unchanged. -/
structure Next (s t : State) (regs : Reg → Word) (ep pc : Word) (flags : Flags) : Prop where
  regs : ∀ r, t.readReg r = regs r
  ep : t.ep = ep
  pc : t.pc = pc
  flags : t.flags = flags
  mem : ∀ a, t.mem.read a = s.mem.read a
  config : t.config = s.config
  ioLog : t.ioLog = s.ioLog
  draws : t.draws = s.draws

/-- The instruction completes and only writes `v` to `x[rt]`; `pc` moves to the next instruction. -/
def WritesReg (i : Instr) (s : State) (rt : Reg) (v : Word) : Prop :=
  ∃ t, exec i s = .next t ∧ Next s t (regsAfter s rt v) s.ep (s.pc + 4#32) s.flags

/-- N and Z are the given ones in every mode of `FLAGS`; C and O are the given ones under `FLAGS` = `table`. -/
def FlagsAre (c : Config) (n z carry overflow : Prop) (f : Flags) : Prop :=
  (f.n = true ↔ n) ∧ (f.z = true ↔ z) ∧
    (c.flagsMode = .table → ((f.c = true ↔ carry) ∧ (f.o = true ↔ overflow)))

/-- The instruction completes, writes `v` to `x[rt]` and `ep` to `ep`, and leaves flags of which `P` holds. -/
def WritesWithFlags (i : Instr) (s : State) (rt : Reg) (v ep : Word) (P : Flags → Prop) : Prop :=
  ∃ t, exec i s = .next t ∧ P t.flags ∧ Next s t (regsAfter s rt v) ep (s.pc + 4#32) t.flags

/-- As `WritesReg`, and the flags follow the 32-bit result: N its top bit, Z whether it is zero, C and O as they were. -/
def WritesRegAndNZ (i : Instr) (s : State) (rt : Reg) (v : Word) : Prop :=
  WritesWithFlags i s rt v s.ep
    (FlagsAre s.config (2 ^ 31 ≤ v.toNat) (v.toNat = 0) (s.flags.c = true) (s.flags.o = true))

/-- The instruction completes, sets `pc` and leaves everything else. -/
def JumpsTo (i : Instr) (s : State) (pc : Word) : Prop :=
  ∃ t, exec i s = .next t ∧ Next s t s.readReg s.ep pc s.flags

/-- The instruction completes, sets `pc`, puts `pc + 4` in `r31` and leaves everything else. -/
def LinksAndJumpsTo (i : Instr) (s : State) (pc : Word) : Prop :=
  ∃ t, exec i s = .next t ∧ Next s t (regsAfter s 31#5 (s.pc + 4#32)) s.ep pc s.flags

/-! ## Encodings -/

/-- Every word with this `op0` and, in the R-type, this `op1`, whose unused fields are zero, decodes to the instruction
made of its fields, under every configuration. -/
def EncodedR (op1 : BitVec 6) (unused : Fields → List (BitVec 5)) (mk : Fields → Instr) : Prop :=
  ∀ (c : Config) (w : Word), (fieldsOf c.rLayout w).op0 = 0x00#6 → (fieldsOf c.rLayout w).op1 = op1 →
    (∀ u ∈ unused (fieldsOf c.rLayout w), u = 0#5) → decode c w = .ok (mk (fieldsOf c.rLayout w))

/-- The same for the formats without `op1`. -/
def Encoded (op0 : BitVec 6) (unused : Fields → List (BitVec 5)) (mk : Fields → Instr) : Prop :=
  ∀ (c : Config) (w : Word), (fieldsOf c.rLayout w).op0 = op0 →
    (∀ u ∈ unused (fieldsOf c.rLayout w), u = 0#5) → decode c w = .ok (mk (fieldsOf c.rLayout w))

/-- The table of 30_encoding.md R61: the unused fields of an instruction's format. -/
def unusedOf (f : Fields) : Instr → List (BitVec 5)
  | .notr _ _ | .notf _ _ => [f.rb, f.imm5]
  | .rdep _ => [f.ra, f.rb, f.imm5]
  | .wrep _ => [f.rt, f.rb, f.imm5]
  | .jmpr _ _ _ | .jalr _ _ _ => [f.rt]
  | .ldui _ _ => [f.ra]
  | .slli _ _ _ | .slif _ _ _ | .srli _ _ _ | .srif _ _ _ | .srai _ _ _ | .sraj _ _ _ => [f.rb]
  | .sllr _ _ _ | .slrf _ _ _ | .srlr _ _ _ | .srrf _ _ _ | .srar _ _ _ | .sras _ _ _ => [f.imm5]
  | .andr _ _ _ | .adrf _ _ _ | .orrr _ _ _ | .orrf _ _ _ | .xorr _ _ _ | .xorf _ _ _ => [f.imm5]
  | .addr _ _ _ | .addf _ _ _ | .subr _ _ _ | .subf _ _ _ => [f.imm5]
  | .mulr _ _ _ | .mulf _ _ _ | .divr _ _ _ | .divf _ _ _ => [f.imm5]
  | _ => []

/-! ## Operands as numbers -/

/-- `amt(b)` of 40_logical.md R71; none where the mode stops. -/
def amount (mode : ShiftRegMode) (b : Word) : Option Nat :=
  match mode with
  | .low5 => some (b.toNat % 32)
  | .full => some b.toNat
  | .stop => if b.toNat ≤ 31 then some b.toNat else none

/-- `shl`, `shr`, `sar` of 40_logical.md R70 as numbers. -/
def shifted (v : Word) (k : Nat) : Word × Word × Word :=
  (BitVec.ofNat 32 (v.toNat * 2 ^ k), BitVec.ofNat 32 (v.toNat / 2 ^ k), BitVec.ofInt 32 (v.toInt / 2 ^ k))

/-- The product of 41_arithmetic.md R101 as a number. -/
def productOf (signed : Bool) (a b : Word) : Int :=
  if signed then a.toInt * b.toInt else a.toNat * b.toNat

/-- The 64-bit dividend `{ep, a}` of 41_arithmetic.md R102 as a number. -/
def dividendOf (signed : Bool) (ep a : Word) : Int :=
  (if signed then ep.toInt else ep.toNat) * 2 ^ 32 + a.toNat

/-- The divisor of 41_arithmetic.md R102 as a number. -/
def divisorOf (signed : Bool) (b : Word) : Int := if signed then b.toInt else b.toNat

/-- `q` and `r` are quotient and remainder of `D` by `d`, rounded toward zero: the remainder is smaller than the divisor
and has the sign of the dividend or is 0 (41_arithmetic.md R102). -/
def DividesTo (D d q r : Int) : Prop := D = q * d + r ∧ |r| < |d| ∧ (r = 0 ∨ r.sign = D.sign)

/-- The quotient fits 32 bits (41_arithmetic.md R102). -/
def Fits (signed : Bool) (q : Int) : Prop :=
  if signed then -2 ^ 31 ≤ q ∧ q ≤ 2 ^ 31 - 1 else 0 ≤ q ∧ q < 2 ^ 32

/-- A division corner (41_arithmetic.md R103). -/
def Corner (s : State) (a b : Word) : Prop :=
  divisorOf s.config.divSigned b = 0 ∨
    ∃ q r, DividesTo (dividendOf s.config.divSigned s.ep a) (divisorOf s.config.divSigned b) q r ∧
      ¬ Fits s.config.divSigned q

/-- The effective address of 43_load_store.md R140 as a number. -/
def eaOf (s : State) (ra : Reg) (imm16 : BitVec 16) : Word :=
  BitVec.ofInt 32 ((s.readReg ra).toNat + imm16.toInt)

/-- The `k`th byte address of an access, modulo 2^32 (20_memory.md R32). -/
def at_ (addr : Word) (k : Nat) : Word := BitVec.ofNat 32 (addr.toNat + k)

/-- Every byte of the access has memory or a device behind it. -/
def Mapped (s : State) (addr : Word) (n : Nat) : Prop := ∀ k < n, s.region (at_ addr k) ≠ .unmapped

/-- Every byte of the access is RAM. -/
def InRam (s : State) (addr : Word) (n : Nat) : Prop := ∀ k < n, s.region (at_ addr k) = .ram

/-- The values of 20_memory.md R32 for one, two and four bytes `B 0`, `B 1`, ... -/
def value1 (B : Nat → Byte) : Nat := (B 0).toNat
def value2 (B : Nat → Byte) : Nat := (B 0).toNat + 2 ^ 8 * (B 1).toNat
def value4 (B : Nat → Byte) : Nat :=
  (B 0).toNat + 2 ^ 8 * (B 1).toNat + 2 ^ 16 * (B 2).toNat + 2 ^ 24 * (B 3).toNat

/-- `sext_32` of an `n`-bit value as a number (00_scope.md R8). -/
def sextOf (n : Nat) (v : Nat) : Word := BitVec.ofInt 32 (if v < 2 ^ (n - 1) then (v : Int) else (v : Int) - 2 ^ n)

/-- `v[8k+7 : 8k]` (20_memory.md R33). -/
def byteAt (v : Word) (k : Nat) : Byte := BitVec.ofNat 8 (v.toNat / 2 ^ (8 * k))

/-- The I/O cells of an access of `n` bytes with the bytes `B`, in access order. -/
def ioCells (s : State) (addr : Word) (n : Nat) (B : Nat → Byte) : List (Word × Byte) :=
  ((List.range n).filter fun k => s.region (at_ addr k) == .io).map fun k => (at_ addr k, B k)

/-- The five loads with their width and the value they make of the bytes (43_load_store.md R143 to R147). -/
def loads (rt ra : Reg) (imm16 : BitVec 16) : List (Instr × Nat × ((Nat → Byte) → Word)) :=
  [(.ldwd rt ra imm16, 4, fun B => BitVec.ofNat 32 (value4 B)),
   (.ldhs rt ra imm16, 2, fun B => sextOf 16 (value2 B)),
   (.ldhu rt ra imm16, 2, fun B => BitVec.ofNat 32 (value2 B)),
   (.ldbs rt ra imm16, 1, fun B => sextOf 8 (value1 B)),
   (.ldbu rt ra imm16, 1, fun B => BitVec.ofNat 32 (value1 B))]

/-- The three stores with their width (43_load_store.md R148 to R150). -/
def stores (rt ra : Reg) (imm16 : BitVec 16) : List (Instr × Nat) :=
  [(.stwd rt ra imm16, 4), (.sthw rt ra imm16, 2), (.stsb rt ra imm16, 1)]

/-! ## Classes of instructions -/

/-- The general registers an instruction writes: the target field, or the link register (42_control_flow.md R123, R125). -/
def destinations : Instr → List Reg
  | .sllr rt _ _ | .slrf rt _ _ | .srlr rt _ _ | .srrf rt _ _ | .srar rt _ _ | .sras rt _ _ => [rt]
  | .slli rt _ _ | .slif rt _ _ | .srli rt _ _ | .srif rt _ _ | .srai rt _ _ | .sraj rt _ _ => [rt]
  | .andr rt _ _ | .adrf rt _ _ | .orrr rt _ _ | .orrf rt _ _ | .xorr rt _ _ | .xorf rt _ _ => [rt]
  | .notr rt _ | .notf rt _ => [rt]
  | .andi rt _ _ | .orri rt _ _ | .xori rt _ _ => [rt]
  | .addr rt _ _ | .addf rt _ _ | .subr rt _ _ | .subf rt _ _ => [rt]
  | .mulr rt _ _ | .mulf rt _ _ | .divr rt _ _ | .divf rt _ _ | .rdep rt => [rt]
  | .ldui rt _ | .ldwd rt _ _ | .ldhs rt _ _ | .ldhu rt _ _ | .ldbs rt _ _ | .ldbu rt _ _ => [rt]
  | .jalr _ _ _ | .jali _ => [31#5]
  | .wrep _ | .jmpr _ _ _ | .jmpi _ => []
  | .brnr _ _ | .bror _ _ | .brcr _ _ | .brzr _ _ | .brne _ _ _ | .brgt _ _ _ => []
  | .stwd _ _ _ | .sthw _ _ _ | .stsb _ _ _ => []

/-- The same instruction with `r0` as its target; none for an instruction whose `rt` field is no target. -/
def withTargetR0 : Instr → Option Instr
  | .sllr _ ra rb => some (.sllr 0#5 ra rb) | .slrf _ ra rb => some (.slrf 0#5 ra rb)
  | .srlr _ ra rb => some (.srlr 0#5 ra rb) | .srrf _ ra rb => some (.srrf 0#5 ra rb)
  | .srar _ ra rb => some (.srar 0#5 ra rb) | .sras _ ra rb => some (.sras 0#5 ra rb)
  | .slli _ ra k => some (.slli 0#5 ra k) | .slif _ ra k => some (.slif 0#5 ra k)
  | .srli _ ra k => some (.srli 0#5 ra k) | .srif _ ra k => some (.srif 0#5 ra k)
  | .srai _ ra k => some (.srai 0#5 ra k) | .sraj _ ra k => some (.sraj 0#5 ra k)
  | .andr _ ra rb => some (.andr 0#5 ra rb) | .adrf _ ra rb => some (.adrf 0#5 ra rb)
  | .orrr _ ra rb => some (.orrr 0#5 ra rb) | .orrf _ ra rb => some (.orrf 0#5 ra rb)
  | .notr _ ra => some (.notr 0#5 ra) | .notf _ ra => some (.notf 0#5 ra)
  | .xorr _ ra rb => some (.xorr 0#5 ra rb) | .xorf _ ra rb => some (.xorf 0#5 ra rb)
  | .andi _ ra k => some (.andi 0#5 ra k) | .orri _ ra k => some (.orri 0#5 ra k) | .xori _ ra k => some (.xori 0#5 ra k)
  | .addr _ ra rb => some (.addr 0#5 ra rb) | .addf _ ra rb => some (.addf 0#5 ra rb)
  | .subr _ ra rb => some (.subr 0#5 ra rb) | .subf _ ra rb => some (.subf 0#5 ra rb)
  | .mulr _ ra rb => some (.mulr 0#5 ra rb) | .mulf _ ra rb => some (.mulf 0#5 ra rb)
  | .divr _ ra rb => some (.divr 0#5 ra rb) | .divf _ ra rb => some (.divf 0#5 ra rb)
  | .rdep _ => some (.rdep 0#5)
  | .ldui _ k => some (.ldui 0#5 k) | .ldwd _ ra k => some (.ldwd 0#5 ra k)
  | .ldhs _ ra k => some (.ldhs 0#5 ra k) | .ldhu _ ra k => some (.ldhu 0#5 ra k)
  | .ldbs _ ra k => some (.ldbs 0#5 ra k) | .ldbu _ ra k => some (.ldbu 0#5 ra k)
  | .wrep _ | .jmpr _ _ _ | .jalr _ _ _ | .jmpi _ | .jali _ => none
  | .brnr _ _ | .bror _ _ | .brcr _ _ | .brzr _ _ | .brne _ _ _ | .brgt _ _ _ => none
  | .stwd _ _ _ | .sthw _ _ _ | .stsb _ _ _ => none

/-- The 17 flag-setting instructions (10_state.md R20). -/
def setsFlags : Instr → Bool
  | .slrf _ _ _ | .srrf _ _ _ | .sras _ _ _ | .slif _ _ _ | .srif _ _ _ | .sraj _ _ _ => true
  | .adrf _ _ _ | .orrf _ _ _ | .notf _ _ | .xorf _ _ _ | .andi _ _ _ | .orri _ _ _ | .xori _ _ _ => true
  | .addf _ _ _ | .subf _ _ _ | .mulf _ _ _ | .divf _ _ _ => true
  | _ => false

/-- The flag a flag reader reads (10_state.md R20). -/
def flagRead : Instr → Option (Flags → Bool)
  | .brnr _ _ => some Flags.n
  | .bror _ _ => some Flags.o
  | .brcr _ _ => some Flags.c
  | .brzr _ _ => some Flags.z
  | _ => none

/-- The five writers of `ep` (10_state.md R14). -/
def writesEp : Instr → Bool
  | .mulr _ _ _ | .mulf _ _ _ | .divr _ _ _ | .divf _ _ _ | .wrep _ => true
  | _ => false

/-- The three readers of `ep` (10_state.md R14). -/
def readsEp : Instr → Bool
  | .divr _ _ _ | .divf _ _ _ | .rdep _ => true
  | _ => false

/-- The five loads. -/
def isLoad : Instr → Bool
  | .ldwd _ _ _ | .ldhs _ _ _ | .ldhu _ _ _ | .ldbs _ _ _ | .ldbu _ _ _ => true
  | _ => false

/-- The three stores. -/
def isStore : Instr → Bool
  | .stwd _ _ _ | .sthw _ _ _ | .stsb _ _ _ => true
  | _ => false

/-- The six shifts by register value. -/
def isRegShift : Instr → Bool
  | .sllr _ _ _ | .slrf _ _ _ | .srlr _ _ _ | .srrf _ _ _ | .srar _ _ _ | .sras _ _ _ => true
  | _ => false

/-- The two divisions. -/
def isDivision : Instr → Bool
  | .divr _ _ _ | .divf _ _ _ => true
  | _ => false

/-- The eight control-flow instructions whose target can be misaligned (10_state.md R18). -/
def mayMisalign : Instr → Bool
  | .jmpr _ _ _ | .jalr _ _ _ | .brnr _ _ | .bror _ _ | .brcr _ _ | .brzr _ _ | .brne _ _ _ | .brgt _ _ _ => true
  | _ => false

/-- Change the next state an instruction answers. -/
def mapNext (f : State → State) : Result → Result
  | .next t => .next (f t)
  | .fault r => .fault r
  | .refused r => .refused r

end Sys2Proof.Claims

open Sys2Proof Sys2Proof.Machine Sys2Proof.Claims

/-! ## Encoding -/

/-- 30_encoding.md R51: the fields common to formats, under every order of the R-type fields. The other immediates stand
where the spec's decision D2 puts them, and `rb`, `imm5`, `op1` where its decision D1 does (log 7). -/
def Obligations.FieldsStandWhereTheFormatsPutThem : Prop :=
  ∀ (l : RLayout) (w : Word),
    (fieldsOf l w).op0.toNat = w.toNat / 2 ^ 26 ∧
    (fieldsOf l w).rt.toNat = w.toNat / 2 ^ 21 % 2 ^ 5 ∧
    (fieldsOf l w).ra.toNat = w.toNat / 2 ^ 16 % 2 ^ 5 ∧
    (fieldsOf l w).imm16.toNat = w.toNat % 2 ^ 16 ∧
    (fieldsOf l w).imm21.toNat = w.toNat % 2 ^ 21 ∧
    (fieldsOf l w).imm26.toNat = w.toNat % 2 ^ 26 ∧
    (fieldsOf .rbImm5Op1 w).rb.toNat = w.toNat / 2 ^ 11 % 2 ^ 5 ∧
    (fieldsOf .rbImm5Op1 w).imm5.toNat = w.toNat / 2 ^ 6 % 2 ^ 5 ∧
    (fieldsOf .rbImm5Op1 w).op1.toNat = w.toNat % 2 ^ 6

/-- 30_encoding.md section 8: the worked encodings, both ways, under the parameters of State.reset. The R-type words rest on
the spec's decision D1 (log 7). -/
def Obligations.WorkedEncodings : Prop :=
  ∀ p ∈ ([(.sllr 0 0 0, 0x00000000), (.addr 3 1 2, 0x00611014), (.slli 2 1 4, 0x00410106), (.orri 3 0 0x5678, 0x08605678),
      (.ldui 3 0x1234, 0x34601234), (.brne 1 0 (-8), 0x2C20FFF8), (.brzr 0 0x28, 0x28000028), (.jmpi 0, 0x14000000),
      (.jali 3, 0x18000003)] : List (Instr × Word)),
    encode defaultConfig p.1 = p.2 ∧ decodeTableWord 32 p.2.toNat = some p.1

/-- 30_encoding.md R61, by the spec's decision D4 (log 8): the encoder writes zero in every unused field, and what a nonzero
one does under each value of UNUSED_FIELD_MODE. The instruction is the one the opcode maps give for the word's fields. -/
def Obligations.UnusedFieldsAreRefusedOrIgnored : Prop :=
  (∀ (c : Config) (i : Instr), ∀ u ∈ unusedOf (fieldsOf c.rLayout (encode c i)) i, u = 0#5) ∧
  ∀ (c : Config) (w : Word) (i : Instr), decodeFields (fieldsOf c.rLayout w) = some i → wellFormed c i = true →
    (c.unusedFieldMode = .ignore → decode c w = .ok i) ∧
    (c.unusedFieldMode = .refuse → (∀ u ∈ unusedOf (fieldsOf c.rLayout w) i, u = 0#5) → decode c w = .ok i) ∧
    (c.unusedFieldMode = .refuse → (∃ u ∈ unusedOf (fieldsOf c.rLayout w) i, u ≠ 0#5) →
      decode c w = .error (.reservedField w))

/-- 30_encoding.md R60, by the spec's decision D5: exactly the unassigned opcodes are illegal, and a step that fetches one
from RAM stops so. -/
def Obligations.UnassignedOpcodesAreIllegal : Prop :=
  (∀ (c : Config) (w : Word),
    decode c w = .error (.illegalInstruction w) ↔
      ((fieldsOf c.rLayout w).op0 = 0x04#6 ∨ 0x16 ≤ (fieldsOf c.rLayout w).op0.toNat ∨
        ((fieldsOf c.rLayout w).op0 = 0x00#6 ∧ 0x20 ≤ (fieldsOf c.rLayout w).op1.toNat))) ∧
  (∀ (s : State) (w : Word), s.pc.toNat % 4 = 0 → InRam s s.pc 4 →
    w = BitVec.ofNat 32 (value4 fun k => s.mem.read (at_ s.pc k)) →
    decode s.config w = .error (.illegalInstruction w) → step s = .fault (.illegalInstruction w))

/-- Decoding the word of a well-formed instruction gives the instruction back, under every configuration. -/
def Obligations.DecodeOfEncode : Prop :=
  ∀ (c : Config) (i : Instr), wellFormed c i = true → decode c (encode c i) = .ok i

/-- Under UNUSED_FIELD_MODE = refuse a word that decodes is the word of the instruction it decodes to: no bit is dropped. -/
def Obligations.EncodeOfDecode : Prop :=
  ∀ (c : Config) (w : Word) (i : Instr), c.unusedFieldMode = .refuse → decode c w = .ok i → encode c i = w

/-- 30_encoding.md section 5: the all-zero word is `SLLR r0, r0, r0` under every configuration, and it only moves `pc`. -/
def Obligations.AllZeroWordIsNop : Prop :=
  (∀ c : Config, decode c 0x00000000#32 = .ok (.sllr 0#5 0#5 0#5) ∧ encode c nop = 0x00000000#32) ∧
  (∀ s : State, exec nop s = .next { s with pc := s.pc + 4#32 })

/-- The word the host places is the word the next step fetches and runs; nothing else changes but the four bytes, and
where the fetch needs it the low bits of `pc` and what stands behind those bytes. Rests on log 21. -/
def Obligations.PlacedWordRuns : Prop :=
  ∀ (s : State) (w : Word) (i : Instr), s.mem.wf = true → decode s.config w = .ok i →
    ∃ t, step (s.withFetchWord 32 w.toNat) = exec i t ∧
      t.gprs = s.gprs ∧ t.ep = s.ep ∧ t.flags = s.flags ∧ t.pc.toNat = s.pc.toNat / 4 * 4 ∧
      t.ioLog = s.ioLog ∧ t.draws = s.draws ∧ (InRam s t.pc 4 → t.config = s.config) ∧
      ∀ a, (∀ k < 4, a ≠ at_ t.pc k) → t.mem.read a = s.mem.read a

/-! ## Steps -/

/-- 30_encoding.md section 6: with an aligned `pc`, a step reads the word at `pc`, decodes it and runs it in the state the
read leaves; from RAM the word is the four bytes at `pc`, little-endian (the spec's decision D3, log 9), and the read
leaves the state as it was. -/
def Obligations.StepRunsTheDecodedInstruction : Prop :=
  (∀ (s : State) (i : Instr), s.pc.toNat % 4 = 0 → InRam s s.pc 4 →
    decode s.config (BitVec.ofNat 32 (value4 fun k => s.mem.read (at_ s.pc k))) = .ok i → step s = exec i s) ∧
  (∀ (s t : State) (w : Word) (i : Instr), s.pc.toNat % 4 = 0 → s.memRead s.pc 4 = .ok (w, t) →
    decode s.config w = .ok i → step s = exec i t)

/-- Fetching (30_encoding.md section 6 step 1; the spec's decision D14, log 17): a misaligned `pc` stops the step, or is
read with its low two bits cleared, by PC_ALIGN_MODE. -/
def Obligations.MisalignedPcStopsOrIsMasked : Prop :=
  (∀ s : State, s.pc.toNat % 4 ≠ 0 → s.config.pcAlignMode = .stop → step s = .fault (.misalignedFetch s.pc)) ∧
  (∀ s : State, s.pc.toNat % 4 ≠ 0 → s.config.pcAlignMode = .mask →
    step s = step { s with pc := BitVec.ofNat 32 (s.pc.toNat / 4 * 4) })

/-- 20_memory.md section 6, the spec's decision D20 (log 24): the next fetch sees a store made by the instruction before
it. -/
def Obligations.FetchSeesThePrecedingStore : Prop :=
  ∀ (s t : State) (rt ra : Reg) (imm16 : BitVec 16) (i : Instr), s.mem.wf = true → s.pc.toNat % 4 = 0 →
    eaOf s ra imm16 = s.pc + 4#32 → InRam s (s.pc + 4#32) 4 → exec (.stwd rt ra imm16) s = .next t →
    decode s.config (s.readReg rt) = .ok i → step t = exec i t

/-- Every step keeps the machine's invariant (Safety.lean): the canonical form of memory (log 3), RAM bytes only in it
(10_state.md R24), and a record of the environment that holds I/O bytes only, each byte read one draw (logs 18, 19). -/
def Obligations.StepKeepsTheInvariant : Prop :=
  ∀ s t : State, Safety.Inv s → step s = .next t → Safety.Inv t

/-- The invariant holds right after reset, with any admissible configuration and any image the host loads. -/
def Obligations.InvariantHoldsAtReset : Prop :=
  Safety.Inv State.reset ∧ ∀ (c : Config) (image : List (Word × Byte)), Safety.Inv (bootState c image)

/-- No step changes a parameter. -/
def Obligations.StepsKeepTheConfiguration : Prop :=
  ∀ s t : State, step s = .next t → t.config = s.config

/-- 20_memory.md section 6, the spec's decision D20: what the environment was asked and handed stays in order; one
instruction adds at most one event, besides its fetch (log 18). -/
def Obligations.EnvironmentSeesProgramOrder : Prop :=
  ∀ (s t : State) (i : Instr), exec i s = .next t →
    (∃ events, events.length ≤ 1 ∧ t.ioLog = s.ioLog ++ events) ∧ s.draws ≤ t.draws ∧
    (isLoad i = false → isStore i = false → t.ioLog = s.ioLog ∧ t.draws = s.draws)

/-- 10_state.md section 4: from an aligned `pc` only the eight control-flow instructions named there can leave a
misaligned one. -/
def Obligations.AlignmentIsLostOnlyByRegisterAndByteTargets : Prop :=
  ∀ (s t : State) (i : Instr), s.pc.toNat % 4 = 0 → mayMisalign i = false → exec i s = .next t → t.pc.toNat % 4 = 0

/-- 60_exceptions.md section 1: which stops an instruction's own meaning can meet, and on what. Each stop is the spec's
decision (D6, D11, D13, D17). -/
def Obligations.OnlyTheseStops : Prop :=
  (∀ (i : Instr) (s : State) (f : Fault), exec i s = .fault f →
    (∃ k, f = .shiftRange k ∧ 32 ≤ k ∧ isRegShift i = true ∧ s.config.shiftRegMode = .stop) ∨
    (∃ a b, f = .divideCorner s.ep a b ∧ isDivision i = true ∧ s.config.divCorner = .stop ∧ Corner s a b) ∨
    (∃ a, f = .unmappedAccess a ∧ s.region a = .unmapped ∧ (isLoad i || isStore i) = true)) ∧
  (∀ (i : Instr) (s : State) (r : Refusal), exec i s = .refused r →
    r = .reservedField (encode s.config i) ∧ i.jalrReadsLink = true ∧ s.config.jalrR31Mode = .refuse)

/-- Where no parameter has a value that stops and every address is mapped, every instruction completes in every state
(60_exceptions.md section 1: no other condition stops one). DIV_CORNER = free: log 5. -/
def Obligations.EveryInstructionCompletes : Prop :=
  ∀ (i : Instr) (s : State), s.config.shiftRegMode ≠ .stop → s.config.divCorner = .free → wellFormed s.config i = true →
    (∀ a, s.region a ≠ .unmapped) → ∃ t, exec i s = .next t

/-! ## State -/

/-- 10_state.md section 2: `r0` reads 0 and writes to it are ignored; by the spec's decision D25 (log 25) an instruction
whose target is `r0` still has all its other effects. -/
def Obligations.WritesToR0AreIgnored : Prop :=
  (∀ (s : State) (v : Word), s.readReg 0#5 = 0#32 ∧ s.writeReg 0#5 v = s) ∧
  (∀ (i j : Instr) (s t : State), withTargetR0 i = some j → exec i s = .next t →
    exec j s = .next { t with gprs := s.gprs })

/-- 10_state.md section 2: a general register changes only where it is the instruction's target, and `r31` besides in JALR
and JALI. -/
def Obligations.OnlyDestinationsChange : Prop :=
  ∀ (i : Instr) (s t : State) (r : Reg), exec i s = .next t → r ∉ destinations i → t.readReg r = s.readReg r

/-- 10_state.md section 3: who writes `ep`, and who reads it. -/
def Obligations.EpIsWrittenAndReadByTheNamedInstructions : Prop :=
  (∀ (i : Instr) (s t : State), writesEp i = false → exec i s = .next t → t.ep = s.ep) ∧
  (∀ (i : Instr) (s : State) (v : Word), readsEp i = false → writesEp i = false →
    exec i (s.setEp v) = mapNext (fun t => t.setEp v) (exec i s)) ∧
  (∀ (i : Instr) (s : State) (v : Word), readsEp i = false → writesEp i = true → exec i (s.setEp v) = exec i s)

/-- 10_state.md section 5: who writes the flags, and who reads them. That N and Z of a flag-setting instruction do not
depend on the old flags is its table's (the spec's decision D7, log 11). -/
def Obligations.FlagsAreWrittenAndReadByTheNamedInstructions : Prop :=
  (∀ (i : Instr) (s t : State), setsFlags i = false → exec i s = .next t → t.flags = s.flags) ∧
  (∀ (i : Instr) (s t : State) (f : Flags), setsFlags i = true → exec i s = .next t →
    ∃ u, exec i (s.setFlags f) = .next u ∧ u.flags.n = t.flags.n ∧ u.flags.z = t.flags.z) ∧
  (∀ (i : Instr) (s : State) (f : Flags), setsFlags i = false → (∀ g, flagRead i = some g → g f = g s.flags) →
    exec i (s.setFlags f) = mapNext (fun t => t.setFlags f) (exec i s))

/-- 10_state.md section 4: the sequential increment of every instruction that is no control-flow instruction, and of a
branch not taken. That it wraps modulo 2^32 is the spec's decision D15 (log 9). -/
def Obligations.SequentialPcAddsFour : Prop :=
  (∀ (i : Instr) (s t : State), isControlFlow i = false → exec i s = .next t →
    t.pc = BitVec.ofNat 32 (s.pc.toNat + 4)) ∧
  (∀ (i : Instr) (s : State) (g : Flags → Bool), flagRead i = some g → g s.flags = false →
    JumpsTo i s (BitVec.ofNat 32 (s.pc.toNat + 4))) ∧
  (∀ (s : State) (rt ra : Reg) (imm16 : BitVec 16), s.readReg rt = s.readReg ra →
    JumpsTo (.brne rt ra imm16) s (BitVec.ofNat 32 (s.pc.toNat + 4)) ∧
    JumpsTo (.brgt rt ra imm16) s (BitVec.ofNat 32 (s.pc.toNat + 4)))

/-- 10_state.md section 7: only stores change memory, only loads and fetches read it. -/
def Obligations.MemoryIsAccessedByLoadsStoresAndFetch : Prop :=
  (∀ (i : Instr) (s t : State), isStore i = false → exec i s = .next t → t.mem = s.mem) ∧
  (∀ (s t : State) (i : Instr), s.nextInstr = some i → isStore i = false → step s = .next t → t.mem = s.mem) ∧
  (∀ (i : Instr) (s : State) (m : Memory), isLoad i = false → isStore i = false →
    exec i { s with mem := m } = mapNext (fun t => { t with mem := m }) (exec i s))

/-- What a released reset leaves (10_state.md section 8, 70_reset_and_hazards.md section 2; the spec's decisions D18, D27):
`pc` is RESET_PC, `x[0]` is 0, RAM holds the host's image. That a byte the image names more than once is the last one given
for its address is the model's deduction (log 29, DEDUCED), no rule of the spec; that the state carries the parameters (log 4),
that the other registers, `ep` and the flags are 0 and that a byte not loaded reads 0x00 is the model's choice (logs 1 and 3). -/
def Obligations.ResetLeavesResetPcAndTheImage : Prop :=
  ∀ (c : Config) (image : List (Word × Byte)),
    (bootState c image).pc = c.resetPc ∧ (bootState c image).config = c ∧
    (∀ r, (bootState c image).readReg r = 0#32) ∧ (bootState c image).ep = 0#32 ∧
    (bootState c image).flags = ⟨false, false, false, false⟩ ∧
    (∀ (before after : List (Word × Byte)) (a : Word) (b : Byte), image = before ++ (a, b) :: after →
      (∀ cell ∈ after, cell.1 ≠ a) → regionAt c.memoryMap a = .ram → (bootState c image).mem.read a = b) ∧
    (∀ a : Word, (∀ cell ∈ image, cell.1 ≠ a) → (bootState c image).mem.read a = 0x00#8)

/-! ## Logical instructions -/

/-- 40_logical.md R73, R75, R77: SLLR, SRLR, SRAR. What an amount of 32 or more does is the spec's decision D6, stated for
each value of SHIFT_REG_MODE (log 10). -/
def Obligations.ShiftsByRegister : Prop :=
  EncodedR 0x00#6 (fun f => [f.imm5]) (fun f => .sllr f.rt f.ra f.rb) ∧
  EncodedR 0x02#6 (fun f => [f.imm5]) (fun f => .srlr f.rt f.ra f.rb) ∧
  EncodedR 0x04#6 (fun f => [f.imm5]) (fun f => .srar f.rt f.ra f.rb) ∧
  ∀ (s : State) (rt ra rb : Reg),
    (∀ k, amount s.config.shiftRegMode (s.readReg rb) = some k →
      WritesReg (.sllr rt ra rb) s rt (shifted (s.readReg ra) k).1 ∧
      WritesReg (.srlr rt ra rb) s rt (shifted (s.readReg ra) k).2.1 ∧
      WritesReg (.srar rt ra rb) s rt (shifted (s.readReg ra) k).2.2) ∧
    (amount s.config.shiftRegMode (s.readReg rb) = none →
      exec (.sllr rt ra rb) s = .fault (.shiftRange (s.readReg rb).toNat) ∧
      exec (.srlr rt ra rb) s = .fault (.shiftRange (s.readReg rb).toNat) ∧
      exec (.srar rt ra rb) s = .fault (.shiftRange (s.readReg rb).toNat))

/-- 40_logical.md R74, R76, R78: SLRF, SRRF, SRAS. Amounts as above (D6); the flags are the spec's decision D7 (log 11). -/
def Obligations.ShiftsByRegisterSettingFlags : Prop :=
  EncodedR 0x01#6 (fun f => [f.imm5]) (fun f => .slrf f.rt f.ra f.rb) ∧
  EncodedR 0x03#6 (fun f => [f.imm5]) (fun f => .srrf f.rt f.ra f.rb) ∧
  EncodedR 0x05#6 (fun f => [f.imm5]) (fun f => .sras f.rt f.ra f.rb) ∧
  ∀ (s : State) (rt ra rb : Reg),
    (∀ k, amount s.config.shiftRegMode (s.readReg rb) = some k →
      WritesRegAndNZ (.slrf rt ra rb) s rt (shifted (s.readReg ra) k).1 ∧
      WritesRegAndNZ (.srrf rt ra rb) s rt (shifted (s.readReg ra) k).2.1 ∧
      WritesRegAndNZ (.sras rt ra rb) s rt (shifted (s.readReg ra) k).2.2) ∧
    (amount s.config.shiftRegMode (s.readReg rb) = none →
      exec (.slrf rt ra rb) s = .fault (.shiftRange (s.readReg rb).toNat) ∧
      exec (.srrf rt ra rb) s = .fault (.shiftRange (s.readReg rb).toNat) ∧
      exec (.sras rt ra rb) s = .fault (.shiftRange (s.readReg rb).toNat))

/-- 40_logical.md R79, R81, R83: SLLI, SRLI, SRAI. -/
def Obligations.ShiftsByImmediate : Prop :=
  EncodedR 0x06#6 (fun f => [f.rb]) (fun f => .slli f.rt f.ra f.imm5) ∧
  EncodedR 0x08#6 (fun f => [f.rb]) (fun f => .srli f.rt f.ra f.imm5) ∧
  EncodedR 0x0a#6 (fun f => [f.rb]) (fun f => .srai f.rt f.ra f.imm5) ∧
  ∀ (s : State) (rt ra : Reg) (imm5 : BitVec 5),
    WritesReg (.slli rt ra imm5) s rt (shifted (s.readReg ra) imm5.toNat).1 ∧
    WritesReg (.srli rt ra imm5) s rt (shifted (s.readReg ra) imm5.toNat).2.1 ∧
    WritesReg (.srai rt ra imm5) s rt (shifted (s.readReg ra) imm5.toNat).2.2

/-- 40_logical.md R80, R82, R84: SLIF, SRIF, SRAJ. The flags are the spec's decision D7 (log 11). -/
def Obligations.ShiftsByImmediateSettingFlags : Prop :=
  EncodedR 0x07#6 (fun f => [f.rb]) (fun f => .slif f.rt f.ra f.imm5) ∧
  EncodedR 0x09#6 (fun f => [f.rb]) (fun f => .srif f.rt f.ra f.imm5) ∧
  EncodedR 0x0b#6 (fun f => [f.rb]) (fun f => .sraj f.rt f.ra f.imm5) ∧
  ∀ (s : State) (rt ra : Reg) (imm5 : BitVec 5),
    WritesRegAndNZ (.slif rt ra imm5) s rt (shifted (s.readReg ra) imm5.toNat).1 ∧
    WritesRegAndNZ (.srif rt ra imm5) s rt (shifted (s.readReg ra) imm5.toNat).2.1 ∧
    WritesRegAndNZ (.sraj rt ra imm5) s rt (shifted (s.readReg ra) imm5.toNat).2.2

/-- 40_logical.md R85, R87, R89, R91: ANDR, ORRR, NOTR, XORR, bit by bit. -/
def Obligations.LogicalOnRegisters : Prop :=
  EncodedR 0x0c#6 (fun f => [f.imm5]) (fun f => .andr f.rt f.ra f.rb) ∧
  EncodedR 0x0e#6 (fun f => [f.imm5]) (fun f => .orrr f.rt f.ra f.rb) ∧
  EncodedR 0x10#6 (fun f => [f.rb, f.imm5]) (fun f => .notr f.rt f.ra) ∧
  EncodedR 0x12#6 (fun f => [f.imm5]) (fun f => .xorr f.rt f.ra f.rb) ∧
  ∀ (s : State) (rt ra rb : Reg) (v : Word),
    ((∀ n < 32, v.getLsbD n = ((s.readReg ra).getLsbD n && (s.readReg rb).getLsbD n)) →
      WritesReg (.andr rt ra rb) s rt v) ∧
    ((∀ n < 32, v.getLsbD n = ((s.readReg ra).getLsbD n || (s.readReg rb).getLsbD n)) →
      WritesReg (.orrr rt ra rb) s rt v) ∧
    ((∀ n < 32, v.getLsbD n = !(s.readReg ra).getLsbD n) → WritesReg (.notr rt ra) s rt v) ∧
    ((∀ n < 32, v.getLsbD n = ((s.readReg ra).getLsbD n ^^ (s.readReg rb).getLsbD n)) →
      WritesReg (.xorr rt ra rb) s rt v)

/-- 40_logical.md R86, R88, R90, R92: ADRF, ORRF, NOTF, XORF. The flags are the spec's decision D7 (log 11). -/
def Obligations.LogicalOnRegistersSettingFlags : Prop :=
  EncodedR 0x0d#6 (fun f => [f.imm5]) (fun f => .adrf f.rt f.ra f.rb) ∧
  EncodedR 0x0f#6 (fun f => [f.imm5]) (fun f => .orrf f.rt f.ra f.rb) ∧
  EncodedR 0x11#6 (fun f => [f.rb, f.imm5]) (fun f => .notf f.rt f.ra) ∧
  EncodedR 0x13#6 (fun f => [f.imm5]) (fun f => .xorf f.rt f.ra f.rb) ∧
  ∀ (s : State) (rt ra rb : Reg) (v : Word),
    ((∀ n < 32, v.getLsbD n = ((s.readReg ra).getLsbD n && (s.readReg rb).getLsbD n)) →
      WritesRegAndNZ (.adrf rt ra rb) s rt v) ∧
    ((∀ n < 32, v.getLsbD n = ((s.readReg ra).getLsbD n || (s.readReg rb).getLsbD n)) →
      WritesRegAndNZ (.orrf rt ra rb) s rt v) ∧
    ((∀ n < 32, v.getLsbD n = !(s.readReg ra).getLsbD n) → WritesRegAndNZ (.notf rt ra) s rt v) ∧
    ((∀ n < 32, v.getLsbD n = ((s.readReg ra).getLsbD n ^^ (s.readReg rb).getLsbD n)) →
      WritesRegAndNZ (.xorf rt ra rb) s rt v)

/-- 40_logical.md R93, R94, R95: ANDI, ORRI, XORI with a zero-extended immediate. The flags are the spec's decision D7
(log 11). -/
def Obligations.LogicalWithImmediate : Prop :=
  Encoded 0x01#6 (fun _ => []) (fun f => .andi f.rt f.ra f.imm16) ∧
  Encoded 0x02#6 (fun _ => []) (fun f => .orri f.rt f.ra f.imm16) ∧
  Encoded 0x03#6 (fun _ => []) (fun f => .xori f.rt f.ra f.imm16) ∧
  ∀ (s : State) (rt ra : Reg) (imm16 : BitVec 16) (v : Word),
    ((∀ n < 32, v.getLsbD n = ((s.readReg ra).getLsbD n && (decide (n < 16) && imm16.getLsbD n))) →
      WritesRegAndNZ (.andi rt ra imm16) s rt v) ∧
    ((∀ n < 32, v.getLsbD n = ((s.readReg ra).getLsbD n || (decide (n < 16) && imm16.getLsbD n))) →
      WritesRegAndNZ (.orri rt ra imm16) s rt v) ∧
    ((∀ n < 32, v.getLsbD n = ((s.readReg ra).getLsbD n ^^ (decide (n < 16) && imm16.getLsbD n))) →
      WritesRegAndNZ (.xori rt ra imm16) s rt v)

/-! ## Arithmetic instructions -/

/-- 41_arithmetic.md R104, R106: ADDR and SUBR wrap and set no flag. -/
def Obligations.AddAndSubtract : Prop :=
  EncodedR 0x14#6 (fun f => [f.imm5]) (fun f => .addr f.rt f.ra f.rb) ∧
  EncodedR 0x16#6 (fun f => [f.imm5]) (fun f => .subr f.rt f.ra f.rb) ∧
  ∀ (s : State) (rt ra rb : Reg),
    WritesReg (.addr rt ra rb) s rt (BitVec.ofNat 32 ((s.readReg ra).toNat + (s.readReg rb).toNat)) ∧
    WritesReg (.subr rt ra rb) s rt (BitVec.ofInt 32 ((s.readReg ra).toNat - (s.readReg rb).toNat))

/-- 41_arithmetic.md R105: ADDF. The flags are the spec's decision D7 (log 11); O is also stated as a signed sum out of
range, which is what its condition on the signs comes to. -/
def Obligations.AddSettingFlags : Prop :=
  EncodedR 0x15#6 (fun f => [f.imm5]) (fun f => .addf f.rt f.ra f.rb) ∧
  ∀ (s : State) (rt ra rb : Reg) (a b res : Word), a = s.readReg ra → b = s.readReg rb →
    res = BitVec.ofNat 32 (a.toNat + b.toNat) →
    WritesWithFlags (.addf rt ra rb) s rt res s.ep (fun f =>
      FlagsAre s.config (2 ^ 31 ≤ res.toNat) (res.toNat = 0) (2 ^ 32 ≤ a.toNat + b.toNat)
        ((a.msb = b.msb ∧ res.msb ≠ a.msb)) f ∧
      (s.config.flagsMode = .table →
        (f.o = true ↔ (a.toInt + b.toInt < -2 ^ 31 ∨ 2 ^ 31 ≤ a.toInt + b.toInt))))

/-- 41_arithmetic.md R107: SUBF, with both values of SUB_CARRY. The flags are the spec's decisions D7 and D8 (logs 11, 12). -/
def Obligations.SubtractSettingFlags : Prop :=
  EncodedR 0x17#6 (fun f => [f.imm5]) (fun f => .subf f.rt f.ra f.rb) ∧
  ∀ (s : State) (rt ra rb : Reg) (a b res : Word), a = s.readReg ra → b = s.readReg rb →
    res = BitVec.ofInt 32 (a.toNat - b.toNat) →
    WritesWithFlags (.subf rt ra rb) s rt res s.ep (fun f =>
      FlagsAre s.config (2 ^ 31 ≤ res.toNat) (res.toNat = 0)
        (if s.config.subCarry = .borrow then a.toNat < b.toNat else b.toNat ≤ a.toNat)
        (a.msb ≠ b.msb ∧ res.msb ≠ a.msb) f ∧
      (s.config.flagsMode = .table →
        (f.o = true ↔ (a.toInt - b.toInt < -2 ^ 31 ∨ 2 ^ 31 ≤ a.toInt - b.toInt))))

/-- 41_arithmetic.md R108, R109: MULR and MULF: the 64-bit product, its lower word to `x[rt]`, its upper word to `ep`. The
signedness is the spec's decision D9, stated for both values of MUL_SIGNED (log 13); MULF's flags are D7 (log 11). -/
def Obligations.Multiply : Prop :=
  EncodedR 0x18#6 (fun f => [f.imm5]) (fun f => .mulr f.rt f.ra f.rb) ∧
  EncodedR 0x19#6 (fun f => [f.imm5]) (fun f => .mulf f.rt f.ra f.rb) ∧
  ∀ (s : State) (rt ra rb : Reg) (p : Int), p = productOf s.config.mulSigned (s.readReg ra) (s.readReg rb) →
    WritesWithFlags (.mulr rt ra rb) s rt (BitVec.ofInt 32 p) (BitVec.ofInt 32 (p / 2 ^ 32)) (fun f => f = s.flags) ∧
    WritesWithFlags (.mulf rt ra rb) s rt (BitVec.ofInt 32 p) (BitVec.ofInt 32 (p / 2 ^ 32))
      (FlagsAre s.config (2 ^ 63 ≤ p % 2 ^ 64) (p = 0) (s.flags.c = true) (s.flags.o = true))

/-- 41_arithmetic.md R110, R111: DIVR and DIVF where the quotient fits: quotient to `x[rt]`, remainder to `ep`, both from the
values before the instruction, whatever register `rt` is. The signedness and rounding are the spec's decision D10, stated
for both values of DIV_SIGNED (log 14); DIVF's flags are D7 (log 11). -/
def Obligations.Divide : Prop :=
  EncodedR 0x1a#6 (fun f => [f.imm5]) (fun f => .divr f.rt f.ra f.rb) ∧
  EncodedR 0x1b#6 (fun f => [f.imm5]) (fun f => .divf f.rt f.ra f.rb) ∧
  ∀ (s : State) (rt ra rb : Reg) (q r : Int),
    DividesTo (dividendOf s.config.divSigned s.ep (s.readReg ra)) (divisorOf s.config.divSigned (s.readReg rb)) q r →
    Fits s.config.divSigned q →
    WritesWithFlags (.divr rt ra rb) s rt (BitVec.ofInt 32 q) (BitVec.ofInt 32 r) (fun f => f = s.flags) ∧
    WritesWithFlags (.divf rt ra rb) s rt (BitVec.ofInt 32 q) (BitVec.ofInt 32 r)
      (FlagsAre s.config (2 ^ 31 ≤ (BitVec.ofInt 32 q).toNat) (q = 0) (s.flags.c = true) (s.flags.o = true))

/-- 41_arithmetic.md section 1, the spec's decision D11 (log 5): division by zero and a quotient that does not fit stop under
DIV_CORNER = stop; otherwise the instruction completes with the answer of a function of the three inputs, of which nothing
is known. The statement holds for every value of that answer. -/
def Obligations.DivisionCorners : Prop :=
  ∀ (s : State) (rt ra rb : Reg), Corner s (s.readReg ra) (s.readReg rb) →
    (s.config.divCorner = .stop →
      exec (.divr rt ra rb) s = .fault (.divideCorner s.ep (s.readReg ra) (s.readReg rb)) ∧
      exec (.divf rt ra rb) s = .fault (.divideCorner s.ep (s.readReg ra) (s.readReg rb))) ∧
    (s.config.divCorner = .free → ∀ answer, answer = Config.divideAnswer s.ep (s.readReg ra) (s.readReg rb) →
      WritesWithFlags (.divr rt ra rb) s rt answer.quotient answer.remainder (fun f => f = s.flags) ∧
      WritesWithFlags (.divf rt ra rb) s rt answer.quotient answer.remainder (fun f => f = answer.flags))

/-- 41_arithmetic.md R112, R113: RDEP and WREP. -/
def Obligations.ReadAndWriteEp : Prop :=
  EncodedR 0x1c#6 (fun f => [f.ra, f.rb, f.imm5]) (fun f => .rdep f.rt) ∧
  EncodedR 0x1d#6 (fun f => [f.rt, f.rb, f.imm5]) (fun f => .wrep f.ra) ∧
  (∀ (s : State) (rt : Reg), WritesReg (.rdep rt) s rt s.ep) ∧
  (∀ (s : State) (ra : Reg), ∃ t, exec (.wrep ra) s = .next t ∧
    Next s t s.readReg (s.readReg ra) (s.pc + 4#32) s.flags) ∧
  (∀ (s t : State) (rt ra : Reg), exec (.wrep ra) s = .next t → WritesReg (.rdep rt) t rt (s.readReg ra))

/-! ## Control flow -/

/-- 42_control_flow.md R122: JMPR, absolute and modulo 2^32. What the next fetch does with a misaligned target is stated in
MisalignedPcStopsOrIsMasked. -/
def Obligations.JumpThroughRegisters : Prop :=
  EncodedR 0x1e#6 (fun f => [f.rt]) (fun f => .jmpr f.ra f.rb f.imm5) ∧
  ∀ (s : State) (ra rb : Reg) (imm5 : BitVec 5),
    JumpsTo (.jmpr ra rb imm5) s
      (BitVec.ofNat 32 ((s.readReg ra).toNat + (s.readReg rb).toNat * 2 ^ imm5.toNat))

/-- 42_control_flow.md R123: JALR. What it reads when it names `r31` is the spec's decision D13, stated for the three values
of JALR_R31_MODE (log 16). -/
def Obligations.JumpAndLinkThroughRegisters : Prop :=
  (∀ (c : Config) (w : Word), (fieldsOf c.rLayout w).op0 = 0x00#6 → (fieldsOf c.rLayout w).op1 = 0x1f#6 →
    (fieldsOf c.rLayout w).rt = 0#5 →
    decode c w =
      if c.jalrR31Mode = .refuse ∧ ((fieldsOf c.rLayout w).ra = 31#5 ∨ (fieldsOf c.rLayout w).rb = 31#5) then
        .error (.reservedField w)
      else .ok (.jalr (fieldsOf c.rLayout w).ra (fieldsOf c.rLayout w).rb (fieldsOf c.rLayout w).imm5)) ∧
  ∀ (s : State) (ra rb : Reg) (imm5 : BitVec 5) (x : Reg → Word),
    x = (if s.config.jalrR31Mode = .new then regsAfter s 31#5 (s.pc + 4#32) else s.readReg) →
    (s.config.jalrR31Mode ≠ .refuse ∨ (ra ≠ 31#5 ∧ rb ≠ 31#5) →
      LinksAndJumpsTo (.jalr ra rb imm5) s (BitVec.ofNat 32 ((x ra).toNat + (x rb).toNat * 2 ^ imm5.toNat))) ∧
    (s.config.jalrR31Mode = .refuse → ra = 31#5 ∨ rb = 31#5 →
      exec (.jalr ra rb imm5) s = .refused (.reservedField (encode s.config (.jalr ra rb imm5))))

/-- 42_control_flow.md R124, R125: JMPI and JALI, relative to their own address, in words; the target is aligned whenever
`pc` is. -/
def Obligations.JumpWithImmediate : Prop :=
  Encoded 0x05#6 (fun _ => []) (fun f => .jmpi f.imm26) ∧
  Encoded 0x06#6 (fun _ => []) (fun f => .jali f.imm26) ∧
  ∀ (s : State) (imm26 : BitVec 26),
    JumpsTo (.jmpi imm26) s (BitVec.ofInt 32 (s.pc.toNat + imm26.toInt * 4)) ∧
    LinksAndJumpsTo (.jali imm26) s (BitVec.ofInt 32 (s.pc.toNat + imm26.toInt * 4)) ∧
    (s.pc.toNat % 4 = 0 → (BitVec.ofInt 32 (s.pc.toNat + imm26.toInt * 4)).toNat % 4 = 0)

/-- 42_control_flow.md R126 to R129: BRNR, BROR, BRCR, BRZR to an absolute address when the flag is set. -/
def Obligations.BranchOnFlag : Prop :=
  Encoded 0x07#6 (fun _ => []) (fun f => .brnr f.rt f.imm21) ∧
  Encoded 0x08#6 (fun _ => []) (fun f => .bror f.rt f.imm21) ∧
  Encoded 0x09#6 (fun _ => []) (fun f => .brcr f.rt f.imm21) ∧
  Encoded 0x0a#6 (fun _ => []) (fun f => .brzr f.rt f.imm21) ∧
  ∀ (s : State) (rt : Reg) (imm21 : BitVec 21) (target next : Word),
    target = BitVec.ofInt 32 ((s.readReg rt).toNat + imm21.toInt) → next = BitVec.ofNat 32 (s.pc.toNat + 4) →
    JumpsTo (.brnr rt imm21) s (if s.flags.n = true then target else next) ∧
    JumpsTo (.bror rt imm21) s (if s.flags.o = true then target else next) ∧
    JumpsTo (.brcr rt imm21) s (if s.flags.c = true then target else next) ∧
    JumpsTo (.brzr rt imm21) s (if s.flags.z = true then target else next)

/-- 42_control_flow.md R130: BRNE, relative to its own address, in bytes. -/
def Obligations.BranchIfNotEqual : Prop :=
  Encoded 0x0b#6 (fun _ => []) (fun f => .brne f.rt f.ra f.imm16) ∧
  ∀ (s : State) (rt ra : Reg) (imm16 : BitVec 16),
    JumpsTo (.brne rt ra imm16) s
      (if s.readReg rt ≠ s.readReg ra then BitVec.ofInt 32 (s.pc.toNat + imm16.toInt)
        else BitVec.ofNat 32 (s.pc.toNat + 4))

/-- 42_control_flow.md R131: BRGT. The signedness is the spec's decision D12, stated for both values of BRGT_SIGNED
(log 15). -/
def Obligations.BranchIfGreater : Prop :=
  Encoded 0x0c#6 (fun _ => []) (fun f => .brgt f.rt f.ra f.imm16) ∧
  ∀ (s : State) (rt ra : Reg) (imm16 : BitVec 16),
    JumpsTo (.brgt rt ra imm16) s
      (if (if s.config.brgtSigned then (s.readReg ra).toInt < (s.readReg rt).toInt
            else ((s.readReg ra).toNat : Int) < (s.readReg rt).toNat)
        then BitVec.ofInt 32 (s.pc.toNat + imm16.toInt) else BitVec.ofNat 32 (s.pc.toNat + 4))

/-- 42_control_flow.md R132: the return `JMPR r31, r0, 0` goes back to the instruction after the call, from any state in
which `r31` still holds what the call put there. -/
def Obligations.ReturnGoesBehindTheCall : Prop :=
  ∀ (s t u : State) (i : Instr), ((∃ imm26, i = .jali imm26) ∨ ∃ ra rb imm5, i = .jalr ra rb imm5) →
    exec i s = .next t → u.readReg 31#5 = t.readReg 31#5 →
    JumpsTo (.jmpr 31#5 0#5 0#5) u (BitVec.ofNat 32 (s.pc.toNat + 4))

/-! ## Loads and stores -/

/-- 43_load_store.md R142: LDUI sets bits 31:16 and keeps bits 15:0. -/
def Obligations.LoadUpperImmediate : Prop :=
  Encoded 0x0d#6 (fun f => [f.ra]) (fun f => .ldui f.rt f.imm16) ∧
  ∀ (s : State) (rt : Reg) (imm16 : BitVec 16),
    WritesReg (.ldui rt imm16) s rt (BitVec.ofNat 32 (imm16.toNat * 2 ^ 16 + (s.readReg rt).toNat % 2 ^ 16))

/-- 43_load_store.md R143 to R147: the five loads from RAM, at any alignment, the address from the register's old value. The
byte order is the spec's decision D3, the wrap of addresses D15 (log 9). -/
def Obligations.LoadsFromRam : Prop :=
  Encoded 0x0e#6 (fun _ => []) (fun f => .ldwd f.rt f.ra f.imm16) ∧
  Encoded 0x0f#6 (fun _ => []) (fun f => .ldhs f.rt f.ra f.imm16) ∧
  Encoded 0x10#6 (fun _ => []) (fun f => .ldhu f.rt f.ra f.imm16) ∧
  Encoded 0x11#6 (fun _ => []) (fun f => .ldbs f.rt f.ra f.imm16) ∧
  Encoded 0x12#6 (fun _ => []) (fun f => .ldbu f.rt f.ra f.imm16) ∧
  ∀ (s : State) (rt ra : Reg) (imm16 : BitVec 16), ∀ p ∈ loads rt ra imm16, InRam s (eaOf s ra imm16) p.2.1 →
    WritesReg p.1 s rt (p.2.2 fun k => s.mem.read (at_ (eaOf s ra imm16) k))

/-- 20_memory.md section 4, 43_load_store.md section 1: a load that touches an I/O region asks the environment for exactly
its I/O bytes, in one event, and makes its value of them and of the RAM bytes; it does so also when `rt` is `r0`. That
reads are draws is the spec's decision D17; the record is the model's (logs 18, 19), and the bytes drawn are free. -/
def Obligations.LoadsFromIo : Prop :=
  ∀ (s : State) (rt ra : Reg) (imm16 : BitVec 16), ∀ p ∈ loads rt ra imm16, Mapped s (eaOf s ra imm16) p.2.1 →
    ¬ InRam s (eaOf s ra imm16) p.2.1 →
    ∃ (t : State) (B : Nat → Byte), exec p.1 s = .next t ∧
      (∀ k < p.2.1, s.region (at_ (eaOf s ra imm16) k) = .ram → B k = s.mem.read (at_ (eaOf s ra imm16) k)) ∧
      (∀ r, t.readReg r = regsAfter s rt (p.2.2 B) r) ∧
      t.ioLog = s.ioLog ++ [.read (ioCells s (eaOf s ra imm16) p.2.1 B)] ∧
      t.draws = s.draws + (ioCells s (eaOf s ra imm16) p.2.1 B).length ∧
      t.pc = s.pc + 4#32 ∧ t.ep = s.ep ∧ t.flags = s.flags ∧ t.mem = s.mem ∧ t.config = s.config

/-- 43_load_store.md R148 to R150: the three stores: each RAM byte of the access becomes its byte of `x[rt]`, every other
byte of memory stays, the I/O bytes go to the environment in one event (the spec's decision D17, log 18); no register
changes. The byte order is D3, the wrap of addresses D15 (log 9). -/
def Obligations.Stores : Prop :=
  Encoded 0x13#6 (fun _ => []) (fun f => .stwd f.rt f.ra f.imm16) ∧
  Encoded 0x14#6 (fun _ => []) (fun f => .sthw f.rt f.ra f.imm16) ∧
  Encoded 0x15#6 (fun _ => []) (fun f => .stsb f.rt f.ra f.imm16) ∧
  ∀ (s : State) (rt ra : Reg) (imm16 : BitVec 16), s.mem.wf = true → ∀ p ∈ stores rt ra imm16,
    Mapped s (eaOf s ra imm16) p.2 →
    ∃ t, exec p.1 s = .next t ∧
      (∀ k < p.2, s.region (at_ (eaOf s ra imm16) k) = .ram →
        t.mem.read (at_ (eaOf s ra imm16) k) = byteAt (s.readReg rt) k) ∧
      (∀ a, ((∀ k < p.2, a ≠ at_ (eaOf s ra imm16) k) ∨ s.region a ≠ .ram) → t.mem.read a = s.mem.read a) ∧
      t.ioLog = s.ioLog ++
        (if ioCells s (eaOf s ra imm16) p.2 (byteAt (s.readReg rt)) = [] then []
          else [.write (ioCells s (eaOf s ra imm16) p.2 (byteAt (s.readReg rt)))]) ∧
      (∀ r, t.readReg r = s.readReg r) ∧ t.ep = s.ep ∧ t.flags = s.flags ∧ t.pc = s.pc + 4#32 ∧
      t.config = s.config ∧ t.draws = s.draws

/-- 20_memory.md section 4, the spec's decision D17: an access with an unmapped byte stops with the first such byte's
address, in a load, a store and a fetch. -/
def Obligations.UnmappedAccessStops : Prop :=
  (∀ (s : State) (rt ra : Reg) (imm16 : BitVec 16) (i : Instr) (n k : Nat),
    (i, n) ∈ (loads rt ra imm16).map (fun p => (p.1, p.2.1)) ++ stores rt ra imm16 → k < n →
    Mapped s (eaOf s ra imm16) k → s.region (at_ (eaOf s ra imm16) k) = .unmapped →
    exec i s = .fault (.unmappedAccess (at_ (eaOf s ra imm16) k))) ∧
  (∀ (s : State) (k : Nat), s.pc.toNat % 4 = 0 → k < 4 → Mapped s s.pc k → s.region (at_ s.pc k) = .unmapped →
    step s = .fault (.unmappedAccess (at_ s.pc k)))

/-- 20_memory.md section 2: reads of every width after a word was written, as the spec derives them (D3, log 9). -/
def Obligations.MixedWidthsAgree : Prop :=
  ∀ (s t : State) (a : Word), s.mem.wf = true → InRam s a 5 → s.memWrite a 4 0xA5C380F1#32 = .ok t →
    t.memRead a 1 = .ok (0xF1#32, t) ∧ t.memRead (a + 1#32) 1 = .ok (0x80#32, t) ∧
    t.memRead a 2 = .ok (0x80F1#32, t) ∧ t.memRead (a + 2#32) 2 = .ok (0xA5C3#32, t) ∧
    t.memRead (a + 1#32) 4 =
      .ok (BitVec.ofNat 32 (0xA5C380 + 2 ^ 24 * (s.mem.read (a + 4#32)).toNat), t)

/-- 20_memory.md section 3: a load or store completes at every address, aligned or not, exactly when every byte is mapped
(the spec's decision D17). -/
def Obligations.DataAccessNeedsNoAlignment : Prop :=
  ∀ (s : State) (rt ra : Reg) (imm16 : BitVec 16) (i : Instr) (n : Nat),
    (i, n) ∈ (loads rt ra imm16).map (fun p => (p.1, p.2.1)) ++ stores rt ra imm16 →
    ((∃ t, exec i s = .next t) ↔ Mapped s (eaOf s ra imm16) n)

/-- 20_memory.md section 6, the spec's decision D20: a load of RAM returns the latest store to it. -/
def Obligations.LoadReturnsTheLatestStore : Prop :=
  ∀ (s t : State) (rt ra rd : Reg) (imm16 : BitVec 16), s.mem.wf = true → InRam s (eaOf s ra imm16) 4 →
    exec (.stwd rt ra imm16) s = .next t → WritesReg (.ldwd rd ra imm16) t rd (s.readReg rt)

/-! ## Idioms, runs, the assembler -/

/-- 30_encoding.md section 7: ORRI then LDUI loads a 32-bit constant and sets the flags of its low half (D7, log 11); ORRR
with `r0` copies. -/
def Obligations.ConstantAndCopyIdioms : Prop :=
  (∀ (s : State) (rt : Reg) (k : Word) (i j : Instr), loadConstant rt k = [i, j] →
    ∃ t u, exec i s = .next t ∧ exec j t = .next u ∧
      Next s u (regsAfter s rt k) s.ep (s.pc + 8#32) u.flags ∧
      FlagsAre s.config False (k.toNat % 2 ^ 16 = 0) (s.flags.c = true) (s.flags.o = true) u.flags) ∧
  (∀ (s : State) (rt ra : Reg), WritesReg (copyRegister rt ra) s rt (s.readReg ra))

/-- 70_reset_and_hazards.md section 3, the spec's decision D19 (log 20): at `JMPI 0` in RAM a run is over, and a step there
leaves every part of the state. -/
def Obligations.SelfJumpEndsTheRun : Prop :=
  (∀ s : State, s.pc.toNat % 4 = 0 → InRam s s.pc 4 →
    BitVec.ofNat 32 (value4 fun k => s.mem.read (at_ s.pc k)) = 0x14000000#32 →
    atSelfJump s = true ∧ step s = .next s) ∧
  (∀ s : State, atSelfJump s = true → step s = .next s ∧ ∀ k, runUntil atSelfJump k s = .next s)

/-- 30_encoding.md section 7, the spec's decision D23: the operands the assembler writes for an instruction assemble to that
instruction. Which values an immediate operand may have is DEDUCED (log 22). -/
def Obligations.AssemblerReadsWhatItWrites : Prop :=
  ∀ i : Instr, assemble (mnemonicOf i) (operandsOf i) = some i
end

