-- ==== Sys2Proof/Laws/Decode.lean ====
section
/-!
SUPPORT. The fields of an encoded word are the fields it was encoded from (30_encoding.md R51 to R55).
-/

namespace Sys2Proof

/-! ## Fields of a concatenation -/

/-- A field above the lower part is a field of the upper part. -/
theorem extract_append_high {m n : Nat} (x : BitVec m) (y : BitVec n) {lo len : Nat} (h : n ≤ lo) :
    (x ++ y).extractLsb' lo len = x.extractLsb' (lo - n) len := by
  ext i hi
  have : ¬ lo + i < n := by omega
  simp [BitVec.getLsbD_append, this, show lo + i - n = lo - n + i by omega]

/-- A field of the upper part, at its place above the lower part. -/
theorem extract_append_shift {m n : Nat} (x : BitVec m) (y : BitVec n) (lo len : Nat) :
    (x ++ y).extractLsb' (lo + n) len = x.extractLsb' lo len := by
  rw [extract_append_high _ _ (Nat.le_add_left ..), Nat.add_sub_cancel]

/-- The lower part is the lowest field. -/
theorem extract_append_low {m n : Nat} (x : BitVec m) (y : BitVec n) : (x ++ y).extractLsb' 0 n = y := by
  ext i hi
  simp [BitVec.getLsbD_append, hi]

/-- The upper part is the field above the lower part. -/
theorem extract_append_top {m n : Nat} (x : BitVec m) (y : BitVec n) : (x ++ y).extractLsb' (0 + n) m = x := by
  rw [extract_append_shift]
  ext i hi
  simp

section Six

variable {n1 n2 n3 n4 n5 n6 : Nat} (a : BitVec n1) (b : BitVec n2) (c : BitVec n3) (d : BitVec n4) (e : BitVec n5)
  (f : BitVec n6)

theorem field_first : (a ++ b ++ c ++ d ++ e ++ f).extractLsb' (0 + n2 + n3 + n4 + n5 + n6) n1 = a := by
  rw [extract_append_shift, extract_append_shift, extract_append_shift, extract_append_shift, extract_append_top]

theorem field_second : (a ++ b ++ c ++ d ++ e ++ f).extractLsb' (0 + n3 + n4 + n5 + n6) n2 = b := by
  rw [extract_append_shift, extract_append_shift, extract_append_shift, extract_append_shift, extract_append_low]

theorem field_third : (a ++ b ++ c ++ d ++ e ++ f).extractLsb' (0 + n4 + n5 + n6) n3 = c := by
  rw [extract_append_shift, extract_append_shift, extract_append_shift, extract_append_low]

theorem field_fourth : (a ++ b ++ c ++ d ++ e ++ f).extractLsb' (0 + n5 + n6) n4 = d := by
  rw [extract_append_shift, extract_append_shift, extract_append_low]

theorem field_fifth : (a ++ b ++ c ++ d ++ e ++ f).extractLsb' (0 + n6) n5 = e := by
  rw [extract_append_shift, extract_append_low]

theorem field_sixth : (a ++ b ++ c ++ d ++ e ++ f).extractLsb' 0 n6 = f :=
  extract_append_low _ _

end Six

/-- Fields are equal when each field is. -/
theorem fields_ext {f g : Fields} (h1 : f.op0 = g.op0) (h2 : f.rt = g.rt) (h3 : f.ra = g.ra) (h4 : f.rb = g.rb)
    (h5 : f.imm5 = g.imm5) (h6 : f.op1 = g.op1) (h7 : f.imm16 = g.imm16) (h8 : f.imm21 = g.imm21)
    (h9 : f.imm26 = g.imm26) : f = g := by
  cases f; cases g; simp_all

/-! ## R-type -/

section RType

variable (l : RLayout) (op1 : BitVec 6) (rt ra rb : Reg) (imm5 : BitVec 5)

@[simp] theorem encodeR_op0 : (fieldsOf l (encodeR l op1 rt ra rb imm5)).op0 = 0#6 := by
  cases l
  · exact field_first 0x00#6 rt ra rb imm5 op1
  · exact field_first 0x00#6 rt ra rb op1 imm5
  · exact field_first 0x00#6 rt ra imm5 rb op1
  · exact field_first 0x00#6 rt ra imm5 op1 rb
  · exact field_first 0x00#6 rt ra op1 rb imm5
  · exact field_first 0x00#6 rt ra op1 imm5 rb

@[simp] theorem encodeR_rt : (fieldsOf l (encodeR l op1 rt ra rb imm5)).rt = rt := by
  cases l
  · exact field_second 0x00#6 rt ra rb imm5 op1
  · exact field_second 0x00#6 rt ra rb op1 imm5
  · exact field_second 0x00#6 rt ra imm5 rb op1
  · exact field_second 0x00#6 rt ra imm5 op1 rb
  · exact field_second 0x00#6 rt ra op1 rb imm5
  · exact field_second 0x00#6 rt ra op1 imm5 rb

@[simp] theorem encodeR_ra : (fieldsOf l (encodeR l op1 rt ra rb imm5)).ra = ra := by
  cases l
  · exact field_third 0x00#6 rt ra rb imm5 op1
  · exact field_third 0x00#6 rt ra rb op1 imm5
  · exact field_third 0x00#6 rt ra imm5 rb op1
  · exact field_third 0x00#6 rt ra imm5 op1 rb
  · exact field_third 0x00#6 rt ra op1 rb imm5
  · exact field_third 0x00#6 rt ra op1 imm5 rb

@[simp] theorem encodeR_rb : (fieldsOf l (encodeR l op1 rt ra rb imm5)).rb = rb := by
  cases l
  · exact field_fourth 0x00#6 rt ra rb imm5 op1
  · exact field_fourth 0x00#6 rt ra rb op1 imm5
  · exact field_fifth 0x00#6 rt ra imm5 rb op1
  · exact field_sixth 0x00#6 rt ra imm5 op1 rb
  · exact field_fifth 0x00#6 rt ra op1 rb imm5
  · exact field_sixth 0x00#6 rt ra op1 imm5 rb

@[simp] theorem encodeR_imm5 : (fieldsOf l (encodeR l op1 rt ra rb imm5)).imm5 = imm5 := by
  cases l
  · exact field_fifth 0x00#6 rt ra rb imm5 op1
  · exact field_sixth 0x00#6 rt ra rb op1 imm5
  · exact field_fourth 0x00#6 rt ra imm5 rb op1
  · exact field_fourth 0x00#6 rt ra imm5 op1 rb
  · exact field_sixth 0x00#6 rt ra op1 rb imm5
  · exact field_fifth 0x00#6 rt ra op1 imm5 rb

@[simp] theorem encodeR_op1 : (fieldsOf l (encodeR l op1 rt ra rb imm5)).op1 = op1 := by
  cases l
  · exact field_sixth 0x00#6 rt ra rb imm5 op1
  · exact field_fifth 0x00#6 rt ra rb op1 imm5
  · exact field_sixth 0x00#6 rt ra imm5 rb op1
  · exact field_fifth 0x00#6 rt ra imm5 op1 rb
  · exact field_fourth 0x00#6 rt ra op1 rb imm5
  · exact field_fourth 0x00#6 rt ra op1 imm5 rb

/-- All fields of an encoded R-type word. -/
theorem fieldsOf_encodeR : fieldsOf l (encodeR l op1 rt ra rb imm5) =
    { op0 := 0#6, rt := rt, ra := ra, rb := rb, imm5 := imm5, op1 := op1,
      imm16 := (encodeR l op1 rt ra rb imm5).extractLsb' 0 16,
      imm21 := (encodeR l op1 rt ra rb imm5).extractLsb' 0 21,
      imm26 := (encodeR l op1 rt ra rb imm5).extractLsb' 0 26 } :=
  fields_ext (encodeR_op0 ..) (encodeR_rt ..) (encodeR_ra ..) (encodeR_rb ..) (encodeR_imm5 ..) (encodeR_op1 ..) rfl rfl rfl

end RType

/-! ## I-type, B-type and J-type: the layout of the R-type word does not matter -/

section OtherTypes

variable (l : RLayout) (op0 : BitVec 6) (rt ra : Reg) (imm16 : BitVec 16) (imm21 : BitVec 21) (imm26 : BitVec 26)

@[simp] theorem encodeI_op0 : (fieldsOf l (encodeI op0 rt ra imm16)).op0 = op0 :=
  (extract_append_shift (op0 ++ rt ++ ra) imm16 10 6).trans <|
    (extract_append_shift (op0 ++ rt) ra 5 6).trans (extract_append_top op0 rt)

@[simp] theorem encodeI_rt : (fieldsOf l (encodeI op0 rt ra imm16)).rt = rt :=
  (extract_append_shift (op0 ++ rt ++ ra) imm16 5 5).trans <|
    (extract_append_shift (op0 ++ rt) ra 0 5).trans (extract_append_low op0 rt)

@[simp] theorem encodeI_ra : (fieldsOf l (encodeI op0 rt ra imm16)).ra = ra :=
  (extract_append_shift (op0 ++ rt ++ ra) imm16 0 5).trans (extract_append_low (op0 ++ rt) ra)

@[simp] theorem encodeI_imm16 : (fieldsOf l (encodeI op0 rt ra imm16)).imm16 = imm16 :=
  extract_append_low (op0 ++ rt ++ ra) imm16

@[simp] theorem encodeB_op0 : (fieldsOf l (encodeB op0 rt imm21)).op0 = op0 :=
  (extract_append_shift (op0 ++ rt) imm21 5 6).trans (extract_append_top op0 rt)

@[simp] theorem encodeB_rt : (fieldsOf l (encodeB op0 rt imm21)).rt = rt :=
  (extract_append_shift (op0 ++ rt) imm21 0 5).trans (extract_append_low op0 rt)

@[simp] theorem encodeB_imm21 : (fieldsOf l (encodeB op0 rt imm21)).imm21 = imm21 :=
  extract_append_low (op0 ++ rt) imm21

@[simp] theorem encodeJ_op0 : (fieldsOf l (encodeJ op0 imm26)).op0 = op0 :=
  extract_append_top op0 imm26

@[simp] theorem encodeJ_imm26 : (fieldsOf l (encodeJ op0 imm26)).imm26 = imm26 :=
  extract_append_low op0 imm26

/-- All fields of an encoded I-type word. -/
theorem fieldsOf_encodeI : fieldsOf l (encodeI op0 rt ra imm16) =
    { fieldsOf l (encodeI op0 rt ra imm16) with op0 := op0, rt := rt, ra := ra, imm16 := imm16 } :=
  fields_ext (encodeI_op0 ..) (encodeI_rt ..) (encodeI_ra ..) rfl rfl rfl (encodeI_imm16 ..) rfl rfl

/-- All fields of an encoded B-type word. -/
theorem fieldsOf_encodeB : fieldsOf l (encodeB op0 rt imm21) =
    { fieldsOf l (encodeB op0 rt imm21) with op0 := op0, rt := rt, imm21 := imm21 } :=
  fields_ext (encodeB_op0 ..) (encodeB_rt ..) rfl rfl rfl rfl rfl (encodeB_imm21 ..) rfl

/-- All fields of an encoded J-type word. -/
theorem fieldsOf_encodeJ : fieldsOf l (encodeJ op0 imm26) =
    { fieldsOf l (encodeJ op0 imm26) with op0 := op0, imm26 := imm26 } :=
  fields_ext (encodeJ_op0 ..) rfl rfl rfl rfl rfl rfl rfl (encodeJ_imm26 ..)

end OtherTypes

end Sys2Proof
end

