-- ==== Sys2Proof/Laws/Memory.lean ====
section
/-!
SUPPORT. The laws of memory: a read after a write, and that every memory operation keeps the canonical form.
-/

namespace Sys2Proof.Machine

/-! ## The canonical form -/

@[simp] theorem wfFrom_nil (low : Nat) : Memory.wfFrom low [] = true := rfl

@[simp] theorem wfFrom_cons (low k : Nat) (b : Byte) (m : Memory) :
    Memory.wfFrom low ((k, b) :: m) = true ↔
      low ≤ k ∧ k < 2 ^ 32 ∧ b ≠ unlistedByte ∧ Memory.wfFrom (k + 1) m = true := by
  simp [Memory.wfFrom, and_assoc]

/-- A lower bound may be lowered. -/
theorem wfFrom_mono {low low' : Nat} {m : Memory} (hl : low' ≤ low) (h : Memory.wfFrom low m = true) :
    Memory.wfFrom low' m = true := by
  cases m with
  | nil => rfl
  | cons c m => rw [wfFrom_cons] at h ⊢; exact ⟨hl.trans h.1, h.2⟩

theorem wfFrom_memoryCons {low k : Nat} {b : Byte} {m : Memory} (hl : low ≤ k) (hk : k < 2 ^ 32)
    (h : Memory.wfFrom (k + 1) m = true) : Memory.wfFrom low (Memory.cons k b m) = true := by
  unfold Memory.cons
  split
  · exact wfFrom_mono (by omega) h
  · exact (wfFrom_cons ..).2 ⟨hl, hk, ‹_›, h⟩

theorem wfFrom_write {m : Memory} {low : Nat} {a : Word} (hl : low ≤ a.toNat) (b : Byte)
    (h : Memory.wfFrom low m = true) : Memory.wfFrom low (m.write a b) = true := by
  induction m generalizing low with
  | nil => exact wfFrom_memoryCons hl a.isLt rfl
  | cons c m ih =>
    obtain ⟨k, old⟩ := c
    rw [wfFrom_cons] at h
    unfold Memory.write
    split
    · exact wfFrom_memoryCons hl a.isLt ((wfFrom_cons ..).2 ⟨by omega, h.2.1, h.2.2.1, h.2.2.2⟩)
    · split
      · exact wfFrom_memoryCons hl a.isLt (wfFrom_mono (by omega) h.2.2.2)
      · exact (wfFrom_cons ..).2 ⟨h.1, h.2.1, h.2.2.1, ih (by omega) h.2.2.2⟩

/-- Every write keeps the canonical form. -/
theorem wf_write {m : Memory} (a : Word) (b : Byte) (h : m.wf = true) : (m.write a b).wf = true :=
  wfFrom_write (Nat.zero_le _) b h

/-- So does a sequence of writes. -/
theorem wf_writeCells {m : Memory} (cells : List (Word × Byte)) (h : m.wf = true) :
    (m.writeCells cells).wf = true := by
  induction cells generalizing m with
  | nil => exact h
  | cons c cells ih => exact ih (wf_write _ _ h)

@[simp] theorem wf_nil : Memory.wf [] = true := rfl

/-! ## Reading -/

@[simp] theorem read_nil (a : Word) : Memory.read [] a = unlistedByte := rfl

theorem read_cons (k : Nat) (b : Byte) (m : Memory) (a : Word) :
    Memory.read ((k, b) :: m) a = if k = a.toNat then b else m.read a := rfl

/-- Below every listed address a memory reads as unlisted. -/
theorem read_below {m : Memory} {low : Nat} {a : Word} (h : Memory.wfFrom low m = true) (ha : a.toNat < low) :
    m.read a = unlistedByte := by
  induction m generalizing low with
  | nil => rfl
  | cons c m ih =>
    obtain ⟨k, b⟩ := c
    rw [wfFrom_cons] at h
    rw [read_cons, if_neg (by omega)]
    exact ih h.2.2.2 (by omega)

theorem read_memoryCons {k : Nat} {b : Byte} {m : Memory} {low : Nat} (h : Memory.wfFrom low m = true) (hk : k < low)
    (a : Word) : (Memory.cons k b m).read a = if k = a.toNat then b else m.read a := by
  unfold Memory.cons
  split
  · split
    · rw [read_below h (by omega)]; simp_all
    · rfl
  · rfl

theorem read_writeFrom {m : Memory} {low : Nat} (h : Memory.wfFrom low m = true) (a : Word) (b : Byte) (a' : Word) :
    (m.write a b).read a' = if a' = a then b else m.read a' := by
  have key : a.toNat = a'.toNat ↔ a' = a := ⟨fun e => BitVec.eq_of_toNat_eq e.symm, fun e => by rw [e]⟩
  induction m generalizing low with
  | nil => rw [Memory.write, read_memoryCons (low := a.toNat + 1) rfl (by omega)]; simp [key]
  | cons c m ih =>
    obtain ⟨k, old⟩ := c
    have h' := (wfFrom_cons ..).1 h
    unfold Memory.write
    split
    · rw [read_memoryCons (low := k) ((wfFrom_cons ..).2 ⟨le_rfl, h'.2⟩) (by omega)]; simp [key]
    · split
      · rw [read_memoryCons (low := k + 1) h'.2.2.2 (by omega), read_cons]
        simp only [key]
        split
        · rfl
        · rw [if_neg]; intro e; exact absurd (key.1 (by omega)) ‹_›
      · rw [read_cons, read_cons, ih h'.2.2.2]
        by_cases e : a' = a
        · subst e; simp; omega
        · simp [e]

/-- A read after a write: the byte written there, and what was there before everywhere else. -/
theorem read_write {m : Memory} (h : m.wf = true) (a : Word) (b : Byte) (a' : Word) :
    (m.write a b).read a' = if a' = a then b else m.read a' :=
  read_writeFrom h a b a'

/-- Bytes outside the written cells are unchanged. -/
theorem read_writeCells_outside {m : Memory} (h : m.wf = true) (cells : List (Word × Byte)) {a : Word}
    (ha : ∀ c ∈ cells, c.1 ≠ a) : (m.writeCells cells).read a = m.read a := by
  induction cells generalizing m with
  | nil => rfl
  | cons c cells ih =>
    simp only [List.mem_cons, forall_eq_or_imp] at ha
    show ((m.write c.1 c.2).writeCells cells).read a = _
    rw [ih (wf_write _ _ h) ha.2, read_write h, if_neg (Ne.symm ha.1)]

/-- A written byte reads back, when no address is written twice. -/
theorem read_writeCells_inside {m : Memory} (h : m.wf = true) {cells : List (Word × Byte)}
    (hn : (cells.map Prod.fst).Nodup) {c : Word × Byte} (hc : c ∈ cells) :
    (m.writeCells cells).read c.1 = c.2 := by
  induction cells generalizing m with
  | nil => simp at hc
  | cons d cells ih =>
    simp only [List.map_cons, List.nodup_cons, List.mem_map] at hn
    show ((m.write d.1 d.2).writeCells cells).read c.1 = _
    rcases List.mem_cons.1 hc with rfl | hc
    · rw [read_writeCells_outside (wf_write _ _ h) cells (fun e he h' => hn.1 ⟨e, he, h'⟩), read_write h, if_pos rfl]
    · exact ih (wf_write _ _ h) hn.2 hc

/-- The canonical form is canonical: equal contents are equal lists. -/
theorem eq_of_read_eq {m m' : Memory} {low : Nat} (h : Memory.wfFrom low m = true) (h' : Memory.wfFrom low m' = true)
    (he : ∀ a : Word, m.read a = m'.read a) : m = m' := by
  induction m generalizing low m' with
  | nil =>
    cases m' with
    | nil => rfl
    | cons c m' =>
      obtain ⟨k, b⟩ := c
      obtain ⟨_, hk, hb, _⟩ := (wfFrom_cons ..).1 h'
      have := he (BitVec.ofNat 32 k)
      rw [read_cons, if_pos (by simp; omega)] at this
      exact absurd this.symm hb
  | cons c m ih =>
    obtain ⟨k, b⟩ := c
    obtain ⟨hl, hk, hb, hm⟩ := (wfFrom_cons ..).1 h
    have hka : (BitVec.ofNat 32 k).toNat = k := by simp; omega
    cases m' with
    | nil =>
      have := he (BitVec.ofNat 32 k)
      rw [read_cons, if_pos hka.symm] at this
      exact absurd this hb
    | cons c' m' =>
      obtain ⟨k', b'⟩ := c'
      obtain ⟨hl', hk', hb', hm'⟩ := (wfFrom_cons ..).1 h'
      have hka' : (BitVec.ofNat 32 k').toNat = k' := by simp; omega
      have h1 := he (BitVec.ofNat 32 k)
      have h2 := he (BitVec.ofNat 32 k')
      rw [read_cons, if_pos hka.symm, read_cons, hka] at h1
      rw [read_cons, hka', read_cons, if_pos hka'.symm] at h2
      have hkk : k = k' := by
        by_contra hne
        rw [if_neg (Ne.symm hne)] at h1
        rw [if_neg hne] at h2
        rcases Nat.lt_or_gt_of_ne hne with hlt | hlt
        · exact hb (h1.trans (read_below hm' (by rw [hka]; omega)))
        · exact hb' (h2.symm.trans (read_below hm (by rw [hka']; omega)))
      subst hkk
      rw [if_pos rfl] at h1
      subst h1
      congr 1
      refine ih hm hm' fun a => ?_
      have ha := he a
      rw [read_cons, read_cons] at ha
      by_cases e : k = a.toNat
      · rw [read_below hm (by omega), read_below hm' (by omega)]
      · simpa [e] using ha

end Sys2Proof.Machine
end

