-- ==== Sys2Proof/Laws/State.lean ====
section
/-!
SUPPORT. What each update of the state leaves in each field, and what a register reads after it.
-/

namespace Sys2Proof.Machine

/-! ## The register file -/

theorem readReg_zero (s : State) : s.readReg 0#5 = 0#32 := by simp [State.readReg]

theorem writeReg_zero (s : State) (v : Word) : s.writeReg 0#5 v = s := by simp [State.writeReg]

/-- Two states with the same general registers read the same registers. -/
theorem readReg_congr {s t : State} (h : t.gprs = s.gprs) (r : Reg) : t.readReg r = s.readReg r := by
  simp [State.readReg, h]

/-- A register read back after a write: the value written, unless it is `r0` or another register. -/
@[simp] theorem readReg_writeReg (s : State) (rt : Reg) (v : Word) (r : Reg) :
    (s.writeReg rt v).readReg r = if r = rt ∧ rt ≠ 0#5 then v else s.readReg r := by
  unfold State.readReg State.writeReg
  by_cases h0 : rt = 0#5
  · simp [h0]
  · by_cases hr : r = 0#5
    · have : ¬ (r = rt) := fun h => h0 (h ▸ hr)
      simp [hr, h0, Ne.symm h0]
    · simp only [h0, hr, dite_false]
      by_cases he : r = rt
      · subst he; simp [h0]
      · have hne : rt.toNat - 1 ≠ r.toNat - 1 := by
          intro h
          have h1 : rt.toNat ≠ 0 := fun h => h0 (BitVec.eq_of_toNat_eq h)
          have h2 : r.toNat ≠ 0 := fun h => hr (BitVec.eq_of_toNat_eq h)
          exact he (BitVec.eq_of_toNat_eq (by omega))
        simp [he, Vector.getElem_set_ne, hne]

/-! ## `writeReg` -/

@[simp] theorem writeReg_ep (s : State) (rt : Reg) (v : Word) : (s.writeReg rt v).ep = s.ep := by
  unfold State.writeReg; split <;> rfl
@[simp] theorem writeReg_pc (s : State) (rt : Reg) (v : Word) : (s.writeReg rt v).pc = s.pc := by
  unfold State.writeReg; split <;> rfl
@[simp] theorem writeReg_flags (s : State) (rt : Reg) (v : Word) : (s.writeReg rt v).flags = s.flags := by
  unfold State.writeReg; split <;> rfl
@[simp] theorem writeReg_mem (s : State) (rt : Reg) (v : Word) : (s.writeReg rt v).mem = s.mem := by
  unfold State.writeReg; split <;> rfl
@[simp] theorem writeReg_config (s : State) (rt : Reg) (v : Word) : (s.writeReg rt v).config = s.config := by
  unfold State.writeReg; split <;> rfl
@[simp] theorem writeReg_ioLog (s : State) (rt : Reg) (v : Word) : (s.writeReg rt v).ioLog = s.ioLog := by
  unfold State.writeReg; split <;> rfl
@[simp] theorem writeReg_draws (s : State) (rt : Reg) (v : Word) : (s.writeReg rt v).draws = s.draws := by
  unfold State.writeReg; split <;> rfl
@[simp] theorem region_writeReg (s : State) (rt : Reg) (v : Word) (a' : Word) : (s.writeReg rt v).region a' = s.region a' := by
  simp [State.region]

/-! ## `setEp` -/

@[simp] theorem setEp_gprs (s : State) (v : Word) : (s.setEp v).gprs = s.gprs := rfl
@[simp] theorem setEp_ep (s : State) (v : Word) : (s.setEp v).ep = v := rfl
@[simp] theorem setEp_pc (s : State) (v : Word) : (s.setEp v).pc = s.pc := rfl
@[simp] theorem setEp_flags (s : State) (v : Word) : (s.setEp v).flags = s.flags := rfl
@[simp] theorem setEp_mem (s : State) (v : Word) : (s.setEp v).mem = s.mem := rfl
@[simp] theorem setEp_config (s : State) (v : Word) : (s.setEp v).config = s.config := rfl
@[simp] theorem setEp_ioLog (s : State) (v : Word) : (s.setEp v).ioLog = s.ioLog := rfl
@[simp] theorem setEp_draws (s : State) (v : Word) : (s.setEp v).draws = s.draws := rfl
@[simp] theorem readReg_setEp (s : State) (v : Word) (r : Reg) : (s.setEp v).readReg r = s.readReg r :=
  readReg_congr (by simp) r
@[simp] theorem region_setEp (s : State) (v : Word) (a' : Word) : (s.setEp v).region a' = s.region a' := by
  simp [State.region]

/-! ## `setPc` -/

@[simp] theorem setPc_gprs (s : State) (v : Word) : (s.setPc v).gprs = s.gprs := rfl
@[simp] theorem setPc_ep (s : State) (v : Word) : (s.setPc v).ep = s.ep := rfl
@[simp] theorem setPc_pc (s : State) (v : Word) : (s.setPc v).pc = v := rfl
@[simp] theorem setPc_flags (s : State) (v : Word) : (s.setPc v).flags = s.flags := rfl
@[simp] theorem setPc_mem (s : State) (v : Word) : (s.setPc v).mem = s.mem := rfl
@[simp] theorem setPc_config (s : State) (v : Word) : (s.setPc v).config = s.config := rfl
@[simp] theorem setPc_ioLog (s : State) (v : Word) : (s.setPc v).ioLog = s.ioLog := rfl
@[simp] theorem setPc_draws (s : State) (v : Word) : (s.setPc v).draws = s.draws := rfl
@[simp] theorem readReg_setPc (s : State) (v : Word) (r : Reg) : (s.setPc v).readReg r = s.readReg r :=
  readReg_congr (by simp) r
@[simp] theorem region_setPc (s : State) (v : Word) (a' : Word) : (s.setPc v).region a' = s.region a' := by
  simp [State.region]

/-! ## `setFlags` -/

@[simp] theorem setFlags_gprs (s : State) (f : Flags) : (s.setFlags f).gprs = s.gprs := rfl
@[simp] theorem setFlags_ep (s : State) (f : Flags) : (s.setFlags f).ep = s.ep := rfl
@[simp] theorem setFlags_pc (s : State) (f : Flags) : (s.setFlags f).pc = s.pc := rfl
@[simp] theorem setFlags_flags (s : State) (f : Flags) : (s.setFlags f).flags = f := rfl
@[simp] theorem setFlags_mem (s : State) (f : Flags) : (s.setFlags f).mem = s.mem := rfl
@[simp] theorem setFlags_config (s : State) (f : Flags) : (s.setFlags f).config = s.config := rfl
@[simp] theorem setFlags_ioLog (s : State) (f : Flags) : (s.setFlags f).ioLog = s.ioLog := rfl
@[simp] theorem setFlags_draws (s : State) (f : Flags) : (s.setFlags f).draws = s.draws := rfl
@[simp] theorem readReg_setFlags (s : State) (f : Flags) (r : Reg) : (s.setFlags f).readReg r = s.readReg r :=
  readReg_congr (by simp) r
@[simp] theorem region_setFlags (s : State) (f : Flags) (a' : Word) : (s.setFlags f).region a' = s.region a' := by
  simp [State.region]

/-! ## `advance` -/

@[simp] theorem advance_gprs (s : State) : (s.advance).gprs = s.gprs := rfl
@[simp] theorem advance_ep (s : State) : (s.advance).ep = s.ep := rfl
@[simp] theorem advance_pc (s : State) : (s.advance).pc = s.pc + 4#32 := rfl
@[simp] theorem advance_flags (s : State) : (s.advance).flags = s.flags := rfl
@[simp] theorem advance_mem (s : State) : (s.advance).mem = s.mem := rfl
@[simp] theorem advance_config (s : State) : (s.advance).config = s.config := rfl
@[simp] theorem advance_ioLog (s : State) : (s.advance).ioLog = s.ioLog := rfl
@[simp] theorem advance_draws (s : State) : (s.advance).draws = s.draws := rfl
@[simp] theorem readReg_advance (s : State) (r : Reg) : (s.advance).readReg r = s.readReg r :=
  readReg_congr (by simp) r
@[simp] theorem region_advance (s : State) (a' : Word) : (s.advance).region a' = s.region a' := by
  simp [State.region]

/-! ## `recordRead` -/

@[simp] theorem recordRead_gprs (s : State) (cells : List (Word × Byte)) : (s.recordRead cells).gprs = s.gprs := by
  unfold State.recordRead; split <;> rfl
@[simp] theorem recordRead_ep (s : State) (cells : List (Word × Byte)) : (s.recordRead cells).ep = s.ep := by
  unfold State.recordRead; split <;> rfl
@[simp] theorem recordRead_pc (s : State) (cells : List (Word × Byte)) : (s.recordRead cells).pc = s.pc := by
  unfold State.recordRead; split <;> rfl
@[simp] theorem recordRead_flags (s : State) (cells : List (Word × Byte)) : (s.recordRead cells).flags = s.flags := by
  unfold State.recordRead; split <;> rfl
@[simp] theorem recordRead_mem (s : State) (cells : List (Word × Byte)) : (s.recordRead cells).mem = s.mem := by
  unfold State.recordRead; split <;> rfl
@[simp] theorem recordRead_config (s : State) (cells : List (Word × Byte)) : (s.recordRead cells).config = s.config := by
  unfold State.recordRead; split <;> rfl
@[simp] theorem readReg_recordRead (s : State) (cells : List (Word × Byte)) (r : Reg) : (s.recordRead cells).readReg r = s.readReg r :=
  readReg_congr (by simp) r
@[simp] theorem region_recordRead (s : State) (cells : List (Word × Byte)) (a' : Word) : (s.recordRead cells).region a' = s.region a' := by
  simp [State.region]

/-! ## `recordWrite` -/

@[simp] theorem recordWrite_gprs (s : State) (cells : List (Word × Byte)) : (s.recordWrite cells).gprs = s.gprs := by
  unfold State.recordWrite; split <;> rfl
@[simp] theorem recordWrite_ep (s : State) (cells : List (Word × Byte)) : (s.recordWrite cells).ep = s.ep := by
  unfold State.recordWrite; split <;> rfl
@[simp] theorem recordWrite_pc (s : State) (cells : List (Word × Byte)) : (s.recordWrite cells).pc = s.pc := by
  unfold State.recordWrite; split <;> rfl
@[simp] theorem recordWrite_flags (s : State) (cells : List (Word × Byte)) : (s.recordWrite cells).flags = s.flags := by
  unfold State.recordWrite; split <;> rfl
@[simp] theorem recordWrite_mem (s : State) (cells : List (Word × Byte)) : (s.recordWrite cells).mem = s.mem := by
  unfold State.recordWrite; split <;> rfl
@[simp] theorem recordWrite_config (s : State) (cells : List (Word × Byte)) : (s.recordWrite cells).config = s.config := by
  unfold State.recordWrite; split <;> rfl
@[simp] theorem recordWrite_draws (s : State) (cells : List (Word × Byte)) : (s.recordWrite cells).draws = s.draws := by
  unfold State.recordWrite; split <;> rfl
@[simp] theorem readReg_recordWrite (s : State) (cells : List (Word × Byte)) (r : Reg) : (s.recordWrite cells).readReg r = s.readReg r :=
  readReg_congr (by simp) r
@[simp] theorem region_recordWrite (s : State) (cells : List (Word × Byte)) (a' : Word) : (s.recordWrite cells).region a' = s.region a' := by
  simp [State.region]

/-- The log after a read that touched I/O bytes, or none. -/
theorem recordRead_ioLog (s : State) (cells : List (Word × Byte)) :
    (s.recordRead cells).ioLog = s.ioLog ++ (if cells = [] then [] else [.read cells]) := by
  unfold State.recordRead; split <;> simp

/-- One draw per I/O byte read. -/
@[simp] theorem recordRead_draws (s : State) (cells : List (Word × Byte)) :
    (s.recordRead cells).draws = s.draws + cells.length := by
  unfold State.recordRead; split <;> simp_all

/-- The log after a write that touched I/O bytes, or none. -/
theorem recordWrite_ioLog (s : State) (cells : List (Word × Byte)) :
    (s.recordWrite cells).ioLog = s.ioLog ++ (if cells = [] then [] else [.write cells]) := by
  unfold State.recordWrite; split <;> simp

@[simp] theorem recordRead_nil (s : State) : s.recordRead [] = s := by simp [State.recordRead]

@[simp] theorem recordWrite_nil (s : State) : s.recordWrite [] = s := by simp [State.recordWrite]

/-! ## `storeBytes` -/

@[simp] theorem storeBytes_gprs (s : State) (cells : List (Word × Byte)) : (s.storeBytes cells).gprs = s.gprs := by
  simp [State.storeBytes]
@[simp] theorem storeBytes_ep (s : State) (cells : List (Word × Byte)) : (s.storeBytes cells).ep = s.ep := by
  simp [State.storeBytes]
@[simp] theorem storeBytes_pc (s : State) (cells : List (Word × Byte)) : (s.storeBytes cells).pc = s.pc := by
  simp [State.storeBytes]
@[simp] theorem storeBytes_flags (s : State) (cells : List (Word × Byte)) : (s.storeBytes cells).flags = s.flags := by
  simp [State.storeBytes]
@[simp] theorem storeBytes_mem (s : State) (cells : List (Word × Byte)) :
    (s.storeBytes cells).mem = s.mem.writeCells (s.cellsIn .ram cells) := by
  simp [State.storeBytes]
@[simp] theorem storeBytes_config (s : State) (cells : List (Word × Byte)) : (s.storeBytes cells).config = s.config := by
  simp [State.storeBytes]
@[simp] theorem storeBytes_draws (s : State) (cells : List (Word × Byte)) : (s.storeBytes cells).draws = s.draws := by
  simp [State.storeBytes]
theorem storeBytes_ioLog (s : State) (cells : List (Word × Byte)) :
    (s.storeBytes cells).ioLog =
      s.ioLog ++ (if s.cellsIn .io cells = [] then [] else [.write (s.cellsIn .io cells)]) := by
  simp [State.storeBytes, recordWrite_ioLog]
@[simp] theorem readReg_storeBytes (s : State) (cells : List (Word × Byte)) (r : Reg) :
    (s.storeBytes cells).readReg r = s.readReg r :=
  readReg_congr (by simp) r
@[simp] theorem region_storeBytes (s : State) (cells : List (Word × Byte)) (a : Word) :
    (s.storeBytes cells).region a = s.region a := by
  simp [State.region]

/-- The region of an address depends on the configuration alone. -/
theorem region_congr {s t : State} (h : t.config = s.config) (a : Word) : t.region a = s.region a := by
  simp [State.region, h]

/-- So does the choice of a kind's cells. -/
theorem cellsIn_congr {s t : State} (h : t.config = s.config) (kind : RegionKind) (cells : List (Word × Byte)) :
    t.cellsIn kind cells = s.cellsIn kind cells := by
  simp [State.cellsIn, State.region, h]

end Sys2Proof.Machine
end

