-- ==== Sys2Proof/Laws/Ops.lean ====
section
/-!
SUPPORT. What each shared operation over memory can do, said once.
-/

namespace Sys2Proof.Machine

/-! ## The bytes of an access -/

@[simp] theorem accessBytes_length (addr : Word) (n : Nat) : (accessBytes addr n).length = n := by
  simp [accessBytes]

theorem mem_accessBytes {addr : Word} {n : Nat} {a : Word} :
    a ∈ accessBytes addr n ↔ ∃ k < n, a = addr + BitVec.ofNat 32 k := by
  simp [accessBytes, eq_comm]

@[simp] theorem storeCells_addresses (addr : Word) (n : Nat) (v : Word) :
    (storeCells addr n v).map Prod.fst = accessBytes addr n := by
  simp [storeCells, accessBytes, Function.comp_def]

theorem mem_storeCells {addr : Word} {n : Nat} {v : Word} {c : Word × Byte} :
    c ∈ storeCells addr n v ↔ ∃ k < n, c = (addr + BitVec.ofNat 32 k, byteOf v k) := by
  simp [storeCells, eq_comm]

/-- Addition of distinct small offsets reaches distinct addresses. -/
theorem offset_injective (addr : Word) {j k : Nat} (hj : j < 2 ^ 32) (hk : k < 2 ^ 32)
    (h : addr + BitVec.ofNat 32 j = addr + BitVec.ofNat 32 k) : j = k := by
  have h' : BitVec.ofNat 32 j = BitVec.ofNat 32 k := by simpa using h
  have := congrArg BitVec.toNat h'
  simp only [BitVec.toNat_ofNat, Nat.mod_eq_of_lt hj, Nat.mod_eq_of_lt hk] at this
  exact this

/-- No access meets one address twice. -/
theorem accessBytes_nodup (addr : Word) {n : Nat} (hn : n ≤ 2 ^ 32) : (accessBytes addr n).Nodup := by
  refine (List.nodup_map_iff_inj_on List.nodup_range).2 fun j hj k hk h => ?_
  simp only [List.mem_range] at hj hk
  exact offset_injective addr (by omega) (by omega) h

/-- An access is mapped exactly when it has no first unmapped byte. -/
theorem firstUnmapped_eq_none {s : State} {as : List Word} :
    s.firstUnmapped as = none ↔ ∀ a ∈ as, s.region a ≠ .unmapped := by
  simp [State.firstUnmapped]

theorem firstUnmapped_congr {s t : State} (h : t.config = s.config) (as : List Word) :
    t.firstUnmapped as = s.firstUnmapped as := by
  simp [State.firstUnmapped, State.region, h]

/-! ## Reading -/

@[simp] theorem bytesRead_length (s : State) (n : Nat) (as : List Word) : (s.bytesRead n as).length = as.length := by
  induction as generalizing n with
  | nil => rfl
  | cons a as ih => unfold State.bytesRead; split <;> simp [ih]

/-- The bytes read from RAM are the bytes of memory. -/
theorem bytesRead_ram {s : State} {as : List Word} (h : ∀ a ∈ as, s.region a = .ram) (n : Nat) :
    s.bytesRead n as = as.map s.mem.read := by
  induction as generalizing n with
  | nil => rfl
  | cons a as ih =>
    simp only [List.mem_cons, forall_eq_or_imp] at h
    simp [State.bytesRead, h.1, ih h.2]

/-- The chosen cells are cells of the access, in a region of the kind. -/
theorem mem_cellsIn {s : State} {kind : RegionKind} {cells : List (Word × Byte)} {c : Word × Byte} :
    c ∈ s.cellsIn kind cells ↔ c ∈ cells ∧ s.region c.1 = kind := by
  simp [State.cellsIn]

/-- An access of RAM alone involves no I/O byte. -/
theorem cellsIn_io_of_ram {s : State} {cells : List (Word × Byte)} (h : ∀ c ∈ cells, s.region c.1 = .ram) :
    s.cellsIn .io cells = [] := by
  simp only [State.cellsIn, List.filter_eq_nil_iff, beq_iff_eq]
  intro c hc; rw [h c hc]; decide

/-- And all its bytes are RAM bytes. -/
theorem cellsIn_ram_of_ram {s : State} {cells : List (Word × Byte)} (h : ∀ c ∈ cells, s.region c.1 = .ram) :
    s.cellsIn .ram cells = cells := by
  simp only [State.cellsIn, List.filter_eq_self, beq_iff_eq]
  exact h

/-- What `MemRead` does when it does not stop. -/
theorem memRead_eq_ok {s : State} {addr : Word} {n : Nat} {v : Word} {t : State} :
    s.memRead addr n = .ok (v, t) ↔
      (∀ a ∈ accessBytes addr n, s.region a ≠ .unmapped) ∧
      v = BitVec.ofNat 32 (littleEndian (s.bytesRead s.draws (accessBytes addr n))) ∧
      t = s.recordRead (s.cellsIn .io ((accessBytes addr n).zip (s.bytesRead s.draws (accessBytes addr n)))) := by
  rw [← firstUnmapped_eq_none]
  unfold State.memRead
  cases h : s.firstUnmapped (accessBytes addr n) <;> simp [eq_comm]

/-- `MemRead` of RAM: the bytes of memory, and nothing else happens. -/
theorem memRead_ram {s : State} {addr : Word} {n : Nat} (h : ∀ a ∈ accessBytes addr n, s.region a = .ram) :
    s.memRead addr n = .ok (BitVec.ofNat 32 (littleEndian ((accessBytes addr n).map s.mem.read)), s) := by
  rw [memRead_eq_ok, bytesRead_ram h]
  refine ⟨fun a ha => by rw [h a ha]; decide, rfl, ?_⟩
  rw [cellsIn_io_of_ram fun c hc => h _ (List.of_mem_zip hc).1, recordRead_nil]

/-- When `MemRead` stops. -/
theorem memRead_eq_error {s : State} {addr : Word} {n : Nat} {f : Fault} :
    s.memRead addr n = .error f ↔ ∃ a, s.firstUnmapped (accessBytes addr n) = some a ∧ f = .unmappedAccess a := by
  unfold State.memRead
  cases h : s.firstUnmapped (accessBytes addr n) <;> simp [eq_comm]

/-! ## Writing -/

/-- What `MemWrite` does when it does not stop. -/
theorem memWrite_eq_ok {s : State} {addr : Word} {n : Nat} {v : Word} {t : State} :
    s.memWrite addr n v = .ok t ↔
      (∀ a ∈ accessBytes addr n, s.region a ≠ .unmapped) ∧ t = s.storeBytes (storeCells addr n v) := by
  rw [← firstUnmapped_eq_none]
  unfold State.memWrite
  cases h : s.firstUnmapped (accessBytes addr n) <;> simp [eq_comm]

/-- When `MemWrite` stops. -/
theorem memWrite_eq_error {s : State} {addr : Word} {n : Nat} {v : Word} {f : Fault} :
    s.memWrite addr n v = .error f ↔ ∃ a, s.firstUnmapped (accessBytes addr n) = some a ∧ f = .unmappedAccess a := by
  unfold State.memWrite
  cases h : s.firstUnmapped (accessBytes addr n) <;> simp [eq_comm]

/-- Storing keeps the canonical form of memory. -/
theorem storeBytes_wf {s : State} (cells : List (Word × Byte)) (h : s.mem.wf = true) :
    (s.storeBytes cells).mem.wf = true := by
  simpa using wf_writeCells _ h

/-- A byte that is not one of the stored RAM bytes is unchanged. -/
theorem storeBytes_read_outside {s : State} (h : s.mem.wf = true) (cells : List (Word × Byte)) {a : Word}
    (ha : a ∉ cells.map Prod.fst ∨ s.region a ≠ .ram) : (s.storeBytes cells).mem.read a = s.mem.read a := by
  rw [storeBytes_mem]
  refine read_writeCells_outside h _ fun c hc e => ?_
  obtain ⟨hc, hr⟩ := mem_cellsIn.1 hc
  rcases ha with ha | ha
  · exact ha (List.mem_map.2 ⟨c, hc, e⟩)
  · exact ha (e ▸ hr)

/-- A stored RAM byte reads back. -/
theorem storeBytes_read_inside {s : State} (h : s.mem.wf = true) {cells : List (Word × Byte)}
    (hn : (cells.map Prod.fst).Nodup) {c : Word × Byte} (hc : c ∈ cells) (hr : s.region c.1 = .ram) :
    (s.storeBytes cells).mem.read c.1 = c.2 := by
  rw [storeBytes_mem]
  refine read_writeCells_inside h ?_ (mem_cellsIn.2 ⟨hc, hr⟩)
  exact hn.sublist (List.filter_sublist.map _)

/-! ## Loads and stores -/

/-- What a load does when it answers a next state. -/
theorem load_eq_next {s : State} {n : Nat} {extend : Word → Word} {rt ra : Reg} {imm : BitVec 16} {t : State} :
    s.load n extend rt ra imm = .next t ↔
      ∃ v u, s.memRead (s.effectiveAddress ra imm) n = .ok (v, u) ∧ t = (u.writeReg rt (extend v)).advance := by
  unfold State.load State.finish
  cases h : s.memRead (s.effectiveAddress ra imm) n with
  | error f => simp
  | ok p =>
    obtain ⟨v, u⟩ := p
    simp only [Host.Outcome.next.injEq, Except.ok.injEq, Prod.mk.injEq]
    exact ⟨fun e => ⟨v, u, ⟨rfl, rfl⟩, e.symm⟩, fun ⟨_, _, ⟨hv, hu⟩, e⟩ => by rw [e, hv, hu]⟩

/-- What a store does when it answers a next state. -/
theorem store_eq_next {s : State} {n : Nat} {rt ra : Reg} {imm : BitVec 16} {t : State} :
    s.store n rt ra imm = .next t ↔
      (∀ a ∈ accessBytes (s.effectiveAddress ra imm) n, s.region a ≠ .unmapped) ∧
      t = (s.storeBytes (storeCells (s.effectiveAddress ra imm) n (s.readReg rt))).advance := by
  unfold State.store
  cases h : s.memWrite (s.effectiveAddress ra imm) n (s.readReg rt) with
  | error f =>
    obtain ⟨a, ha, -⟩ := memWrite_eq_error.1 h
    rw [← firstUnmapped_eq_none, ha]; simp
  | ok u =>
    obtain ⟨hm, rfl⟩ := memWrite_eq_ok.1 h
    simp only [Host.Outcome.next.injEq, eq_comm (b := t)]
    exact ⟨fun e => ⟨hm, e⟩, And.right⟩

end Sys2Proof.Machine
end

