-- ==== Sys2Proof/Laws/Endings.lean ====
section
/-!
SUPPORT. What each shared ending of an instruction, and a step, does when it answers a next state.
-/

namespace Sys2Proof.Machine

/-! ## Endings -/

theorem finish_eq_next {s t : State} {rt : Reg} {v : Word} :
    s.finish rt v = .next t ↔ t = (s.writeReg rt v).advance := by
  simp [State.finish, eq_comm]

theorem finishWithFlags_eq_next {s t : State} {op : FlagOp} {operands : List Word} {rt : Reg} {v : Word} :
    s.finishWithFlags op operands rt v = .next t ↔
      t = ((s.writeReg rt v).setFlags (flagsOfResult s.config op operands v s.flags)).advance := by
  simp [State.finishWithFlags, eq_comm]

theorem shiftByReg_eq_next {s t : State} {shift : Word → Nat → Word} {rt ra rb : Reg} :
    s.shiftByReg shift rt ra rb = .next t ↔
      ∃ k, shiftAmount s.config.shiftRegMode (s.readReg rb) = .ok k ∧
        t = (s.writeReg rt (shift (s.readReg ra) k)).advance := by
  unfold State.shiftByReg
  cases shiftAmount s.config.shiftRegMode (s.readReg rb) <;> simp [finish_eq_next]

theorem shiftByRegWithFlags_eq_next {s t : State} {op : FlagOp} {shift : Word → Nat → Word} {rt ra rb : Reg} :
    s.shiftByRegWithFlags op shift rt ra rb = .next t ↔
      ∃ k, shiftAmount s.config.shiftRegMode (s.readReg rb) = .ok k ∧
        t = ((s.writeReg rt (shift (s.readReg ra) k)).setFlags
          (flagsOfResult s.config op [s.readReg ra, s.readReg rb] (shift (s.readReg ra) k) s.flags)).advance := by
  unfold State.shiftByRegWithFlags
  cases shiftAmount s.config.shiftRegMode (s.readReg rb) <;> simp [finishWithFlags_eq_next]

theorem branch_eq_next {s t : State} {taken : Bool} {target : Word} :
    s.branch taken target = .next t ↔ t = s.setPc (if taken then target else s.nextPc) := by
  cases taken <;> simp [State.branch, State.advance, eq_comm]

theorem divideCorner_eq_next {s t : State} {rt ra rb : Reg} {flags : DivideAnswer → Flags} {answer : DivideAnswer}
    (ha : answer = Config.divideAnswer s.ep (s.readReg ra) (s.readReg rb)) :
    s.divideCorner rt ra rb flags = .next t ↔
      s.config.divCorner = .free ∧
        t = (((s.writeReg rt answer.quotient).setEp answer.remainder).setFlags (flags answer)).advance := by
  subst ha
  unfold State.divideCorner
  cases s.config.divCorner <;> simp [eq_comm]

/-! ## Steps -/

/-- A fetch reads four bytes at the fetch address, which becomes `pc`. -/
theorem fetch_eq_ok {s t : State} {w : Word} :
    s.fetch = .ok (w, t) ↔ ∃ a, s.fetchAddress = .ok a ∧ (s.setPc a).memRead a 4 = .ok (w, t) := by
  unfold State.fetch
  cases s.fetchAddress <;> simp

/-- A step that answers a next state fetched, decoded and executed. -/
theorem step_eq_next {s t : State} :
    step s = .next t ↔ ∃ w u i, s.fetch = .ok (w, u) ∧ decode u.config w = .ok i ∧ exec i u = .next t := by
  unfold step
  rcases s.fetch with f | ⟨w, u⟩
  · simp
  · rcases h : decode u.config w with why | i
    · cases why <;> simp [stopOf, h]
    · simp [h]

end Sys2Proof.Machine
end

