-- ==== Sys2Proof/Laws/Exec.lean ====
section
/-!
SUPPORT. exec at each constructor, so that no proof unfolds the match over all of them.
-/

namespace Sys2Proof.Machine

@[simp] theorem exec_sllr (rt ra rb : Reg) (s : State) :
    exec (.sllr rt ra rb) s = execSllr rt ra rb s := rfl
@[simp] theorem exec_slrf (rt ra rb : Reg) (s : State) :
    exec (.slrf rt ra rb) s = execSlrf rt ra rb s := rfl
@[simp] theorem exec_srlr (rt ra rb : Reg) (s : State) :
    exec (.srlr rt ra rb) s = execSrlr rt ra rb s := rfl
@[simp] theorem exec_srrf (rt ra rb : Reg) (s : State) :
    exec (.srrf rt ra rb) s = execSrrf rt ra rb s := rfl
@[simp] theorem exec_srar (rt ra rb : Reg) (s : State) :
    exec (.srar rt ra rb) s = execSrar rt ra rb s := rfl
@[simp] theorem exec_sras (rt ra rb : Reg) (s : State) :
    exec (.sras rt ra rb) s = execSras rt ra rb s := rfl
@[simp] theorem exec_slli (rt ra : Reg) (imm5 : BitVec 5) (s : State) :
    exec (.slli rt ra imm5) s = execSlli rt ra imm5 s := rfl
@[simp] theorem exec_slif (rt ra : Reg) (imm5 : BitVec 5) (s : State) :
    exec (.slif rt ra imm5) s = execSlif rt ra imm5 s := rfl
@[simp] theorem exec_srli (rt ra : Reg) (imm5 : BitVec 5) (s : State) :
    exec (.srli rt ra imm5) s = execSrli rt ra imm5 s := rfl
@[simp] theorem exec_srif (rt ra : Reg) (imm5 : BitVec 5) (s : State) :
    exec (.srif rt ra imm5) s = execSrif rt ra imm5 s := rfl
@[simp] theorem exec_srai (rt ra : Reg) (imm5 : BitVec 5) (s : State) :
    exec (.srai rt ra imm5) s = execSrai rt ra imm5 s := rfl
@[simp] theorem exec_sraj (rt ra : Reg) (imm5 : BitVec 5) (s : State) :
    exec (.sraj rt ra imm5) s = execSraj rt ra imm5 s := rfl
@[simp] theorem exec_andr (rt ra rb : Reg) (s : State) :
    exec (.andr rt ra rb) s = execAndr rt ra rb s := rfl
@[simp] theorem exec_adrf (rt ra rb : Reg) (s : State) :
    exec (.adrf rt ra rb) s = execAdrf rt ra rb s := rfl
@[simp] theorem exec_orrr (rt ra rb : Reg) (s : State) :
    exec (.orrr rt ra rb) s = execOrrr rt ra rb s := rfl
@[simp] theorem exec_orrf (rt ra rb : Reg) (s : State) :
    exec (.orrf rt ra rb) s = execOrrf rt ra rb s := rfl
@[simp] theorem exec_notr (rt ra : Reg) (s : State) :
    exec (.notr rt ra) s = execNotr rt ra s := rfl
@[simp] theorem exec_notf (rt ra : Reg) (s : State) :
    exec (.notf rt ra) s = execNotf rt ra s := rfl
@[simp] theorem exec_xorr (rt ra rb : Reg) (s : State) :
    exec (.xorr rt ra rb) s = execXorr rt ra rb s := rfl
@[simp] theorem exec_xorf (rt ra rb : Reg) (s : State) :
    exec (.xorf rt ra rb) s = execXorf rt ra rb s := rfl
@[simp] theorem exec_andi (rt ra : Reg) (imm16 : BitVec 16) (s : State) :
    exec (.andi rt ra imm16) s = execAndi rt ra imm16 s := rfl
@[simp] theorem exec_orri (rt ra : Reg) (imm16 : BitVec 16) (s : State) :
    exec (.orri rt ra imm16) s = execOrri rt ra imm16 s := rfl
@[simp] theorem exec_xori (rt ra : Reg) (imm16 : BitVec 16) (s : State) :
    exec (.xori rt ra imm16) s = execXori rt ra imm16 s := rfl
@[simp] theorem exec_addr (rt ra rb : Reg) (s : State) :
    exec (.addr rt ra rb) s = execAddr rt ra rb s := rfl
@[simp] theorem exec_addf (rt ra rb : Reg) (s : State) :
    exec (.addf rt ra rb) s = execAddf rt ra rb s := rfl
@[simp] theorem exec_subr (rt ra rb : Reg) (s : State) :
    exec (.subr rt ra rb) s = execSubr rt ra rb s := rfl
@[simp] theorem exec_subf (rt ra rb : Reg) (s : State) :
    exec (.subf rt ra rb) s = execSubf rt ra rb s := rfl
@[simp] theorem exec_mulr (rt ra rb : Reg) (s : State) :
    exec (.mulr rt ra rb) s = execMulr rt ra rb s := rfl
@[simp] theorem exec_mulf (rt ra rb : Reg) (s : State) :
    exec (.mulf rt ra rb) s = execMulf rt ra rb s := rfl
@[simp] theorem exec_divr (rt ra rb : Reg) (s : State) :
    exec (.divr rt ra rb) s = execDivr rt ra rb s := rfl
@[simp] theorem exec_divf (rt ra rb : Reg) (s : State) :
    exec (.divf rt ra rb) s = execDivf rt ra rb s := rfl
@[simp] theorem exec_rdep (rt : Reg) (s : State) :
    exec (.rdep rt) s = execRdep rt s := rfl
@[simp] theorem exec_wrep (ra : Reg) (s : State) :
    exec (.wrep ra) s = execWrep ra s := rfl
@[simp] theorem exec_jmpr (ra rb : Reg) (imm5 : BitVec 5) (s : State) :
    exec (.jmpr ra rb imm5) s = execJmpr ra rb imm5 s := rfl
@[simp] theorem exec_jalr (ra rb : Reg) (imm5 : BitVec 5) (s : State) :
    exec (.jalr ra rb imm5) s = execJalr ra rb imm5 s := rfl
@[simp] theorem exec_jmpi (imm26 : BitVec 26) (s : State) :
    exec (.jmpi imm26) s = execJmpi imm26 s := rfl
@[simp] theorem exec_jali (imm26 : BitVec 26) (s : State) :
    exec (.jali imm26) s = execJali imm26 s := rfl
@[simp] theorem exec_brnr (rt : Reg) (imm21 : BitVec 21) (s : State) :
    exec (.brnr rt imm21) s = execBrnr rt imm21 s := rfl
@[simp] theorem exec_bror (rt : Reg) (imm21 : BitVec 21) (s : State) :
    exec (.bror rt imm21) s = execBror rt imm21 s := rfl
@[simp] theorem exec_brcr (rt : Reg) (imm21 : BitVec 21) (s : State) :
    exec (.brcr rt imm21) s = execBrcr rt imm21 s := rfl
@[simp] theorem exec_brzr (rt : Reg) (imm21 : BitVec 21) (s : State) :
    exec (.brzr rt imm21) s = execBrzr rt imm21 s := rfl
@[simp] theorem exec_brne (rt ra : Reg) (imm16 : BitVec 16) (s : State) :
    exec (.brne rt ra imm16) s = execBrne rt ra imm16 s := rfl
@[simp] theorem exec_brgt (rt ra : Reg) (imm16 : BitVec 16) (s : State) :
    exec (.brgt rt ra imm16) s = execBrgt rt ra imm16 s := rfl
@[simp] theorem exec_ldui (rt : Reg) (imm16 : BitVec 16) (s : State) :
    exec (.ldui rt imm16) s = execLdui rt imm16 s := rfl
@[simp] theorem exec_ldwd (rt ra : Reg) (imm16 : BitVec 16) (s : State) :
    exec (.ldwd rt ra imm16) s = execLdwd rt ra imm16 s := rfl
@[simp] theorem exec_ldhs (rt ra : Reg) (imm16 : BitVec 16) (s : State) :
    exec (.ldhs rt ra imm16) s = execLdhs rt ra imm16 s := rfl
@[simp] theorem exec_ldhu (rt ra : Reg) (imm16 : BitVec 16) (s : State) :
    exec (.ldhu rt ra imm16) s = execLdhu rt ra imm16 s := rfl
@[simp] theorem exec_ldbs (rt ra : Reg) (imm16 : BitVec 16) (s : State) :
    exec (.ldbs rt ra imm16) s = execLdbs rt ra imm16 s := rfl
@[simp] theorem exec_ldbu (rt ra : Reg) (imm16 : BitVec 16) (s : State) :
    exec (.ldbu rt ra imm16) s = execLdbu rt ra imm16 s := rfl
@[simp] theorem exec_stwd (rt ra : Reg) (imm16 : BitVec 16) (s : State) :
    exec (.stwd rt ra imm16) s = execStwd rt ra imm16 s := rfl
@[simp] theorem exec_sthw (rt ra : Reg) (imm16 : BitVec 16) (s : State) :
    exec (.sthw rt ra imm16) s = execSthw rt ra imm16 s := rfl
@[simp] theorem exec_stsb (rt ra : Reg) (imm16 : BitVec 16) (s : State) :
    exec (.stsb rt ra imm16) s = execStsb rt ra imm16 s := rfl

end Sys2Proof.Machine
end

