-- ==== Sys2Proof/Laws/Operands.lean ====
section
/-!
SUPPORT. The shift primitives and flag computations as arithmetic on numbers (40_logical.md R70, R71; 10_state.md R21).
-/

namespace Sys2Proof.Machine

/-! ## Shifts -/

/-- `shl(v, k) = (u(v) * 2^k) mod 2^32`, at every amount. -/
theorem toNat_shl (v : Word) (k : Nat) : (shl v k).toNat = v.toNat * 2 ^ k % 2 ^ 32 := by
  unfold shl
  split
  · simp [BitVec.toNat_shiftLeft, Nat.shiftLeft_eq]
  · obtain ⟨j, rfl⟩ := Nat.exists_eq_add_of_le (Nat.le_of_not_lt ‹_›)
    rw [Nat.pow_add, Nat.mul_left_comm]; simp

/-- `shr(v, k) = floor(u(v) / 2^k)`, at every amount. -/
theorem toNat_shr (v : Word) (k : Nat) : (shr v k).toNat = v.toNat / 2 ^ k := by
  unfold shr
  split
  · simp [BitVec.toNat_ushiftRight, Nat.shiftRight_eq_div_pow]
  · have h1 : 2 ^ 32 ≤ 2 ^ k := Nat.pow_le_pow_right (by decide) (Nat.le_of_not_lt ‹_›)
    have h2 := v.isLt
    simp only [BitVec.toNat_ofNat, Nat.zero_mod]
    exact (Nat.div_eq_of_lt (by omega)).symm

/-- `sar(v, k) = floor(s(v) / 2^k)`, at every amount. -/
theorem toInt_sar (v : Word) (k : Nat) : (sar v k).toInt = v.toInt / 2 ^ k := by
  unfold sar
  split
  · simp [BitVec.toInt_sshiftRight, Int.shiftRight_eq_div_pow]
  · have h1 : (2 : Int) ^ 32 ≤ 2 ^ k := by
      exact_mod_cast Nat.pow_le_pow_right (by decide : 2 > 0) (Nat.le_of_not_lt ‹_›)
    have h2 := v.toInt_lt
    have h3 := v.le_toInt
    cases hm : v.msb
    · have h4 : 0 ≤ v.toInt := by
        rw [BitVec.toInt_eq_msb_cond, hm]; simp
      rw [Int.ediv_eq_zero_of_lt h4 (by norm_num at h2; linarith)]; simp
    · have h4 : v.toInt < 0 := BitVec.toInt_neg_iff.2 (by have := BitVec.msb_eq_true_iff_two_mul_ge.1 hm; omega)
      have h5 : v.toInt / 2 ^ k = -1 := by
        rw [Int.ediv_eq_iff_of_pos (by positivity)]
        norm_num at *
        constructor <;> linarith
      rw [h5]; decide

/-- The three values of `SHIFT_REG_MODE`. -/
theorem shiftAmount_low5 (b : Word) : shiftAmount .low5 b = .ok (b.toNat % 32) := by
  simp [shiftAmount, BitVec.extractLsb'_toNat]

theorem shiftAmount_full (b : Word) : shiftAmount .full b = .ok b.toNat := rfl

theorem shiftAmount_stop (b : Word) :
    shiftAmount .stop b = if b.toNat < 32 then .ok b.toNat else .error (.shiftRange b.toNat) := rfl

/-! ## Flags -/

@[simp] theorem computeFlags_n (c : Config) (q : FlagRequest) (n z cy ov : Bool) :
    (computeFlags c q n z cy ov).n = n := by
  unfold computeFlags; split <;> rfl

@[simp] theorem computeFlags_z (c : Config) (q : FlagRequest) (n z cy ov : Bool) :
    (computeFlags c q n z cy ov).z = z := by
  unfold computeFlags; split <;> rfl

/-- Under `FLAGS` = `table` all four flags are the table's. -/
theorem computeFlags_table {c : Config} (h : c.flagsMode = .table) (q : FlagRequest) (n z cy ov : Bool) :
    computeFlags c q n z cy ov = ⟨n, ov, cy, z⟩ := by
  simp [computeFlags, h]

end Sys2Proof.Machine
end

