-- ==== Sys2Proof/Laws/PerInstr.lean ====
section
/-!
SUPPORT. Per-instruction laws: the fields of an instruction's word select that instruction, and every unused field is zero
(30_encoding.md R58, R59, R61).
-/

namespace Sys2Proof.Laws.EncodedFields

/-- The word of an instruction reads back as that instruction in the opcode maps, and its unused fields are zero. -/
def Statement (i : Instr) : Prop :=
  ∀ c : Config, decodeFields (fieldsOf c.rLayout (encode c i)) = some i ∧
    unusedNonzero (fieldsOf c.rLayout (encode c i)) i = false

/-- An instruction's statement from the fields of its word. -/
theorem of_fields {i : Instr} {f : Config → Fields} (hf : ∀ c, fieldsOf c.rLayout (encode c i) = f c)
    (hd : ∀ c, decodeFields (f c) = some i) (hu : ∀ c, unusedNonzero (f c) i = false) : Statement i :=
  fun c => (hf c).symm ▸ ⟨hd c, hu c⟩

theorem sllr (rt ra rb : Reg) : Statement (.sllr rt ra rb) :=
  of_fields (fun c => fieldsOf_encodeR c.rLayout 0x00#6 rt ra rb 0#5) (fun _ => rfl) (fun _ => rfl)

theorem slrf (rt ra rb : Reg) : Statement (.slrf rt ra rb) :=
  of_fields (fun c => fieldsOf_encodeR c.rLayout 0x01#6 rt ra rb 0#5) (fun _ => rfl) (fun _ => rfl)

theorem srlr (rt ra rb : Reg) : Statement (.srlr rt ra rb) :=
  of_fields (fun c => fieldsOf_encodeR c.rLayout 0x02#6 rt ra rb 0#5) (fun _ => rfl) (fun _ => rfl)

theorem srrf (rt ra rb : Reg) : Statement (.srrf rt ra rb) :=
  of_fields (fun c => fieldsOf_encodeR c.rLayout 0x03#6 rt ra rb 0#5) (fun _ => rfl) (fun _ => rfl)

theorem srar (rt ra rb : Reg) : Statement (.srar rt ra rb) :=
  of_fields (fun c => fieldsOf_encodeR c.rLayout 0x04#6 rt ra rb 0#5) (fun _ => rfl) (fun _ => rfl)

theorem sras (rt ra rb : Reg) : Statement (.sras rt ra rb) :=
  of_fields (fun c => fieldsOf_encodeR c.rLayout 0x05#6 rt ra rb 0#5) (fun _ => rfl) (fun _ => rfl)

theorem slli (rt ra : Reg) (imm5 : BitVec 5) : Statement (.slli rt ra imm5) :=
  of_fields (fun c => fieldsOf_encodeR c.rLayout 0x06#6 rt ra 0#5 imm5) (fun _ => rfl) (fun _ => rfl)

theorem slif (rt ra : Reg) (imm5 : BitVec 5) : Statement (.slif rt ra imm5) :=
  of_fields (fun c => fieldsOf_encodeR c.rLayout 0x07#6 rt ra 0#5 imm5) (fun _ => rfl) (fun _ => rfl)

theorem srli (rt ra : Reg) (imm5 : BitVec 5) : Statement (.srli rt ra imm5) :=
  of_fields (fun c => fieldsOf_encodeR c.rLayout 0x08#6 rt ra 0#5 imm5) (fun _ => rfl) (fun _ => rfl)

theorem srif (rt ra : Reg) (imm5 : BitVec 5) : Statement (.srif rt ra imm5) :=
  of_fields (fun c => fieldsOf_encodeR c.rLayout 0x09#6 rt ra 0#5 imm5) (fun _ => rfl) (fun _ => rfl)

theorem srai (rt ra : Reg) (imm5 : BitVec 5) : Statement (.srai rt ra imm5) :=
  of_fields (fun c => fieldsOf_encodeR c.rLayout 0x0a#6 rt ra 0#5 imm5) (fun _ => rfl) (fun _ => rfl)

theorem sraj (rt ra : Reg) (imm5 : BitVec 5) : Statement (.sraj rt ra imm5) :=
  of_fields (fun c => fieldsOf_encodeR c.rLayout 0x0b#6 rt ra 0#5 imm5) (fun _ => rfl) (fun _ => rfl)

theorem andr (rt ra rb : Reg) : Statement (.andr rt ra rb) :=
  of_fields (fun c => fieldsOf_encodeR c.rLayout 0x0c#6 rt ra rb 0#5) (fun _ => rfl) (fun _ => rfl)

theorem adrf (rt ra rb : Reg) : Statement (.adrf rt ra rb) :=
  of_fields (fun c => fieldsOf_encodeR c.rLayout 0x0d#6 rt ra rb 0#5) (fun _ => rfl) (fun _ => rfl)

theorem orrr (rt ra rb : Reg) : Statement (.orrr rt ra rb) :=
  of_fields (fun c => fieldsOf_encodeR c.rLayout 0x0e#6 rt ra rb 0#5) (fun _ => rfl) (fun _ => rfl)

theorem orrf (rt ra rb : Reg) : Statement (.orrf rt ra rb) :=
  of_fields (fun c => fieldsOf_encodeR c.rLayout 0x0f#6 rt ra rb 0#5) (fun _ => rfl) (fun _ => rfl)

theorem notr (rt ra : Reg) : Statement (.notr rt ra) :=
  of_fields (fun c => fieldsOf_encodeR c.rLayout 0x10#6 rt ra 0#5 0#5) (fun _ => rfl) (fun _ => rfl)

theorem notf (rt ra : Reg) : Statement (.notf rt ra) :=
  of_fields (fun c => fieldsOf_encodeR c.rLayout 0x11#6 rt ra 0#5 0#5) (fun _ => rfl) (fun _ => rfl)

theorem xorr (rt ra rb : Reg) : Statement (.xorr rt ra rb) :=
  of_fields (fun c => fieldsOf_encodeR c.rLayout 0x12#6 rt ra rb 0#5) (fun _ => rfl) (fun _ => rfl)

theorem xorf (rt ra rb : Reg) : Statement (.xorf rt ra rb) :=
  of_fields (fun c => fieldsOf_encodeR c.rLayout 0x13#6 rt ra rb 0#5) (fun _ => rfl) (fun _ => rfl)

theorem andi (rt ra : Reg) (imm16 : BitVec 16) : Statement (.andi rt ra imm16) :=
  of_fields (fun c => fieldsOf_encodeI c.rLayout 0x01#6 rt ra imm16) (fun _ => rfl) (fun _ => rfl)

theorem orri (rt ra : Reg) (imm16 : BitVec 16) : Statement (.orri rt ra imm16) :=
  of_fields (fun c => fieldsOf_encodeI c.rLayout 0x02#6 rt ra imm16) (fun _ => rfl) (fun _ => rfl)

theorem xori (rt ra : Reg) (imm16 : BitVec 16) : Statement (.xori rt ra imm16) :=
  of_fields (fun c => fieldsOf_encodeI c.rLayout 0x03#6 rt ra imm16) (fun _ => rfl) (fun _ => rfl)

theorem addr (rt ra rb : Reg) : Statement (.addr rt ra rb) :=
  of_fields (fun c => fieldsOf_encodeR c.rLayout 0x14#6 rt ra rb 0#5) (fun _ => rfl) (fun _ => rfl)

theorem addf (rt ra rb : Reg) : Statement (.addf rt ra rb) :=
  of_fields (fun c => fieldsOf_encodeR c.rLayout 0x15#6 rt ra rb 0#5) (fun _ => rfl) (fun _ => rfl)

theorem subr (rt ra rb : Reg) : Statement (.subr rt ra rb) :=
  of_fields (fun c => fieldsOf_encodeR c.rLayout 0x16#6 rt ra rb 0#5) (fun _ => rfl) (fun _ => rfl)

theorem subf (rt ra rb : Reg) : Statement (.subf rt ra rb) :=
  of_fields (fun c => fieldsOf_encodeR c.rLayout 0x17#6 rt ra rb 0#5) (fun _ => rfl) (fun _ => rfl)

theorem mulr (rt ra rb : Reg) : Statement (.mulr rt ra rb) :=
  of_fields (fun c => fieldsOf_encodeR c.rLayout 0x18#6 rt ra rb 0#5) (fun _ => rfl) (fun _ => rfl)

theorem mulf (rt ra rb : Reg) : Statement (.mulf rt ra rb) :=
  of_fields (fun c => fieldsOf_encodeR c.rLayout 0x19#6 rt ra rb 0#5) (fun _ => rfl) (fun _ => rfl)

theorem divr (rt ra rb : Reg) : Statement (.divr rt ra rb) :=
  of_fields (fun c => fieldsOf_encodeR c.rLayout 0x1a#6 rt ra rb 0#5) (fun _ => rfl) (fun _ => rfl)

theorem divf (rt ra rb : Reg) : Statement (.divf rt ra rb) :=
  of_fields (fun c => fieldsOf_encodeR c.rLayout 0x1b#6 rt ra rb 0#5) (fun _ => rfl) (fun _ => rfl)

theorem rdep (rt : Reg) : Statement (.rdep rt) :=
  of_fields (fun c => fieldsOf_encodeR c.rLayout 0x1c#6 rt 0#5 0#5 0#5) (fun _ => rfl) (fun _ => rfl)

theorem wrep (ra : Reg) : Statement (.wrep ra) :=
  of_fields (fun c => fieldsOf_encodeR c.rLayout 0x1d#6 0#5 ra 0#5 0#5) (fun _ => rfl) (fun _ => rfl)

theorem jmpr (ra rb : Reg) (imm5 : BitVec 5) : Statement (.jmpr ra rb imm5) :=
  of_fields (fun c => fieldsOf_encodeR c.rLayout 0x1e#6 0#5 ra rb imm5) (fun _ => rfl) (fun _ => rfl)

theorem jalr (ra rb : Reg) (imm5 : BitVec 5) : Statement (.jalr ra rb imm5) :=
  of_fields (fun c => fieldsOf_encodeR c.rLayout 0x1f#6 0#5 ra rb imm5) (fun _ => rfl) (fun _ => rfl)

theorem jmpi (imm26 : BitVec 26) : Statement (.jmpi imm26) :=
  of_fields (fun c => fieldsOf_encodeJ c.rLayout 0x05#6 imm26) (fun _ => rfl) (fun _ => rfl)

theorem jali (imm26 : BitVec 26) : Statement (.jali imm26) :=
  of_fields (fun c => fieldsOf_encodeJ c.rLayout 0x06#6 imm26) (fun _ => rfl) (fun _ => rfl)

theorem brnr (rt : Reg) (imm21 : BitVec 21) : Statement (.brnr rt imm21) :=
  of_fields (fun c => fieldsOf_encodeB c.rLayout 0x07#6 rt imm21) (fun _ => rfl) (fun _ => rfl)

theorem bror (rt : Reg) (imm21 : BitVec 21) : Statement (.bror rt imm21) :=
  of_fields (fun c => fieldsOf_encodeB c.rLayout 0x08#6 rt imm21) (fun _ => rfl) (fun _ => rfl)

theorem brcr (rt : Reg) (imm21 : BitVec 21) : Statement (.brcr rt imm21) :=
  of_fields (fun c => fieldsOf_encodeB c.rLayout 0x09#6 rt imm21) (fun _ => rfl) (fun _ => rfl)

theorem brzr (rt : Reg) (imm21 : BitVec 21) : Statement (.brzr rt imm21) :=
  of_fields (fun c => fieldsOf_encodeB c.rLayout 0x0a#6 rt imm21) (fun _ => rfl) (fun _ => rfl)

theorem brne (rt ra : Reg) (imm16 : BitVec 16) : Statement (.brne rt ra imm16) :=
  of_fields (fun c => fieldsOf_encodeI c.rLayout 0x0b#6 rt ra imm16) (fun _ => rfl) (fun _ => rfl)

theorem brgt (rt ra : Reg) (imm16 : BitVec 16) : Statement (.brgt rt ra imm16) :=
  of_fields (fun c => fieldsOf_encodeI c.rLayout 0x0c#6 rt ra imm16) (fun _ => rfl) (fun _ => rfl)

theorem ldui (rt : Reg) (imm16 : BitVec 16) : Statement (.ldui rt imm16) :=
  of_fields (fun c => fieldsOf_encodeI c.rLayout 0x0d#6 rt 0#5 imm16) (fun _ => rfl) (fun _ => rfl)

theorem ldwd (rt ra : Reg) (imm16 : BitVec 16) : Statement (.ldwd rt ra imm16) :=
  of_fields (fun c => fieldsOf_encodeI c.rLayout 0x0e#6 rt ra imm16) (fun _ => rfl) (fun _ => rfl)

theorem ldhs (rt ra : Reg) (imm16 : BitVec 16) : Statement (.ldhs rt ra imm16) :=
  of_fields (fun c => fieldsOf_encodeI c.rLayout 0x0f#6 rt ra imm16) (fun _ => rfl) (fun _ => rfl)

theorem ldhu (rt ra : Reg) (imm16 : BitVec 16) : Statement (.ldhu rt ra imm16) :=
  of_fields (fun c => fieldsOf_encodeI c.rLayout 0x10#6 rt ra imm16) (fun _ => rfl) (fun _ => rfl)

theorem ldbs (rt ra : Reg) (imm16 : BitVec 16) : Statement (.ldbs rt ra imm16) :=
  of_fields (fun c => fieldsOf_encodeI c.rLayout 0x11#6 rt ra imm16) (fun _ => rfl) (fun _ => rfl)

theorem ldbu (rt ra : Reg) (imm16 : BitVec 16) : Statement (.ldbu rt ra imm16) :=
  of_fields (fun c => fieldsOf_encodeI c.rLayout 0x12#6 rt ra imm16) (fun _ => rfl) (fun _ => rfl)

theorem stwd (rt ra : Reg) (imm16 : BitVec 16) : Statement (.stwd rt ra imm16) :=
  of_fields (fun c => fieldsOf_encodeI c.rLayout 0x13#6 rt ra imm16) (fun _ => rfl) (fun _ => rfl)

theorem sthw (rt ra : Reg) (imm16 : BitVec 16) : Statement (.sthw rt ra imm16) :=
  of_fields (fun c => fieldsOf_encodeI c.rLayout 0x14#6 rt ra imm16) (fun _ => rfl) (fun _ => rfl)

theorem stsb (rt ra : Reg) (imm16 : BitVec 16) : Statement (.stsb rt ra imm16) :=
  of_fields (fun c => fieldsOf_encodeI c.rLayout 0x15#6 rt ra imm16) (fun _ => rfl) (fun _ => rfl)

end Sys2Proof.Laws.EncodedFields
end

