-- ==== Sys2Proof/Tests/Slice0.lean ====
section
/-!
SUPPORT. Tests of the model, each expected value taken from spec/95_test_vectors.md (named as its section there) or worked
out from the rule named; then, for every statement with hypotheses, a state and operands that meet them.
-/

namespace Sys2Proof.Tests

open Sys2Proof.Machine

/-! ## Helpers -/

/-- A state with some registers set. -/
def withRegs (s : State) (regs : List (Reg × Word)) : State := regs.foldl (fun s p => s.writeReg p.1 p.2) s

/-- Reset with some registers set. -/
def regs (l : List (Reg × Word)) : State := withRegs State.reset l

/-- A view of the next state, if there is one. -/
def look {α : Type} (f : State → α) : Result → Option α
  | .next t => some (f t)
  | .fault _ => none
  | .refused _ => none

/-- The fault, if there is one. -/
def faultOf : Result → Option Fault
  | .next _ => none
  | .fault f => some f
  | .refused _ => none

/-- The refusal, if there is one. -/
def refusalOf : Result → Option Refusal
  | .next _ => none
  | .fault _ => none
  | .refused r => some r

/-- `x[3]`, the target of most tests. -/
def r3 (i : Instr) (s : State) : Option Word := look (fun t => t.readReg 3#5) (exec i s)

/-- `x[3]` and the flags N, O, C, Z. -/
def r3f (i : Instr) (s : State) : Option (Word × Flags) := look (fun t => (t.readReg 3#5, t.flags)) (exec i s)

/-- `x[3]` and `ep`. -/
def r3e (i : Instr) (s : State) : Option (Word × Word) := look (fun t => (t.readReg 3#5, t.ep)) (exec i s)

/-- `x[3]`, `ep` and the flags. -/
def r3ef (i : Instr) (s : State) : Option (Word × Word × Flags) :=
  look (fun t => (t.readReg 3#5, t.ep, t.flags)) (exec i s)

/-- `pc` and `x[31]`. -/
def pcLink (i : Instr) (s : State) : Option (Word × Word) := look (fun t => (t.pc, t.readReg 31#5)) (exec i s)

/-- `pc`. -/
def pcOf (i : Instr) (s : State) : Option Word := look State.pc (exec i s)

/-- The bytes at 0x0FFF..0x1005. -/
def bytesNear (i : Instr) (s : State) : Option (List Byte) :=
  look (fun t => [0xFFF#32, 0x1000#32, 0x1001#32, 0x1002#32, 0x1003#32, 0x1004#32].map t.mem.read) (exec i s)

/-- The reset parameters with one changed. -/
def fullShift : Config := { defaultConfig with shiftRegMode := .full }
def stopShift : Config := { defaultConfig with shiftRegMode := .stop }
def ignoring : Config := { defaultConfig with unusedFieldMode := .ignore }
def notBorrowing : Config := { defaultConfig with subCarry := .notBorrow }
def unsignedMul : Config := { defaultConfig with mulSigned := false }
def unsignedDiv : Config := { defaultConfig with divSigned := false }
def stoppingDiv : Config := { defaultConfig with divCorner := .stop }
def unsignedBrgt : Config := { defaultConfig with brgtSigned := false }
def newLink : Config := { defaultConfig with jalrR31Mode := .new }
def refusedLink : Config := { defaultConfig with jalrR31Mode := .refuse }
def maskedPc : Config := { defaultConfig with pcAlignMode := .mask }
def otherLayout : Config := { defaultConfig with rLayout := .op1Imm5Rb }

/-- RAM below 0x2000, a device at 0x2000..0x200F, nothing above. -/
def mapped : Config := { defaultConfig with memoryMap := [⟨0, 0x2000, .ram⟩, ⟨0x2000, 0x10, .io⟩] }

/-! ## Well-formedness: the one check, refused for each field it looks at -/

theorem test_jalr_of_link_register_in_ra_is_ill_formed : wellFormed refusedLink (.jalr 31#5 0#5 0#5) = false := by decide

theorem test_jalr_of_link_register_in_rb_is_ill_formed : wellFormed refusedLink (.jalr 0#5 31#5 0#5) = false := by decide

theorem test_other_jalr_is_well_formed :
    wellFormed refusedLink (.jalr 1#5 2#5 31#5) = true ∧ wellFormed defaultConfig (.jalr 31#5 31#5 0#5) = true := by decide

/-! ## Decoding: words written bit by bit from 30_encoding.md R52 to R59, in the fields' order (section 2.1) -/

/-- op0 rt ra rb imm5 op1 (R52). -/
def shiftWords : List (Instr × Word) :=
  [(.sllr 3 1 2, 0b000000_00011_00001_00010_00000_000000),
   (.slrf 3 1 2, 0b000000_00011_00001_00010_00000_000001),
   (.srlr 3 1 2, 0b000000_00011_00001_00010_00000_000010),
   (.srrf 3 1 2, 0b000000_00011_00001_00010_00000_000011),
   (.srar 3 1 2, 0b000000_00011_00001_00010_00000_000100),
   (.sras 3 1 2, 0b000000_00011_00001_00010_00000_000101),
   (.slli 3 1 4, 0b000000_00011_00001_00000_00100_000110),
   (.slif 3 1 4, 0b000000_00011_00001_00000_00100_000111),
   (.srli 3 1 4, 0b000000_00011_00001_00000_00100_001000),
   (.srif 3 1 4, 0b000000_00011_00001_00000_00100_001001),
   (.srai 3 1 4, 0b000000_00011_00001_00000_00100_001010),
   (.sraj 3 1 4, 0b000000_00011_00001_00000_00100_001011)]

def logicalWords : List (Instr × Word) :=
  [(.andr 3 1 2, 0b000000_00011_00001_00010_00000_001100),
   (.adrf 3 1 2, 0b000000_00011_00001_00010_00000_001101),
   (.orrr 3 1 2, 0b000000_00011_00001_00010_00000_001110),
   (.orrf 3 1 2, 0b000000_00011_00001_00010_00000_001111),
   (.notr 3 1, 0b000000_00011_00001_00000_00000_010000),
   (.notf 3 1, 0b000000_00011_00001_00000_00000_010001),
   (.xorr 3 1 2, 0b000000_00011_00001_00010_00000_010010),
   (.xorf 3 1 2, 0b000000_00011_00001_00010_00000_010011)]

def arithmeticWords : List (Instr × Word) :=
  [(.addr 3 1 2, 0b000000_00011_00001_00010_00000_010100),
   (.addf 3 1 2, 0b000000_00011_00001_00010_00000_010101),
   (.subr 3 1 2, 0b000000_00011_00001_00010_00000_010110),
   (.subf 3 1 2, 0b000000_00011_00001_00010_00000_010111),
   (.mulr 3 1 2, 0b000000_00011_00001_00010_00000_011000),
   (.mulf 3 1 2, 0b000000_00011_00001_00010_00000_011001),
   (.divr 3 1 2, 0b000000_00011_00001_00010_00000_011010),
   (.divf 3 1 2, 0b000000_00011_00001_00010_00000_011011),
   (.rdep 3, 0b000000_00011_00000_00000_00000_011100),
   (.wrep 1, 0b000000_00000_00001_00000_00000_011101)]

def jumpRegisterWords : List (Instr × Word) :=
  [(.jmpr 1 2 2, 0b000000_00000_00001_00010_00010_011110),
   (.jalr 1 2 2, 0b000000_00000_00001_00010_00010_011111)]

/-- op0 imm26 (R55), op0 rt imm21 (R54), op0 rt ra imm16 (R53). -/
def controlWords : List (Instr × Word) :=
  [(.jmpi (-2), 0b000101_11111111111111111111111110),
   (.jali 0x100, 0b000110_00000000000000000100000000),
   (.brnr 5 (-4), 0b000111_00101_111111111111111111100),
   (.bror 5 (-4), 0b001000_00101_111111111111111111100),
   (.brcr 5 (-4), 0b001001_00101_111111111111111111100),
   (.brzr 5 (-4), 0b001010_00101_111111111111111111100),
   (.brne 1 2 16, 0b001011_00001_00010_0000000000010000),
   (.brgt 1 2 16, 0b001100_00001_00010_0000000000010000)]

/-- op0 rt ra imm16 (R53). -/
def immediateWords : List (Instr × Word) :=
  [(.andi 3 1 0xF0F0, 0b000001_00011_00001_1111000011110000),
   (.orri 3 1 0xF0F0, 0b000010_00011_00001_1111000011110000),
   (.xori 3 1 0xF0F0, 0b000011_00011_00001_1111000011110000),
   (.ldui 3 0x1234, 0b001101_00011_00000_0001001000110100),
   (.ldwd 3 1 (-4), 0b001110_00011_00001_1111111111111100),
   (.ldhs 3 1 (-4), 0b001111_00011_00001_1111111111111100),
   (.ldhu 3 1 (-4), 0b010000_00011_00001_1111111111111100),
   (.ldbs 3 1 (-4), 0b010001_00011_00001_1111111111111100),
   (.ldbu 3 1 (-4), 0b010010_00011_00001_1111111111111100),
   (.stwd 3 1 (-4), 0b010011_00011_00001_1111111111111100),
   (.sthw 3 1 (-4), 0b010100_00011_00001_1111111111111100),
   (.stsb 3 1 (-4), 0b010101_00011_00001_1111111111111100)]

/-- The decoder reads the word as the instruction and the encoder writes it. -/
def bothWays (p : Instr × Word) : Bool :=
  decide (decodeTableWord 32 p.2.toNat = some p.1) && decide (encode defaultConfig p.1 = p.2)

theorem test_shift_words : shiftWords.all bothWays = true := by decide
theorem test_logical_words : logicalWords.all bothWays = true := by decide
theorem test_arithmetic_words : arithmeticWords.all bothWays = true := by decide
theorem test_jump_register_words : jumpRegisterWords.all bothWays = true := by decide
theorem test_control_words : controlWords.all bothWays = true := by decide
theorem test_immediate_words : immediateWords.all bothWays = true := by decide

/-- op0 rt ra op1 imm5 rb: another order of the R-type fields (R52). -/
theorem test_other_layout :
    decode otherLayout 0b000000_00011_00001_010100_00000_00010 = .ok (.addr 3 1 2) ∧
    decode otherLayout 0b000000_00011_00001_000110_00100_00000 = .ok (.slli 3 1 4) := by decide

/-- Section 2.1, decode corner cases. -/
theorem test_unassigned_opcodes :
    [0x10000000#32, 0x58000000#32, 0xFFFFFFFF#32, 0x00000020#32, 0x0000003F#32].all
      (fun w => decide (decode defaultConfig w = .error (.illegalInstruction w))) = true := by decide

theorem test_unused_fields_refused :
    [0x00000040#32, 0x00610810#32, 0x34611234#32].all
      (fun w => decide (decode defaultConfig w = .error (.reservedField w))) = true := by decide

theorem test_unused_fields_ignored :
    decode ignoring 0x00000040 = .ok (.sllr 0 0 0) ∧ decode ignoring 0x00610810 = .ok (.notr 3 1) ∧
    decode ignoring 0x34611234 = .ok (.ldui 3 0x1234) := by decide

theorem test_three_bytes_are_no_instruction :
    decodeBytes defaultConfig [0x14#8, 0x10#8, 0x61#8] = .error (.tooShort 3) := by decide

/-! ## Steps -/

/-- Section 2.4's ADDR as the first instruction after reset. -/
theorem test_step_runs_placed_word :
    look (fun t => (t.readReg 3#5, t.pc)) (step ((regs [(1, 5), (2, 7)]).withFetchWord 32 0x00611014)) =
      some (12#32, 4#32) := by decide

theorem test_step_on_empty_memory_is_nop : look State.pc (step State.reset) = some 4#32 := by decide

theorem test_step_misaligned_stops :
    faultOf (step (State.reset.setPc 0x1002#32)) = some (.misalignedFetch 0x1002#32) := by decide

theorem test_step_misaligned_masked :
    look State.pc (step { State.reset with pc := 0x1002#32, config := maskedPc }) = some 0x1004#32 := by decide

theorem test_step_illegal :
    faultOf (step (State.reset.withFetchWord 32 0x10000000)) = some (.illegalInstruction 0x10000000#32) := by decide

theorem test_step_reserved :
    refusalOf (step (State.reset.withFetchWord 32 0x00000040)) = some (.reservedField 0x00000040#32) := by decide

theorem test_step_unmapped :
    faultOf (step { State.reset with pc := 0x2010#32, config := mapped }) = some (.unmappedAccess 0x2010#32) := by decide

/-- The image's bytes are the program's (10_state.md R25). -/
theorem test_boot_runs_image :
    look (fun t => t.readReg 3#5) (step (bootState defaultConfig [(0, 0x78), (1, 0x56), (2, 0x60), (3, 0x08)])) =
      some 0x5678#32 := by decide

theorem test_boot_of_nothing_is_reset : bootState defaultConfig [] = State.reset := by decide

theorem test_reset_pc_admissible : resetPcAdmissible defaultConfig = true ∧
    resetPcAdmissible { defaultConfig with resetPc := 2#32 } = false ∧
    resetPcAdmissible { mapped with resetPc := 0x2000#32 } = false := by decide

/-- The whole first word must be RAM, in any regions: the model's choice (log 30). -/
theorem test_reset_pc_admissible_whole_word :
    resetPcAdmissible { mapped with resetPc := 0#32, memoryMap := [⟨0, 3, .ram⟩] } = false ∧
    resetPcAdmissible { mapped with resetPc := 0#32, memoryMap := [⟨0, 3, .ram⟩, ⟨3, 1, .ram⟩] } = true := by decide

/-! ## Logical instructions (sections 2.2, 2.3) -/

def shiftRegs (v k : Word) : State := regs [(1, v), (2, k)]

theorem test_sllr : r3 (.sllr 3 1 2) (shiftRegs 0x80000001 31) = some 0x80000000#32 ∧
    r3 (.sllr 3 1 2) (shiftRegs 0x80000001 33) = some 0x00000002#32 ∧
    r3 (.sllr 3 1 2) { shiftRegs 0x80000001 33 with config := fullShift } = some 0#32 := by decide
theorem test_sllr_out_of_range :
    faultOf (exec (.sllr 3 1 2) { shiftRegs 0x80000001 32 with config := stopShift }) = some (.shiftRange 32) := by decide
theorem test_srlr : r3 (.srlr 3 1 2) (shiftRegs 0x80000001 31) = some 0x00000001#32 ∧
    r3 (.srlr 3 1 2) { shiftRegs 0x80000001 32 with config := fullShift } = some 0#32 := by decide
theorem test_srar : r3 (.srar 3 1 2) (shiftRegs 0x80000001 1) = some 0xC0000000#32 ∧
    r3 (.srar 3 1 2) { shiftRegs 0x80000001 32 with config := fullShift } = some 0xFFFFFFFF#32 := by decide
theorem test_slrf : r3f (.slrf 3 1 2) (shiftRegs 0x80000001 1) = some (2#32, ⟨false, false, false, false⟩) := by decide
theorem test_srrf : r3f (.srrf 3 1 2) (shiftRegs 0x0000FFFF 16) = some (0#32, ⟨false, false, false, true⟩) := by decide
theorem test_sras : r3f (.sras 3 1 2) (shiftRegs 0x80000001 31) = some (0xFFFFFFFF#32, ⟨true, false, false, false⟩) := by
  decide
theorem test_slli : r3 (.slli 3 1 4) (shiftRegs 0x12345678 0) = some 0x23456780#32 := by decide
theorem test_slli_same_register :
    look (fun t => t.readReg 1#5) (exec (.slli 1 1 4) (shiftRegs 0x12345678 0)) = some 0x23456780#32 := by decide
theorem test_srli : r3 (.srli 3 1 1) (shiftRegs 0x80000001 0) = some 0x40000000#32 := by decide
theorem test_srai : r3 (.srai 3 1 31) (shiftRegs 0x80000001 0) = some 0xFFFFFFFF#32 := by decide
theorem test_slif_to_r0 :
    look (fun t => (t.readReg 0#5, t.flags)) (exec (.slif 0 1 4) (shiftRegs 0x10000000 0)) =
      some (0#32, ⟨false, false, false, true⟩) := by decide
theorem test_srif : r3f (.srif 3 1 4) (shiftRegs 0x12345678 0) = some (0x01234567#32, ⟨false, false, false, false⟩) := by
  decide
theorem test_sraj : r3f (.sraj 3 1 1) (shiftRegs 0x80000001 0) = some (0xC0000000#32, ⟨true, false, false, false⟩) := by
  decide

/-- Section 2.3's operands, with C and O set so that a change of them would show. -/
def ab : State := (regs [(1, 0xFF00FF00), (2, 0x0FF00FF0)]).setFlags ⟨false, true, true, false⟩

theorem test_andr : r3f (.andr 3 1 2) ab = some (0x0F000F00#32, ⟨false, true, true, false⟩) := by decide
theorem test_adrf : r3f (.adrf 3 1 2) ab = some (0x0F000F00#32, ⟨false, true, true, false⟩) := by decide
theorem test_orrr : r3f (.orrr 3 1 2) ab = some (0xFFF0FFF0#32, ⟨false, true, true, false⟩) := by decide
theorem test_orrf : r3f (.orrf 3 1 2) ab = some (0xFFF0FFF0#32, ⟨true, true, true, false⟩) := by decide
theorem test_notr : r3f (.notr 3 1) ab = some (0x00FF00FF#32, ⟨false, true, true, false⟩) := by decide
theorem test_notf : r3f (.notf 3 1) (regs [(1, 0xFFFFFFFF)]) = some (0#32, ⟨false, false, false, true⟩) := by decide
theorem test_xorr : r3f (.xorr 3 1 2) ab = some (0xF0F0F0F0#32, ⟨false, true, true, false⟩) := by decide
theorem test_xorf : r3f (.xorf 3 1 2) ab = some (0xF0F0F0F0#32, ⟨true, true, true, false⟩) := by decide
theorem test_xorf_to_r0 : r3f (.xorf 0 1 1) ab = some (0#32, ⟨false, true, true, true⟩) := by decide
theorem test_andi : r3f (.andi 3 1 0xFFFF) (regs [(1, 0xFFFFFFFF)]) =
    some (0x0000FFFF#32, ⟨false, false, false, false⟩) := by decide
theorem test_orri : r3f (.orri 3 1 0xF0F0) ab = some (0xFF00FFF0#32, ⟨true, true, true, false⟩) ∧
    r3f (.orri 3 0 0x8000) ab = some (0x00008000#32, ⟨false, true, true, false⟩) := by decide
theorem test_xori : r3f (.xori 3 1 0xF0F0) ab = some (0xFF000FF0#32, ⟨true, true, true, false⟩) := by decide

/-! ## Arithmetic instructions (sections 2.4 to 2.6); the flags stand in the order N, O, C, Z -/

theorem test_addr : r3f (.addr 3 1 2) (regs [(1, 0x80000000), (2, 0xFFFFFFFF)]) =
    some (0x7FFFFFFF#32, ⟨false, false, false, false⟩) := by decide
theorem test_addf : r3f (.addf 3 1 2) (regs [(1, 0x80000000), (2, 0xFFFFFFFF)]) =
    some (0x7FFFFFFF#32, ⟨false, true, true, false⟩) := by decide
theorem test_addf_overflow : r3f (.addf 3 1 2) (regs [(1, 0x7FFFFFFF), (2, 1)]) =
    some (0x80000000#32, ⟨true, true, false, false⟩) := by decide
theorem test_subr : r3f (.subr 3 1 2) (regs [(1, 5), (2, 7)]) =
    some (0xFFFFFFFE#32, ⟨false, false, false, false⟩) := by decide
theorem test_subf : r3f (.subf 3 1 2) (regs [(1, 0x7FFFFFFF), (2, 0xFFFFFFFF)]) =
    some (0x80000000#32, ⟨true, true, true, false⟩) := by decide
theorem test_subf_not_borrow : r3f (.subf 3 1 2) { regs [(1, 0), (2, 1)] with config := notBorrowing } =
    some (0xFFFFFFFF#32, ⟨true, false, false, false⟩) := by decide

theorem test_mulr : r3e (.mulr 3 1 2) (regs [(1, 0xFFFFFFFF), (2, 7)]) = some (0xFFFFFFF9#32, 0xFFFFFFFF#32) := by decide
theorem test_mulr_unsigned : r3e (.mulr 3 1 2) { regs [(1, 0xFFFFFFFF), (2, 7)] with config := unsignedMul } =
    some (0xFFFFFFF9#32, 0x00000006#32) := by decide
theorem test_mulf : r3ef (.mulf 3 1 2) (regs [(1, 0x80000000), (2, 2)]) =
    some (0#32, 0xFFFFFFFF#32, ⟨true, false, false, false⟩) := by decide
theorem test_mulf_unsigned : r3ef (.mulf 3 1 2) { regs [(1, 0x80000000), (2, 2)] with config := unsignedMul } =
    some (0#32, 0x00000001#32, ⟨false, false, false, false⟩) := by decide

/-- A division of `ep`:`x[1]` by `x[2]`. -/
def divRegs (c : Config) (ep a b : Word) : State := { regs [(1, a), (2, b)] with ep := ep, config := c }

theorem test_divr : r3e (.divr 3 1 2) (divRegs defaultConfig 0xFFFFFFFF 0xFFFFFF9C 0x00000007) =
    some (0xFFFFFFF2#32, 0xFFFFFFFE#32) ∧
    r3e (.divr 3 1 2) (divRegs defaultConfig 0x12345678 0x9ABCDEF0 0x7FFFFFFF) =
    some (0x2468ACF1#32, 0x3F258BE1#32) := by decide
theorem test_divr_corner : faultOf (exec (.divr 3 1 2) (divRegs stoppingDiv 1 0 2)) = some (.divideCorner 1#32 0#32 2#32) ∧
    faultOf (exec (.divr 3 1 2) (divRegs stoppingDiv 0 5 0)) = some (.divideCorner 0#32 5#32 0#32) := by decide
theorem test_divf : r3ef (.divf 3 1 2) (divRegs defaultConfig 0 0x64 0xFFFFFFF9) =
    some (0xFFFFFFF2#32, 2#32, ⟨true, false, false, false⟩) := by decide
theorem test_divf_unsigned : r3ef (.divf 3 1 2) (divRegs unsignedDiv 1 0 2) =
    some (0x80000000#32, 0#32, ⟨true, false, false, false⟩) := by decide
theorem test_rdep : r3e (.rdep 3) (State.reset.setEp 0xCAFEF00D) = some (0xCAFEF00D#32, 0xCAFEF00D#32) := by decide
theorem test_wrep : r3e (.wrep 1) (regs [(1, 0xCAFEF00D)]) = some (0#32, 0xCAFEF00D#32) := by decide

/-! ## Control flow (section 2.7) -/

def atPc (pc : Word) (l : List (Reg × Word)) : State := (regs l).setPc pc

theorem test_jmpr : pcOf (.jmpr 1 2 2) (atPc 0x40 [(1, 0x1000), (2, 3)]) = some 0x100C#32 ∧
    pcOf (.jmpr 1 2 2) (atPc 0x40 [(1, 0xFFFFFFFC), (2, 2)]) = some 4#32 := by decide
theorem test_jmpr_drops_top_bits : pcOf (.jmpr 1 2 2) (atPc 0x40 [(1, 0x1000), (2, 0x40000001)]) = some 0x1004#32 := by
  decide
theorem test_jalr : pcLink (.jalr 1 2 2) (atPc 0x40 [(1, 0x1000), (2, 3)]) = some (0x100C#32, 0x44#32) := by decide
theorem test_jalr_of_link_register :
    pcLink (.jalr 31 0 0) (atPc 0x40 [(31, 0x2000)]) = some (0x2000#32, 0x44#32) ∧
    pcLink (.jalr 31 0 0) { atPc 0x40 [(31, 0x2000)] with config := newLink } = some (0x44#32, 0x44#32) ∧
    refusalOf (exec (.jalr 31 0 0) { atPc 0x40 [(31, 0x2000)] with config := refusedLink }) =
      some (.reservedField 0x001F001F#32) := by decide
theorem test_jmpi : pcOf (.jmpi (-2)) (atPc 0x04 []) = some 0xFFFFFFFC#32 ∧
    pcOf (.jmpi 0x1FFFFFF) (atPc 0 []) = some 0x07FFFFFC#32 ∧
    pcOf (.jmpi 0x2000000) (atPc 0 []) = some 0xF8000000#32 := by decide
theorem test_jali : pcLink (.jali 0x100) (atPc 0x20 []) = some (0x420#32, 0x24#32) ∧
    pcLink (.jali 1) (atPc 0xFFFFFFFC []) = some (0#32, 0#32) := by decide

/-- `pc` = 0x40, `x[5]` = 0x2000 and one flag set, in the order N, O, C, Z. -/
def flagged (f : Flags) : State := (atPc 0x40 [(5, 0x2000)]).setFlags f

theorem test_brnr : pcOf (.brnr 5 (-4)) (flagged ⟨true, false, false, false⟩) = some 0x1FFC#32 ∧
    pcOf (.brnr 5 (-4)) (flagged ⟨false, true, true, true⟩) = some 0x44#32 := by decide
theorem test_bror : pcOf (.bror 5 (-4)) (flagged ⟨false, true, false, false⟩) = some 0x1FFC#32 ∧
    pcOf (.bror 5 (-4)) (flagged ⟨true, false, true, true⟩) = some 0x44#32 := by decide
theorem test_brcr : pcOf (.brcr 5 (-4)) (flagged ⟨false, false, true, false⟩) = some 0x1FFC#32 ∧
    pcOf (.brcr 5 (-4)) (flagged ⟨true, true, false, true⟩) = some 0x44#32 := by decide
theorem test_brzr : pcOf (.brzr 5 (-4)) (flagged ⟨false, false, false, true⟩) = some 0x1FFC#32 ∧
    pcOf (.brzr 5 (-4)) (flagged ⟨true, true, true, false⟩) = some 0x44#32 := by decide
theorem test_brzr_sign_extends : pcOf (.brzr 0 0x100000) (flagged ⟨false, false, false, true⟩) = some 0xFFF00000#32 ∧
    pcOf (.brzr 0 0x0FFFFC) (flagged ⟨false, false, false, true⟩) = some 0x000FFFFC#32 := by decide
theorem test_brne : pcOf (.brne 1 2 16) (atPc 0x40 [(1, 5), (2, 5)]) = some 0x44#32 ∧
    pcOf (.brne 1 0 (-8)) (atPc 0x14 [(1, 4)]) = some 0x0C#32 := by decide
theorem test_brgt : pcOf (.brgt 1 2 16) (atPc 0x40 [(1, 7), (2, 3)]) = some 0x50#32 ∧
    pcOf (.brgt 1 2 16) (atPc 0x40 [(1, 7), (2, 7)]) = some 0x44#32 ∧
    pcOf (.brgt 1 2 16) (atPc 0x40 [(1, 1), (2, 0x80000000)]) = some 0x50#32 := by decide
theorem test_brgt_unsigned :
    pcOf (.brgt 1 2 16) { atPc 0x40 [(1, 1), (2, 0x80000000)] with config := unsignedBrgt } = some 0x44#32 := by decide

/-! ## Loads and stores (section 2.8) -/

/-- Section 2.8's memory, `x[1]` = 0x1004, `x[3]` = 0x11223344. -/
def loaded : State :=
  withRegs (bootState defaultConfig
    [(0x1000, 0xF1), (0x1001, 0x80), (0x1002, 0xC3), (0x1003, 0xA5), (0x1004, 0x7E)]) [(1, 0x1004), (3, 0x11223344)]

theorem test_ldui : r3 (.ldui 3 0x1234) (regs [(3, 0xAAAA5678)]) = some 0x12345678#32 := by decide
theorem test_ldwd : r3 (.ldwd 3 1 (-4)) loaded = some 0xA5C380F1#32 ∧ r3 (.ldwd 3 1 (-3)) loaded = some 0x7EA5C380#32 := by
  decide
theorem test_ldwd_to_its_base : look (fun t => t.readReg 1#5) (exec (.ldwd 1 1 (-4)) loaded) = some 0xA5C380F1#32 := by decide
theorem test_ldhs : r3 (.ldhs 3 1 (-3)) loaded = some 0xFFFFC380#32 ∧ r3 (.ldhs 3 1 (-1)) loaded = some 0x00007EA5#32 := by
  decide
theorem test_ldhu : r3 (.ldhu 3 1 (-4)) loaded = some 0x000080F1#32 := by decide
theorem test_ldbs : r3 (.ldbs 3 1 (-4)) loaded = some 0xFFFFFFF1#32 ∧ r3 (.ldbs 3 1 0) loaded = some 0x7E#32 := by decide
theorem test_ldbu : r3 (.ldbu 3 1 (-4)) loaded = some 0xF1#32 := by decide
theorem test_stwd : bytesNear (.stwd 3 1 (-3)) loaded = some [0, 0xF1, 0x44, 0x33, 0x22, 0x11] := by decide
theorem test_stwd_wraps :
    look (fun t => [0xFFFFFFFE#32, 0xFFFFFFFF#32, 0#32, 1#32].map t.mem.read) (exec (.stwd 3 0 (-2)) loaded) =
      some [0x44, 0x33, 0x22, 0x11] := by decide
theorem test_sthw : bytesNear (.sthw 3 1 (-4)) loaded = some [0, 0x44, 0x33, 0xC3, 0xA5, 0x7E] := by decide
theorem test_stsb : bytesNear (.stsb 3 1 (-4)) loaded = some [0, 0x44, 0x80, 0xC3, 0xA5, 0x7E] := by decide

/-- A store that ends in nothing changes nothing (20_memory.md R39), and the stop names the first such byte. -/
theorem test_stwd_unmapped :
    faultOf (exec (.stwd 3 1 0) { regs [(1, 0x200E), (3, 1)] with config := mapped }) = some (.unmappedAccess 0x2010#32) := by decide

/-- Half in RAM, half in a device: the RAM bytes change, the device gets its own (20_memory.md R38). -/
theorem test_stwd_across_device :
    look (fun t => (t.mem, t.ioLog)) (exec (.stwd 3 1 0) { regs [(1, 0x1FFE), (3, 0x11223344)] with config := mapped }) =
      some ([(0x1FFE, 0x44), (0x1FFF, 0x33)], [.write [(0x2000, 0x22), (0x2001, 0x11)]]) := by decide

/-- A load from a device draws its bytes, also into `r0` (20_memory.md R38). -/
theorem test_ldhu_from_device :
    look (fun t => (t.draws, t.ioLog)) (exec (.ldhu 0 1 0) { regs [(1, 0x2000)] with config := mapped }) =
      some (2, [.read [(0x2000, Config.ioByte 0 0x2000), (0x2001, Config.ioByte 1 0x2001)]]) := rfl

/-- What the host loads outside RAM is not memory (70_reset_and_hazards.md R182). -/
theorem test_image_outside_ram : (bootState mapped [(0x2000, 1), (0x2010, 2), (0x1FFF, 3)]).mem = [(0x1FFF, 3)] := by decide

/-! ## Runs and the assembler -/

theorem test_run_ends_at_self_jump :
    look State.pc (runUntil atSelfJump 5 (State.reset.withFetchWord 32 0x14000000)) = some 0#32 := by decide

theorem test_assembly_text : instrText (.ldwd 3 1 (-4)) = "LDWD r3, r1, -4" ∧ instrText (.jmpr 31 0 0) = "JMPR r31, r0, 0" ∧
    instrText (.andi 3 1 0xF0F0) = "ANDI r3, r1, 61680" := by decide

/-- Section 2.7: `BRZR r0, 0x100000` is the field's value, `JMPI -2` a negative one. -/
theorem test_assemble : assemble .brzr [.reg 0, .imm 0x100000] = some (.brzr 0 0x100000) ∧
    assemble .jmpi [.imm (-2)] = some (.jmpi 0x3FFFFFE) ∧ assemble .slli [.reg 3, .reg 1, .imm 32] = none ∧
    assemble .jmpi [.imm (-0x2000001)] = none ∧ assemble .brzr [.imm 0, .reg 0] = none := by decide

/-! ## The hypotheses of the statements can be met

Each theorem is named after the statement of Certificates/Slice0/Obligations.lean it is about. -/

section Witnesses

open Sys2Proof.Claims

/-- The words of the R-type instructions, and of the others. -/
def rTypeWords : List (Instr × Word) := shiftWords ++ logicalWords ++ arithmeticWords ++ jumpRegisterWords
def otherWords : List (Instr × Word) := controlWords ++ immediateWords

/-- The hypotheses of `EncodedR` and `Encoded`, for every opcode. -/
theorem test_encoded_words_meet_their_hypotheses :
    (∀ k < 32, ∃ p ∈ rTypeWords, (fieldsOf .rbImm5Op1 p.2).op0 = 0x00#6 ∧ (fieldsOf .rbImm5Op1 p.2).op1.toNat = k) ∧
    (∀ k < 0x16, k = 0 ∨ k = 4 ∨ ∃ p ∈ otherWords, (fieldsOf .rbImm5Op1 p.2).op0.toNat = k) ∧
    (∀ p ∈ rTypeWords ++ otherWords, ∀ u ∈ unusedOf (fieldsOf .rbImm5Op1 p.2) p.1, u = 0#5) := by decide

theorem test_UnusedFieldsAreRefusedOrIgnored :
    decodeFields (fieldsOf .rbImm5Op1 0x0000001F#32) = some (.jalr 0 0 0) ∧ wellFormed refusedLink (.jalr 0 0 0) = true ∧
    (∀ u ∈ unusedOf (fieldsOf .rbImm5Op1 0x0000001F#32) (.jalr 0 0 0), u = 0#5) ∧
    decodeFields (fieldsOf .rbImm5Op1 0x03E0001F#32) = some (.jalr 0 0 0) ∧
    (∃ u ∈ unusedOf (fieldsOf .rbImm5Op1 0x03E0001F#32) (.jalr 0 0 0), u ≠ 0#5) ∧
    refusedLink.unusedFieldMode = .refuse ∧ ignoring.unusedFieldMode = .ignore ∧
    wellFormed ignoring (.jalr 0 0 0) = true := by decide

/-- `IllegalInstruction` at each edge of the assigned opcodes, and none beside it. -/
theorem test_UnassignedOpcodesAreIllegal :
    ([0x00000020#32, 0x10000000#32, 0x58000000#32].all fun w =>
      let s := State.reset.withFetchWord 32 w.toNat
      decide (s.pc.toNat % 4 = 0) && ((List.range 4).all fun k => s.region (at_ s.pc k) == .ram) &&
        decide (w = BitVec.ofNat 32 (value4 fun k => s.mem.read (at_ s.pc k))) &&
        decide (decode s.config w = .error (.illegalInstruction w))) = true ∧
    ([0x0000001F#32, 0x0C000000#32, 0x14000000#32, 0x54000000#32].all fun w =>
      decide (decode defaultConfig w ≠ .error (.illegalInstruction w))) = true := by decide

theorem test_DecodeOfEncode : wellFormed refusedLink (.jalr 30#5 30#5 31#5) = true := by decide

theorem test_EncodeOfDecode :
    otherLayout.unusedFieldMode = .refuse ∧
    decode otherLayout 0b000000_00000_11111_011111_11111_11111#32 = .ok (.jalr 31 31 31) := by decide

/-- A misaligned `pc` in a device. -/
theorem test_PlacedWordRuns :
    let s : State := { State.reset with pc := 0x2003#32, config := mapped }
    s.mem.wf = true ∧ decode s.config 0x00611014#32 = .ok (.addr 3 1 2) ∧
    look (fun t => (t.readReg 3#5, t.pc)) (step (s.withFetchWord 32 0x00611014)) = some (0#32, 0x2004#32) := by decide

theorem test_StepRunsTheDecodedInstruction :
    let s := State.reset.withFetchWord 32 0x00611014
    s.pc.toNat % 4 = 0 ∧ (∀ k < 4, s.region (at_ s.pc k) = .ram) ∧
    decode s.config (BitVec.ofNat 32 (value4 fun k => s.mem.read (at_ s.pc k))) = .ok (.addr 3 1 2) ∧
    s.memRead s.pc 4 = .ok (0x00611014#32, s) := by decide

theorem test_MisalignedPcStopsOrIsMasked :
    (State.reset.setPc 1#32).pc.toNat % 4 ≠ 0 ∧ (State.reset.setPc 1#32).config.pcAlignMode = .stop ∧
    maskedPc.pcAlignMode = .mask := by decide

/-- The word stored is `ADDR r3, r1, r2`, behind the store. -/
theorem test_FetchSeesThePrecedingStore :
    let s := regs [(1, 4), (3, 0x00611014)]
    s.mem.wf = true ∧ s.pc.toNat % 4 = 0 ∧ eaOf s 1 0 = s.pc + 4#32 ∧ (∀ k < 4, s.region (at_ (s.pc + 4#32) k) = .ram) ∧
    look State.pc (exec (.stwd 3 1 0) s) = some 4#32 ∧ decode s.config (s.readReg 3) = .ok (.addr 3 1 2) := by decide

/-- A state with a byte in RAM, a byte handed to a device and two drawn from it. -/
def busy : State :=
  { State.reset with
    config := mapped, mem := [(0x10, 1)], draws := 2
    ioLog := [.write [(0x2000, 5)], .read [(0x2000, 7), (0x200F, 8)]] }

theorem test_StepKeepsTheInvariant : Safety.Inv busy ∧ look State.pc (step busy) = some 4#32 := by
  refine ⟨⟨by decide, by decide, ?_, by decide⟩, by decide⟩
  intro e he
  simp only [busy, List.mem_cons, List.not_mem_nil, or_false] at he
  rcases he with rfl | rfl
  · exact ⟨by simp [Safety.eventCells], by simp only [Safety.eventCells, List.forall_mem_singleton]; decide⟩
  · refine ⟨by simp [Safety.eventCells], ?_⟩
    simp only [Safety.eventCells, List.forall_mem_cons, List.not_mem_nil, false_imp_iff, implies_true, and_true]
    decide

theorem test_StepsKeepTheConfiguration : look State.config (step busy) = some mapped := by decide

/-- A load from a device, and an instruction that is neither load nor store. -/
theorem test_EnvironmentSeesProgramOrder :
    (look (fun t => t.ioLog.length) (exec (.ldbu 3 1 0) { regs [(1, 0x2000)] with config := mapped }) = some 1) ∧
    isLoad (.addr 3 1 2) = false ∧ isStore (.addr 3 1 2) = false ∧ look State.ioLog (exec (.addr 3 1 2) busy) = some busy.ioLog :=
  ⟨rfl, by decide, by decide, by decide⟩

/-- The largest backward jump. -/
theorem test_AlignmentIsLostOnlyByRegisterAndByteTargets :
    State.reset.pc.toNat % 4 = 0 ∧ mayMisalign (.jali 0x2000000) = false ∧
    look State.pc (exec (.jali 0x2000000) State.reset) = some 0xF8000000#32 := by decide

theorem test_OnlyTheseStops :
    faultOf (exec (.sras 3 1 2) { shiftRegs 1 32 with config := stopShift }) = some (.shiftRange 32) ∧
    faultOf (exec (.divf 3 1 2) (divRegs stoppingDiv 0 5 0)) = some (.divideCorner 0#32 5#32 0#32) ∧
    faultOf (exec (.ldwd 3 1 0) { regs [(1, 0x2010)] with config := mapped }) = some (.unmappedAccess 0x2010#32) ∧
    refusalOf (exec (.jalr 0 31 0) { State.reset with config := refusedLink }) =
      some (.reservedField (encode refusedLink (.jalr 0 31 0))) := by decide

theorem test_EveryInstructionCompletes :
    State.reset.config.shiftRegMode ≠ .stop ∧ State.reset.config.divCorner = .free ∧
    wellFormed State.reset.config (.jalr 31 31 31) = true ∧ ∀ a, State.reset.region a ≠ .unmapped := by
  refine ⟨by decide, by decide, by decide, fun a => ?_⟩
  have := a.isLt
  simp [State.region, State.reset, defaultConfig, regionAt, regionHolds]
  omega

theorem test_WritesToR0AreIgnored :
    withTargetR0 (.mulf 3 1 2) = some (.mulf 0 1 2) ∧ look State.ep (exec (.mulf 3 1 2) ab) = some 0xFFF01FD0#32 ∧
    look State.ep (exec (.mulf 0 1 2) ab) = some 0xFFF01FD0#32 := by decide

theorem test_OnlyDestinationsChange :
    (30#5) ∉ destinations (.jali 1) ∧ look (fun t => t.readReg 30#5) (exec (.jali 1) (regs [(30, 9)])) = some 9#32 := by decide

theorem test_EpIsWrittenAndReadByTheNamedInstructions :
    (writesEp (.rdep 3) = false ∧ look State.ep (exec (.rdep 3) ab) = some 0#32) ∧
    (readsEp (.addr 3 1 2) = false ∧ writesEp (.addr 3 1 2) = false) ∧
    (readsEp (.wrep 1) = false ∧ writesEp (.wrep 1) = true) := by decide

theorem test_FlagsAreWrittenAndReadByTheNamedInstructions :
    (setsFlags (.divr 3 1 2) = false ∧ look State.flags (exec (.divr 3 1 2) (divRegs defaultConfig 0 9 2)) =
      some ⟨false, false, false, false⟩) ∧
    (setsFlags (.orri 3 1 1) = true ∧ look State.flags (exec (.orri 3 1 1) ab) = some ⟨true, true, true, false⟩) ∧
    (setsFlags (.brnr 1 4) = false ∧ flagRead (.brnr 1 4) = some Flags.n ∧
      Flags.n ⟨false, true, true, true⟩ = Flags.n State.reset.flags) :=
  ⟨by decide, by decide, rfl, rfl, rfl⟩

/-- The increment wraps; a branch on a clear flag; a comparison of equal registers. -/
theorem test_SequentialPcAddsFour :
    (isControlFlow (.ldui 3 1) = false ∧ pcOf (.ldui 3 1) (atPc 0xFFFFFFFC []) = some 0#32) ∧
    (flagRead (.brzr 1 4) = some Flags.z ∧ Flags.z State.reset.flags = false) ∧
    State.reset.readReg 1#5 = State.reset.readReg 2#5 :=
  ⟨by decide, ⟨rfl, rfl⟩, by decide⟩

theorem test_MemoryIsAccessedByLoadsStoresAndFetch :
    (isStore (.ldwd 3 1 0) = false ∧ look State.mem (exec (.ldwd 3 1 0) loaded) = some loaded.mem) ∧
    (busy.nextInstr = some (.sllr 0 0 0) ∧ isStore (.sllr 0 0 0) = false ∧ look State.mem (step busy) = some busy.mem) ∧
    (isLoad (.jmpi 0) = false ∧ isStore (.jmpi 0) = false) := by decide

/-- An address given twice, and the last address of RAM. -/
theorem test_ResetLeavesResetPcAndTheImage :
    (∀ cell ∈ [(0x1FFE#32, 3#8)], cell.1 ≠ 0x1FFF#32) ∧ regionAt mapped.memoryMap 0x1FFF#32 = .ram ∧
    (bootState mapped ([(0x1FFF#32, 1#8)] ++ (0x1FFF#32, 0#8) :: [(0x1FFE#32, 3#8)])).mem = [(0x1FFE, 3)] ∧
    ∀ cell ∈ [(0x1FFF#32, 1#8)], cell.1 ≠ 0x1FFE#32 :=
  ⟨by simp, by decide, by decide, by simp⟩

/-- The amounts where the three modes part: 31 and 32. -/
theorem test_ShiftsByRegister :
    (amount .low5 31#32 = some 31 ∧ amount .low5 32#32 = some 0) ∧
    (amount .full 31#32 = some 31 ∧ amount .full 32#32 = some 32) ∧
    (amount .stop 31#32 = some 31 ∧ amount .stop 32#32 = none) ∧
    amount .full 0xFFFFFFFF#32 = some 4294967295 ∧
    { shiftRegs 1 32 with config := stopShift : State }.config.shiftRegMode = .stop ∧ (shiftRegs 1 32).readReg 2 = 32#32 := by
  decide

theorem test_ShiftsByRegisterSettingFlags :
    amount (shiftRegs 1 32).config.shiftRegMode ((shiftRegs 1 32).readReg 2) = some 0 ∧
    amount stopShift.shiftRegMode ((shiftRegs 1 32).readReg 2) = none := by decide

/-- Section 2.3's results, bit by bit. -/
theorem test_LogicalOnRegisters :
    (∀ n < 32, (0x0F000F00#32).getLsbD n = ((ab.readReg 1).getLsbD n && (ab.readReg 2).getLsbD n)) ∧
    (∀ n < 32, (0xFFF0FFF0#32).getLsbD n = ((ab.readReg 1).getLsbD n || (ab.readReg 2).getLsbD n)) ∧
    (∀ n < 32, (0x00FF00FF#32).getLsbD n = !(ab.readReg 1).getLsbD n) ∧
    (∀ n < 32, (0xF0F0F0F0#32).getLsbD n = ((ab.readReg 1).getLsbD n ^^ (ab.readReg 2).getLsbD n)) := by decide

/-- A zero and a negative result. -/
theorem test_LogicalOnRegistersSettingFlags :
    (∀ n < 32, (0#32).getLsbD n = ((ab.readReg 1).getLsbD n && (ab.readReg 0).getLsbD n)) ∧
    (∀ n < 32, (0xFF00FF00#32).getLsbD n = ((ab.readReg 1).getLsbD n || (ab.readReg 0).getLsbD n)) ∧
    (∀ n < 32, (0xFFFFFFFF#32).getLsbD n = !(ab.readReg 0).getLsbD n) ∧
    (∀ n < 32, (0#32).getLsbD n = ((ab.readReg 1).getLsbD n ^^ (ab.readReg 1).getLsbD n)) := by decide

theorem test_LogicalWithImmediate :
    (∀ n < 32, (0x0000F000#32).getLsbD n = ((ab.readReg 1).getLsbD n && (decide (n < 16) && (0xF0F0#16).getLsbD n))) ∧
    (∀ n < 32, (0xFF00FFF0#32).getLsbD n = ((ab.readReg 1).getLsbD n || (decide (n < 16) && (0xF0F0#16).getLsbD n))) ∧
    (∀ n < 32, (0xFF000FF0#32).getLsbD n = ((ab.readReg 1).getLsbD n ^^ (decide (n < 16) && (0xF0F0#16).getLsbD n))) := by
  decide

/-- Section 2.4: a carry with an overflow. -/
theorem test_AddSettingFlags :
    let s := regs [(1, 0x80000000), (2, 0xFFFFFFFF)]
    s.readReg 1 = 0x80000000#32 ∧ s.readReg 2 = 0xFFFFFFFF#32 ∧
    0x7FFFFFFF#32 = BitVec.ofNat 32 ((0x80000000#32).toNat + (0xFFFFFFFF#32).toNat) ∧ s.config.flagsMode = .table := by decide

theorem test_SubtractSettingFlags :
    let s := regs [(1, 0x7FFFFFFF), (2, 0xFFFFFFFF)]
    s.readReg 1 = 0x7FFFFFFF#32 ∧ s.readReg 2 = 0xFFFFFFFF#32 ∧
    0x80000000#32 = BitVec.ofInt 32 ((0x7FFFFFFF#32).toNat - (0xFFFFFFFF#32).toNat) ∧ s.config.subCarry = .borrow ∧
    notBorrowing.subCarry ≠ .borrow := by decide

theorem test_Multiply : (-7 : Int) = productOf true 0xFFFFFFFF#32 7#32 ∧
    (0x6FFFFFFF9 : Int) = productOf false 0xFFFFFFFF#32 7#32 := by decide

/-- Section 2.6: -100 by 7; the quotients at the edges of what fits. -/
theorem test_Divide :
    (DividesTo (dividendOf true 0xFFFFFFFF#32 0xFFFFFF9C#32) (divisorOf true 7#32) (-14) (-2) ∧ Fits true (-14)) ∧
    (DividesTo (dividendOf true 0xFFFFFFFF#32 0x80000000#32) (divisorOf true 1#32) (-2147483648) 0 ∧
      Fits true (-2147483648)) ∧
    (DividesTo (dividendOf true 0#32 0x7FFFFFFF#32) (divisorOf true 1#32) 2147483647 0 ∧ Fits true 2147483647) ∧
    (DividesTo (dividendOf false 0#32 0xFFFFFFFF#32) (divisorOf false 1#32) 4294967295 0 ∧ Fits false 4294967295) := by
  unfold DividesTo Fits; decide

/-- Section 2.6: a zero divisor, and quotients 2^31 and 2^32. -/
theorem test_DivisionCorners :
    Corner (divRegs defaultConfig 0 5 0) 5#32 0#32 ∧ Corner (divRegs stoppingDiv 1 0 2) 0#32 2#32 ∧
    Corner (divRegs unsignedDiv 2 0 2) 0#32 2#32 ∧ stoppingDiv.divCorner = .stop ∧ defaultConfig.divCorner = .free := by
  refine ⟨.inl (by decide), .inr ⟨2147483648, 0, ?_, ?_⟩, .inr ⟨4294967296, 0, ?_, ?_⟩, by decide, by decide⟩ <;>
    first
      | (unfold DividesTo; decide)
      | (unfold Fits; decide)

theorem test_ReadAndWriteEp : look State.ep (exec (.wrep 1) (regs [(1, 0xCAFEF00D)])) = some 0xCAFEF00D#32 := by decide

/-- The three modes, with and without `r31`. -/
theorem test_JumpAndLinkThroughRegisters :
    (newLink.jalrR31Mode = .new ∧ newLink.jalrR31Mode ≠ .refuse) ∧ (defaultConfig.jalrR31Mode ≠ .refuse) ∧
    (refusedLink.jalrR31Mode = .refuse ∧ (30#5) ≠ 31#5) ∧
    ((fieldsOf .rbImm5Op1 0x001F001F#32).op0 = 0x00#6 ∧ (fieldsOf .rbImm5Op1 0x001F001F#32).op1 = 0x1f#6 ∧
      (fieldsOf .rbImm5Op1 0x001F001F#32).rt = 0#5 ∧ (fieldsOf .rbImm5Op1 0x001F001F#32).ra = 31#5) := by decide

/-- Section 2.7: `BRNR r5, -4` with its flag set. -/
theorem test_BranchOnFlag :
    let s := flagged ⟨true, false, false, false⟩
    0x1FFC#32 = BitVec.ofInt 32 ((s.readReg 5).toNat + (-4#21).toInt) ∧ 0x44#32 = BitVec.ofNat 32 (s.pc.toNat + 4) := by
  decide

theorem test_ReturnGoesBehindTheCall :
    pcLink (.jali 3) (atPc 0xFFFFFFFC []) = some (8#32, 0#32) ∧ (regs []).readReg 31#5 = 0#32 ∧
    pcLink (.jalr 31 31 1) (atPc 0x40 [(31, 4)]) = some (12#32, 0x44#32) := by decide

/-- The access that wraps past the top of RAM. -/
theorem test_LoadsFromRam :
    ∀ p ∈ loads 3 1 (-2), ∀ k < p.2.1, (regs []).region (at_ (eaOf (regs []) 1 (-2)) k) = .ram := by
  intro p hp
  simp only [loads, List.mem_cons, List.not_mem_nil, or_false] at hp
  rcases hp with rfl | rfl | rfl | rfl | rfl <;> decide

/-- Two bytes of RAM and two of the device; and the device alone, for each width. -/
theorem test_LoadsFromIo :
    let s : State := { regs [(1, 0x1FFE)] with config := mapped }
    (∀ k < 4, s.region (at_ (eaOf s 1 0) k) ≠ .unmapped) ∧ ¬ (∀ k < 4, s.region (at_ (eaOf s 1 0) k) = .ram) ∧
    (∀ k < 4, s.region (at_ (eaOf s 1 14) k) ≠ .unmapped) ∧ ¬ (∀ k < 1, s.region (at_ (eaOf s 1 14) k) = .ram) := by decide

theorem test_Stores :
    let s : State := { regs [(1, 0x1FFE)] with config := mapped }
    s.mem.wf = true ∧ (∀ p ∈ stores 3 1 0, ∀ k < p.2, s.region (at_ (eaOf s 1 0) k) ≠ .unmapped) := by decide

/-- The last two bytes of the device, then nothing; the first address of nothing. -/
theorem test_UnmappedAccessStops :
    let s : State := { regs [(1, 0x200E)] with config := mapped, pc := 0x2010 }
    (.stwd 3 1 0, 4) ∈ stores 3 1 0 ∧ (∀ k < 2, s.region (at_ (eaOf s 1 0) k) ≠ .unmapped) ∧
    s.region (at_ (eaOf s 1 0) 2) = .unmapped ∧ s.pc.toNat % 4 = 0 ∧ (∀ k < 0, s.region (at_ s.pc k) ≠ .unmapped) ∧
    s.region (at_ s.pc 0) = .unmapped := by decide

/-- Across the top of RAM. -/
theorem test_MixedWidthsAgree :
    State.reset.mem.wf = true ∧ (∀ k < 5, State.reset.region (at_ 0xFFFFFFFE#32 k) = .ram) ∧
    ∃ t, State.reset.memWrite 0xFFFFFFFE#32 4 0xA5C380F1#32 = .ok t ∧ t.memRead 0xFFFFFFFF#32 2 = .ok (0xC380#32, t) :=
  ⟨by decide, by decide, _, rfl, by decide⟩

theorem test_DataAccessNeedsNoAlignment :
    (.ldwd 3 1 1, 4) ∈ (loads 3 1 1).map (fun p => (p.1, p.2.1)) ++ stores 3 1 1 := by decide

theorem test_LoadReturnsTheLatestStore :
    loaded.mem.wf = true ∧ (∀ k < 4, loaded.region (at_ (eaOf loaded 1 (-3)) k) = .ram) ∧
    look State.pc (exec (.stwd 3 1 (-3)) loaded) = some 4#32 := by decide

theorem test_ConstantAndCopyIdioms : loadConstant 3 0x12345678 = [.orri 3 0 0x5678, .ldui 3 0x1234] := by decide

theorem test_SelfJumpEndsTheRun :
    let s := State.reset.withFetchWord 32 0x14000000
    s.pc.toNat % 4 = 0 ∧ (∀ k < 4, s.region (at_ s.pc k) = .ram) ∧
    BitVec.ofNat 32 (value4 fun k => s.mem.read (at_ s.pc k)) = 0x14000000#32 ∧ atSelfJump s = true := by decide

end Witnesses

end Sys2Proof.Tests
end

section

/-!
# Where the fields of a word stand

A field is `extractLsb'`; its value as a number is the word shifted down to the field's lowest bit and cut to the field's
width. The topmost field needs no cut, the lowest no shift.
-/

namespace Sys2Proof.Proofs.Encoding

open Sys2Proof.Machine

section Extract

variable {n : Nat} (w : BitVec n)

theorem toNat_extract (lo len : Nat) : (w.extractLsb' lo len).toNat = w.toNat / 2 ^ lo % 2 ^ len := by
  rw [BitVec.extractLsb'_toNat, Nat.shiftRight_eq_div_pow]

theorem toNat_extract_low (len : Nat) : (w.extractLsb' 0 len).toNat = w.toNat % 2 ^ len := by
  rw [toNat_extract, pow_zero, Nat.div_one]

theorem toNat_extract_top {lo len : Nat} (h : lo + len = n) : (w.extractLsb' lo len).toNat = w.toNat / 2 ^ lo := by
  have hlt : w.toNat / 2 ^ lo < 2 ^ len := by
    rw [Nat.div_lt_iff_lt_mul (Nat.two_pow_pos lo), ← pow_add, Nat.add_comm, h]
    exact w.isLt
  rw [toNat_extract, Nat.mod_eq_of_lt hlt]

end Extract

/-- Settles O1: each conjunct is one field of `fieldsOf`, whose lowest bit and width the lemmas above turn into a quotient
and a remainder; the three fields whose place depends on the layout are read at the spec's (30_encoding.md R52, D1). -/
theorem fieldsStandWhereTheFormatsPutThem : Obligations.FieldsStandWhereTheFormatsPutThem := by
  unfold Obligations.FieldsStandWhereTheFormatsPutThem
  intro l w
  exact ⟨toNat_extract_top w rfl, toNat_extract w 21 5, toNat_extract w 16 5, toNat_extract_low w 16,
    toNat_extract_low w 21, toNat_extract_low w 26,
    toNat_extract w (rbLow .rbImm5Op1) 5, toNat_extract w (imm5Low .rbImm5Op1) 5, toNat_extract_low w 6⟩

end Sys2Proof.Proofs.Encoding
end

section

/-!
# Decoding a word from its fields

What a word decodes to follows from three facts about its fields: the instruction the opcode maps give for them, that the
instruction's unused fields are zero, and that the configuration gives it a meaning.
-/

namespace Sys2Proof.Proofs.Decoding

open Sys2Proof.Machine Sys2Proof.Claims

theorem unusedNonzero_eq_false {f : Fields} {i : Instr} :
    unusedNonzero f i = false ↔ ∀ u ∈ unusedFields f i, u = 0#5 := by
  simp [unusedNonzero]

/-- Only a JALR can be refused by the configuration (42_control_flow.md R121). -/
theorem wellFormed_of_jalrReadsLink {c : Config} {i : Instr} (h : i.jalrReadsLink = false) : wellFormed c i = true := by
  simp [wellFormed, h]

theorem decode_eq_ok {c : Config} {w : Word} {i : Instr} (hd : decodeFields (fieldsOf c.rLayout w) = some i)
    (hu : unusedNonzero (fieldsOf c.rLayout w) i = false) (hw : wellFormed c i = true) : decode c w = .ok i := by
  simp [decode, hd, hu, hw]

theorem decode_encode_of_statement {c : Config} {i : Instr} (h : Laws.EncodedFields.Statement i)
    (hw : wellFormed c i = true) : decode c (encode c i) = .ok i :=
  decode_eq_ok (h c).1 (h c).2 hw

/-- The primary opcode alone selects `mk`, the fields `unused` are those `mk` leaves unused, and `mk` is no refused JALR. -/
theorem encoded_of_fields {op0 : BitVec 6} {unused : Fields → List (BitVec 5)} {mk : Fields → Instr}
    (h : ∀ f : Fields, decodeFields { f with op0 := op0 } = some (mk f) ∧ unusedFields f (mk f) = unused f ∧
      (mk f).jalrReadsLink = false) : Encoded op0 unused mk := by
  intro c w hop0 hu
  obtain ⟨hd, hun, hj⟩ := h (fieldsOf c.rLayout w)
  rw [← hop0] at hd
  exact decode_eq_ok hd (unusedNonzero_eq_false.2 (hun ▸ hu)) (wellFormed_of_jalrReadsLink hj)

/-- The same for an R-type instruction, which the two opcodes select. -/
theorem encodedR_of_fields {op1 : BitVec 6} {unused : Fields → List (BitVec 5)} {mk : Fields → Instr}
    (h : ∀ f : Fields, decodeFields { f with op0 := 0x00#6, op1 := op1 } = some (mk f) ∧
      unusedFields f (mk f) = unused f ∧ (mk f).jalrReadsLink = false) : EncodedR op1 unused mk := by
  intro c w hop0 hop1 hu
  obtain ⟨hd, hun, hj⟩ := h (fieldsOf c.rLayout w)
  rw [← hop0, ← hop1] at hd
  exact decode_eq_ok hd (unusedNonzero_eq_false.2 (hun ▸ hu)) (wellFormed_of_jalrReadsLink hj)

end Sys2Proof.Proofs.Decoding
end

section

/-!
# What the shared endings leave

An instruction that ends in `finish` writes one register and moves `pc` on; one that ends in `finishWithFlags` also sets
the flags from its 32-bit result (40_logical.md R72).
-/

namespace Sys2Proof.Proofs.Endings

open Sys2Proof.Machine Sys2Proof.Claims

/-! ## Registers and frame -/

theorem readReg_writeReg_eq_regsAfter (s : State) (rt : Reg) (v : Word) (r : Reg) :
    (s.writeReg rt v).readReg r = regsAfter s rt v r := by
  rw [readReg_writeReg, regsAfter]
  by_cases hr : r = 0#5
  · subst hr
    by_cases ht : rt = 0#5
    · simp [ht, readReg_zero]
    · simp [Ne.symm ht, readReg_zero]
  · by_cases he : r = rt
    · subst he; simp [hr]
    · simp [hr, he]

theorem next_writeReg_advance (s : State) (rt : Reg) (v : Word) :
    Next s (s.writeReg rt v).advance (regsAfter s rt v) s.ep (s.pc + 4#32) s.flags := by
  constructor <;> simp [readReg_writeReg_eq_regsAfter, -readReg_writeReg]

theorem next_writeReg_setFlags_advance (s : State) (rt : Reg) (v : Word) (f : Flags) :
    Next s ((s.writeReg rt v).setFlags f).advance (regsAfter s rt v) s.ep (s.pc + 4#32) f := by
  constructor <;> simp [readReg_writeReg_eq_regsAfter, -readReg_writeReg]

/-! ## Flags -/

/-- The flags are the given ones; C and O under `FLAGS` = `table` only (10_state.md R21). -/
theorem flagsAre_computeFlags (c : Config) (q : FlagRequest) (n z carry overflow : Bool) :
    FlagsAre c (n = true) (z = true) (carry = true) (overflow = true) (computeFlags c q n z carry overflow) := by
  refine ⟨by simp, by simp, fun h => ?_⟩
  simp [computeFlags_table h]

theorem msb_iff (v : Word) : v.msb = true ↔ 2 ^ 31 ≤ v.toNat := by
  rw [BitVec.msb_eq_decide, decide_eq_true_iff]

theorem beq_zero_iff (v : Word) : (v == 0#32) = true ↔ v.toNat = 0 := by
  rw [beq_iff_eq, BitVec.toNat_eq, BitVec.toNat_ofNat, Nat.zero_mod]

theorem flagsAre_flagsOfResult (c : Config) (op : FlagOp) (operands : List Word) (v : Word) (old : Flags) :
    FlagsAre c (2 ^ 31 ≤ v.toNat) (v.toNat = 0) (old.c = true) (old.o = true) (flagsOfResult c op operands v old) := by
  rw [← msb_iff, ← beq_zero_iff]
  exact flagsAre_computeFlags ..

/-! ## Instructions that end so -/

section

variable {i : Instr} {s : State} {rt ra rb : Reg} {res v : Word} {op : FlagOp} {operands : List Word}

theorem writesReg_of_finish (hi : exec i s = s.finish rt res) (hv : res = v) : WritesReg i s rt v :=
  hv ▸ ⟨_, hi, next_writeReg_advance s rt res⟩

theorem writesRegAndNZ_of_finishWithFlags (hi : exec i s = s.finishWithFlags op operands rt res) (hv : res = v) :
    WritesRegAndNZ i s rt v :=
  hv ▸ ⟨_, hi, flagsAre_flagsOfResult .., next_writeReg_setFlags_advance ..⟩

end

end Sys2Proof.Proofs.Endings
end

section

/-!
# Shifts

The three shift primitives are the numbers of 40_logical.md R70, and the amount a register gives is that of R71 in every
`SHIFT_REG_MODE`; a shift by register value then ends as one by that amount, or stops.
-/

namespace Sys2Proof.Proofs.Shifts

open Sys2Proof.Machine Sys2Proof.Claims Sys2Proof.Proofs.Decoding Sys2Proof.Proofs.Endings

/-! ## The primitives as numbers -/

theorem shl_eq_shifted (v : Word) (k : Nat) : shl v k = (shifted v k).1 :=
  BitVec.eq_of_toNat_eq (toNat_shl v k)

theorem shr_eq_shifted (v : Word) (k : Nat) : shr v k = (shifted v k).2.1 := by
  have hlt : v.toNat / 2 ^ k < 2 ^ 32 := toNat_shr v k ▸ (shr v k).isLt
  exact BitVec.eq_of_toNat_eq ((toNat_shr v k).trans (Nat.mod_eq_of_lt hlt).symm)

theorem sar_eq_shifted (v : Word) (k : Nat) : sar v k = (shifted v k).2.2 := by
  rw [← BitVec.ofInt_toInt (x := sar v k), toInt_sar, shifted]

/-! ## The amount a register gives -/

theorem shiftAmount_eq_amount (mode : ShiftRegMode) (b : Word) :
    shiftAmount mode b = (amount mode b).elim (.error (.shiftRange b.toNat)) .ok := by
  cases mode with
  | low5 => exact shiftAmount_low5 b
  | full => exact shiftAmount_full b
  | stop =>
    rw [shiftAmount_stop, amount]
    by_cases hb : b.toNat < 32
    · simp [hb, Nat.le_of_lt_succ hb]
    · simp [hb, show ¬ b.toNat ≤ 31 by omega]

section

variable {i : Instr} {s : State} {op : FlagOp} {shift : Word → Nat → Word} {rt ra rb : Reg} {k : Nat} {v : Word}

theorem shiftByReg_eq_finish (hk : amount s.config.shiftRegMode (s.readReg rb) = some k) :
    s.shiftByReg shift rt ra rb = s.finish rt (shift (s.readReg ra) k) := by
  rw [State.shiftByReg, shiftAmount_eq_amount, hk]
  rfl

theorem shiftByRegWithFlags_eq_finishWithFlags (hk : amount s.config.shiftRegMode (s.readReg rb) = some k) :
    s.shiftByRegWithFlags op shift rt ra rb =
      s.finishWithFlags op [s.readReg ra, s.readReg rb] rt (shift (s.readReg ra) k) := by
  rw [State.shiftByRegWithFlags, shiftAmount_eq_amount, hk]
  rfl

theorem writesReg_of_shiftByReg (hi : exec i s = s.shiftByReg shift rt ra rb)
    (hk : amount s.config.shiftRegMode (s.readReg rb) = some k) (hv : shift (s.readReg ra) k = v) :
    WritesReg i s rt v :=
  writesReg_of_finish (hi.trans (shiftByReg_eq_finish hk)) hv

theorem writesRegAndNZ_of_shiftByRegWithFlags (hi : exec i s = s.shiftByRegWithFlags op shift rt ra rb)
    (hk : amount s.config.shiftRegMode (s.readReg rb) = some k) (hv : shift (s.readReg ra) k = v) :
    WritesRegAndNZ i s rt v :=
  writesRegAndNZ_of_finishWithFlags (hi.trans (shiftByRegWithFlags_eq_finishWithFlags hk)) hv

theorem shiftByReg_stops (hn : amount s.config.shiftRegMode (s.readReg rb) = none) :
    s.shiftByReg shift rt ra rb = .fault (.shiftRange (s.readReg rb).toNat) := by
  rw [State.shiftByReg, shiftAmount_eq_amount, hn]
  rfl

theorem shiftByRegWithFlags_stops (hn : amount s.config.shiftRegMode (s.readReg rb) = none) :
    s.shiftByRegWithFlags op shift rt ra rb = .fault (.shiftRange (s.readReg rb).toNat) := by
  rw [State.shiftByRegWithFlags, shiftAmount_eq_amount, hn]
  rfl

end

/-! ## Shifts by register value -/

/-- Settles O26: each shift is `shiftByReg` of its primitive, which ends in `finish` or stops as the amount says. -/
theorem shiftsByRegister : Obligations.ShiftsByRegister := by
  unfold Obligations.ShiftsByRegister
  refine ⟨encodedR_of_fields fun _ => ⟨rfl, rfl, rfl⟩,
    encodedR_of_fields fun _ => ⟨rfl, rfl, rfl⟩,
    encodedR_of_fields fun _ => ⟨rfl, rfl, rfl⟩,
    fun s rt ra rb => ⟨fun k hk => ⟨?_, ?_, ?_⟩, fun hn => ⟨?_, ?_, ?_⟩⟩⟩
  · exact writesReg_of_shiftByReg (exec_sllr ..) hk (shl_eq_shifted ..)
  · exact writesReg_of_shiftByReg (exec_srlr ..) hk (shr_eq_shifted ..)
  · exact writesReg_of_shiftByReg (exec_srar ..) hk (sar_eq_shifted ..)
  · exact (exec_sllr ..).trans (shiftByReg_stops hn)
  · exact (exec_srlr ..).trans (shiftByReg_stops hn)
  · exact (exec_srar ..).trans (shiftByReg_stops hn)

/-- Settles O27: each shift is `shiftByRegWithFlags` of its primitive, which ends in `finishWithFlags` or stops as the
amount says. -/
theorem shiftsByRegisterSettingFlags : Obligations.ShiftsByRegisterSettingFlags := by
  unfold Obligations.ShiftsByRegisterSettingFlags
  refine ⟨encodedR_of_fields fun _ => ⟨rfl, rfl, rfl⟩,
    encodedR_of_fields fun _ => ⟨rfl, rfl, rfl⟩,
    encodedR_of_fields fun _ => ⟨rfl, rfl, rfl⟩,
    fun s rt ra rb => ⟨fun k hk => ⟨?_, ?_, ?_⟩, fun hn => ⟨?_, ?_, ?_⟩⟩⟩
  · exact writesRegAndNZ_of_shiftByRegWithFlags (exec_slrf ..) hk (shl_eq_shifted ..)
  · exact writesRegAndNZ_of_shiftByRegWithFlags (exec_srrf ..) hk (shr_eq_shifted ..)
  · exact writesRegAndNZ_of_shiftByRegWithFlags (exec_sras ..) hk (sar_eq_shifted ..)
  · exact (exec_slrf ..).trans (shiftByRegWithFlags_stops hn)
  · exact (exec_srrf ..).trans (shiftByRegWithFlags_stops hn)
  · exact (exec_sras ..).trans (shiftByRegWithFlags_stops hn)

/-! ## Shifts by immediate value -/

/-- Settles O28: each ends in `finish` with its primitive's result. -/
theorem shiftsByImmediate : Obligations.ShiftsByImmediate := by
  unfold Obligations.ShiftsByImmediate
  refine ⟨encodedR_of_fields fun _ => ⟨rfl, rfl, rfl⟩,
    encodedR_of_fields fun _ => ⟨rfl, rfl, rfl⟩,
    encodedR_of_fields fun _ => ⟨rfl, rfl, rfl⟩,
    fun s rt ra imm5 => ⟨?_, ?_, ?_⟩⟩
  · exact writesReg_of_finish (exec_slli ..) (shl_eq_shifted ..)
  · exact writesReg_of_finish (exec_srli ..) (shr_eq_shifted ..)
  · exact writesReg_of_finish (exec_srai ..) (sar_eq_shifted ..)

/-- Settles O29: each ends in `finishWithFlags` with its primitive's result. -/
theorem shiftsByImmediateSettingFlags : Obligations.ShiftsByImmediateSettingFlags := by
  unfold Obligations.ShiftsByImmediateSettingFlags
  refine ⟨encodedR_of_fields fun _ => ⟨rfl, rfl, rfl⟩,
    encodedR_of_fields fun _ => ⟨rfl, rfl, rfl⟩,
    encodedR_of_fields fun _ => ⟨rfl, rfl, rfl⟩,
    fun s rt ra imm5 => ⟨?_, ?_, ?_⟩⟩
  · exact writesRegAndNZ_of_finishWithFlags (exec_slif ..) (shl_eq_shifted ..)
  · exact writesRegAndNZ_of_finishWithFlags (exec_srif ..) (shr_eq_shifted ..)
  · exact writesRegAndNZ_of_finishWithFlags (exec_sraj ..) (sar_eq_shifted ..)

/-! ## NOP -/

/-- Every layout puts zero fields into the all-zero word. -/
theorem encode_nop (c : Config) : encode c nop = 0x00000000#32 := by
  rw [nop, encode]
  cases c.rLayout <;> rfl

theorem decode_nop (c : Config) : decode c (encode c nop) = .ok nop :=
  decode_encode_of_statement (Laws.EncodedFields.sllr 0#5 0#5 0#5) (wellFormed_of_jalrReadsLink rfl)

theorem amount_zero (mode : ShiftRegMode) : amount mode 0#32 = some 0 := by
  cases mode <;> rfl

/-- `r0` gives the amount 0 in every mode, and the write to `r0` is discarded. -/
theorem exec_nop (s : State) : exec nop s = .next s.advance := by
  have hk : amount s.config.shiftRegMode (s.readReg 0#5) = some 0 := by rw [readReg_zero, amount_zero]
  rw [nop, exec_sllr, execSllr, shiftByReg_eq_finish hk, State.finish, writeReg_zero]

/-- Settles O7: the encoder writes the all-zero word for NOP, so that word decodes to it. -/
theorem allZeroWordIsNop : Obligations.AllZeroWordIsNop := by
  unfold Obligations.AllZeroWordIsNop
  exact ⟨fun c => ⟨encode_nop c ▸ decode_nop c, encode_nop c⟩, exec_nop⟩

end Sys2Proof.Proofs.Shifts
end

section

/-!
# Logical instructions, bit by bit

A word that agrees with an operation's result on each of its 32 bits is that result, and the bits of a zero-extended
immediate are the immediate's, with 0 above bit 15.
-/

namespace Sys2Proof.Proofs.Bitwise

open Sys2Proof.Machine Sys2Proof.Claims Sys2Proof.Proofs.Decoding Sys2Proof.Proofs.Endings

/-! ## Words from their bits -/

section

variable {a b v : Word}

theorem and_eq_of_bits (h : ∀ n < 32, v.getLsbD n = (a.getLsbD n && b.getLsbD n)) : a &&& b = v :=
  BitVec.eq_of_getLsbD_eq fun n hn => by rw [BitVec.getLsbD_and, h n hn]

theorem or_eq_of_bits (h : ∀ n < 32, v.getLsbD n = (a.getLsbD n || b.getLsbD n)) : a ||| b = v :=
  BitVec.eq_of_getLsbD_eq fun n hn => by rw [BitVec.getLsbD_or, h n hn]

theorem xor_eq_of_bits (h : ∀ n < 32, v.getLsbD n = (a.getLsbD n ^^ b.getLsbD n)) : a ^^^ b = v :=
  BitVec.eq_of_getLsbD_eq fun n hn => by rw [BitVec.getLsbD_xor, h n hn]

theorem not_eq_of_bits (h : ∀ n < 32, v.getLsbD n = !a.getLsbD n) : ~~~a = v :=
  BitVec.eq_of_getLsbD_eq fun n hn => by rw [BitVec.getLsbD_not, h n hn, decide_eq_true hn, Bool.true_and]

end

theorem getLsbD_zext16 (imm : BitVec 16) {n : Nat} (hn : n < 32) :
    (zext16 imm).getLsbD n = (decide (n < 16) && imm.getLsbD n) := by
  rw [zext16, BitVec.getLsbD_setWidth, decide_eq_true hn, Bool.true_and]
  by_cases h : n < 16
  · simp [h]
  · simp [h, BitVec.getLsbD_of_ge imm n (Nat.le_of_not_lt h)]

/-! ## The instructions -/

/-- Settles O30: each ends in `finish` with its operation's word, which its bits determine. -/
theorem logicalOnRegisters : Obligations.LogicalOnRegisters := by
  unfold Obligations.LogicalOnRegisters
  refine ⟨encodedR_of_fields fun _ => ⟨rfl, rfl, rfl⟩,
    encodedR_of_fields fun _ => ⟨rfl, rfl, rfl⟩,
    encodedR_of_fields fun _ => ⟨rfl, rfl, rfl⟩,
    encodedR_of_fields fun _ => ⟨rfl, rfl, rfl⟩, fun s rt ra rb v => ⟨fun h => ?_, fun h => ?_, fun h => ?_, fun h => ?_⟩⟩
  · exact writesReg_of_finish (exec_andr ..) (and_eq_of_bits h)
  · exact writesReg_of_finish (exec_orrr ..) (or_eq_of_bits h)
  · exact writesReg_of_finish (exec_notr ..) (not_eq_of_bits h)
  · exact writesReg_of_finish (exec_xorr ..) (xor_eq_of_bits h)

/-- Settles O31: each ends in `finishWithFlags` with its operation's word, which its bits determine. -/
theorem logicalOnRegistersSettingFlags : Obligations.LogicalOnRegistersSettingFlags := by
  unfold Obligations.LogicalOnRegistersSettingFlags
  refine ⟨encodedR_of_fields fun _ => ⟨rfl, rfl, rfl⟩,
    encodedR_of_fields fun _ => ⟨rfl, rfl, rfl⟩,
    encodedR_of_fields fun _ => ⟨rfl, rfl, rfl⟩,
    encodedR_of_fields fun _ => ⟨rfl, rfl, rfl⟩, fun s rt ra rb v => ⟨fun h => ?_, fun h => ?_, fun h => ?_, fun h => ?_⟩⟩
  · exact writesRegAndNZ_of_finishWithFlags (exec_adrf ..) (and_eq_of_bits h)
  · exact writesRegAndNZ_of_finishWithFlags (exec_orrf ..) (or_eq_of_bits h)
  · exact writesRegAndNZ_of_finishWithFlags (exec_notf ..) (not_eq_of_bits h)
  · exact writesRegAndNZ_of_finishWithFlags (exec_xorf ..) (xor_eq_of_bits h)

/-- Settles O32: each ends in `finishWithFlags` with its word, the zero-extended immediate giving the second operand's bits. -/
theorem logicalWithImmediate : Obligations.LogicalWithImmediate := by
  unfold Obligations.LogicalWithImmediate
  refine ⟨encoded_of_fields fun _ => ⟨rfl, rfl, rfl⟩,
    encoded_of_fields fun _ => ⟨rfl, rfl, rfl⟩,
    encoded_of_fields fun _ => ⟨rfl, rfl, rfl⟩,
    fun s rt ra imm16 v => ⟨fun h => ?_, fun h => ?_, fun h => ?_⟩⟩
  · exact writesRegAndNZ_of_finishWithFlags (exec_andi ..)
      (and_eq_of_bits fun n hn => by rw [h n hn, getLsbD_zext16 imm16 hn])
  · exact writesRegAndNZ_of_finishWithFlags (exec_orri ..)
      (or_eq_of_bits fun n hn => by rw [h n hn, getLsbD_zext16 imm16 hn])
  · exact writesRegAndNZ_of_finishWithFlags (exec_xori ..)
      (xor_eq_of_bits fun n hn => by rw [h n hn, getLsbD_zext16 imm16 hn])

end Sys2Proof.Proofs.Bitwise
end

section

/-!
# Addition, subtraction and access to `ep`

A sum and a difference of words are those of their values modulo 2^32, and each overflow flag's condition on the signs is
the signed result out of range (10_state.md R21).
-/

namespace Sys2Proof.Proofs.Addition

open Sys2Proof.Machine Sys2Proof.Claims Sys2Proof.Proofs.Decoding Sys2Proof.Proofs.Endings

/-! ## Results as numbers -/

theorem add_eq_ofNat (a b : Word) : a + b = BitVec.ofNat 32 (a.toNat + b.toNat) :=
  BitVec.eq_of_toNat_eq (by rw [BitVec.toNat_add, BitVec.toNat_ofNat])

theorem sub_eq_ofInt (a b : Word) : a - b = BitVec.ofInt 32 (a.toNat - b.toNat) := by
  rw [sub_eq_add_neg, sub_eq_add_neg, BitVec.ofInt_add, BitVec.ofInt_neg, BitVec.ofInt_natCast, BitVec.ofInt_natCast]
  simp

/-! ## Flags -/

section

variable {c : Config} {f : Flags} {n z carry overflow : Prop}

/-- Under `FLAGS` = `table`, O is whatever its condition comes to. -/
theorem flagsAre_overflow (hf : FlagsAre c n z carry overflow f) (ht : c.flagsMode = .table) :
    f.o = true ↔ overflow := by
  obtain ⟨-, -, hco⟩ := hf
  exact (hco ht).2

/-- The same four conditions in other words. -/
theorem flagsAre_congr {n' z' carry' overflow' : Prop} (hf : FlagsAre c n z carry overflow f) (hn : n ↔ n') (hz : z ↔ z')
    (hc : carry ↔ carry') (ho : overflow ↔ overflow') : FlagsAre c n' z' carry' overflow' f := by
  rwa [← propext hn, ← propext hz, ← propext hc, ← propext ho]

end

section

variable (a b res : Word)

theorem addCarry_iff : addCarry a b = true ↔ 2 ^ 32 ≤ a.toNat + b.toNat := by
  rw [addCarry, decide_eq_true_iff]

theorem addOverflow_iff : addOverflow a b res = true ↔ a.msb = b.msb ∧ res.msb ≠ a.msb := by
  simp [addOverflow]

theorem subCarryFlag_iff (mode : SubCarry) :
    subCarryFlag mode a b = true ↔ if mode = .borrow then a.toNat < b.toNat else b.toNat ≤ a.toNat := by
  cases mode <;> simp [subCarryFlag]

theorem subOverflow_iff : subOverflow a b res = true ↔ a.msb ≠ b.msb ∧ res.msb ≠ a.msb := by
  simp [subOverflow]

theorem flagsAre_flagsOfAdd (c : Config) (old : Flags) :
    FlagsAre c (2 ^ 31 ≤ res.toNat) (res.toNat = 0) (2 ^ 32 ≤ a.toNat + b.toNat) (a.msb = b.msb ∧ res.msb ≠ a.msb)
      (flagsOfAdd c a b res old) :=
  flagsAre_congr (flagsAre_computeFlags ..) (msb_iff res) (beq_zero_iff res) (addCarry_iff a b) (addOverflow_iff a b res)

theorem flagsAre_flagsOfSub (c : Config) (old : Flags) :
    FlagsAre c (2 ^ 31 ≤ res.toNat) (res.toNat = 0)
      (if c.subCarry = .borrow then a.toNat < b.toNat else b.toNat ≤ a.toNat) (a.msb ≠ b.msb ∧ res.msb ≠ a.msb)
      (flagsOfSub c a b res old) :=
  flagsAre_congr (flagsAre_computeFlags ..) (msb_iff res) (beq_zero_iff res) (subCarryFlag_iff a b _)
    (subOverflow_iff a b res)

/-- The operands' signs agree and differ from the sum's exactly when the signed sum is out of range. -/
theorem add_signs_iff_out_of_range :
    (a.msb = b.msb ∧ (a + b).msb ≠ a.msb) ↔ a.toInt + b.toInt < -2 ^ 31 ∨ 2 ^ 31 ≤ a.toInt + b.toInt := by
  have h := BitVec.saddOverflow_eq a b
  rw [BitVec.saddOverflow, Bool.eq_iff_iff] at h
  simpa [or_comm] using h.symm

/-- The operands' signs differ and the difference's is not the minuend's exactly when the signed difference is out of
range. -/
theorem sub_signs_iff_out_of_range :
    (a.msb ≠ b.msb ∧ (a - b).msb ≠ a.msb) ↔ a.toInt - b.toInt < -2 ^ 31 ∨ 2 ^ 31 ≤ a.toInt - b.toInt := by
  have h := BitVec.ssubOverflow_eq a b
  rw [BitVec.ssubOverflow, Bool.eq_iff_iff] at h
  have hsigns : (a.msb ≠ b.msb ∧ (a - b).msb ≠ a.msb) ↔
      (!a.msb && b.msb && (a - b).msb || a.msb && !b.msb && !(a - b).msb) = true := by
    cases a.msb <;> cases b.msb <;> simp
  rw [hsigns, ← h]
  simp [or_comm]

end

/-- An instruction that ends by writing a register and the flags. -/
theorem writesWithFlags_of_setFlags {i : Instr} {s : State} {rt : Reg} {v : Word} {f : Flags} {P : Flags → Prop}
    (hi : exec i s = .next ((s.writeReg rt v).setFlags f).advance) (hP : P f) : WritesWithFlags i s rt v s.ep P :=
  ⟨_, hi, hP, next_writeReg_setFlags_advance ..⟩

/-! ## Addition and subtraction -/

/-- Settles O33: both end in `finish` with the sum's or the difference's word. -/
theorem addAndSubtract : Obligations.AddAndSubtract := by
  unfold Obligations.AddAndSubtract
  refine ⟨encodedR_of_fields fun _ => ⟨rfl, rfl, rfl⟩,
    encodedR_of_fields fun _ => ⟨rfl, rfl, rfl⟩, fun s rt ra rb => ⟨?_, ?_⟩⟩
  · exact writesReg_of_finish (exec_addr ..) (add_eq_ofNat ..)
  · exact writesReg_of_finish (exec_subr ..) (sub_eq_ofInt ..)

/-- Settles O34: the flags are `flagsOfAdd`'s, whose condition for O is the signed sum out of range. -/
theorem addSettingFlags : Obligations.AddSettingFlags := by
  unfold Obligations.AddSettingFlags
  refine ⟨encodedR_of_fields fun _ => ⟨rfl, rfl, rfl⟩, ?_⟩
  rintro s rt ra rb a b res rfl rfl rfl
  rw [← add_eq_ofNat]
  have hf := flagsAre_flagsOfAdd (s.readReg ra) (s.readReg rb) (s.readReg ra + s.readReg rb) s.config s.flags
  exact writesWithFlags_of_setFlags (exec_addf ..)
    ⟨hf, fun ht => (flagsAre_overflow hf ht).trans (add_signs_iff_out_of_range ..)⟩

/-- Settles O35: the flags are `flagsOfSub`'s, whose condition for O is the signed difference out of range. -/
theorem subtractSettingFlags : Obligations.SubtractSettingFlags := by
  unfold Obligations.SubtractSettingFlags
  refine ⟨encodedR_of_fields fun _ => ⟨rfl, rfl, rfl⟩, ?_⟩
  rintro s rt ra rb a b res rfl rfl rfl
  rw [← sub_eq_ofInt]
  have hf := flagsAre_flagsOfSub (s.readReg ra) (s.readReg rb) (s.readReg ra - s.readReg rb) s.config s.flags
  exact writesWithFlags_of_setFlags (exec_subf ..)
    ⟨hf, fun ht => (flagsAre_overflow hf ht).trans (sub_signs_iff_out_of_range ..)⟩

/-! ## Access to `ep` -/

theorem next_setEp_advance (s : State) (v : Word) :
    Next s (s.setEp v).advance s.readReg v (s.pc + 4#32) s.flags := by
  constructor <;> simp

theorem exec_wrep_eq_next (ra : Reg) (s : State) : exec (.wrep ra) s = .next (s.setEp (s.readReg ra)).advance :=
  exec_wrep ra s

theorem writesReg_rdep (s : State) (rt : Reg) : WritesReg (.rdep rt) s rt s.ep :=
  writesReg_of_finish (exec_rdep rt s) rfl

/-- Settles O39: RDEP after WREP reads the `ep` that WREP's next state holds. -/
theorem readAndWriteEp : Obligations.ReadAndWriteEp := by
  unfold Obligations.ReadAndWriteEp
  refine ⟨encodedR_of_fields fun _ => ⟨rfl, rfl, rfl⟩,
    encodedR_of_fields fun _ => ⟨rfl, rfl, rfl⟩, writesReg_rdep,
    fun s ra => ⟨_, exec_wrep_eq_next ra s, next_setEp_advance ..⟩, fun s t rt ra h => ?_⟩
  obtain rfl : (s.setEp (s.readReg ra)).advance = t := by
    rw [exec_wrep_eq_next] at h
    exact Host.Outcome.next.inj h
  exact writesReg_rdep _ rt

end Sys2Proof.Proofs.Addition
end

section

/-!
# Multiplication and division

The 64-bit product is that of the operands' values, cut into its two words; the quotient and remainder of
41_arithmetic.md R102 are unique, so where the quotient fits they are the two that `divide` answers.
-/

namespace Sys2Proof.Proofs.Multiplication

open Sys2Proof.Machine Sys2Proof.Claims Sys2Proof.Proofs.Decoding Sys2Proof.Proofs.Endings Sys2Proof.Proofs.Addition

/-! ## Instructions that write a register and `ep` -/

section

variable {i : Instr} {s : State} {rt : Reg} {res rem v ep : Word} {f : Flags} {P : Flags → Prop}

theorem next_writeReg_setEp_advance (s : State) (rt : Reg) (v ep : Word) :
    Next s ((s.writeReg rt v).setEp ep).advance (regsAfter s rt v) ep (s.pc + 4#32) s.flags := by
  constructor <;> simp [readReg_writeReg_eq_regsAfter, -readReg_writeReg]

theorem next_writeReg_setEp_setFlags_advance (s : State) (rt : Reg) (v ep : Word) (f : Flags) :
    Next s (((s.writeReg rt v).setEp ep).setFlags f).advance (regsAfter s rt v) ep (s.pc + 4#32) f := by
  constructor <;> simp [readReg_writeReg_eq_regsAfter, -readReg_writeReg]

theorem writesWithFlags_of_setEp (hi : exec i s = .next ((s.writeReg rt res).setEp rem).advance) (hv : res = v)
    (he : rem = ep) : WritesWithFlags i s rt v ep (fun f => f = s.flags) := by
  subst hv he
  have hn := next_writeReg_setEp_advance s rt res rem
  exact ⟨_, hi, hn.flags, hn.flags.symm ▸ hn⟩

theorem writesWithFlags_of_setEp_setFlags
    (hi : exec i s = .next (((s.writeReg rt res).setEp rem).setFlags f).advance) (hv : res = v) (he : rem = ep)
    (hP : P f) : WritesWithFlags i s rt v ep P :=
  hv ▸ he ▸ ⟨_, hi, hP, next_writeReg_setEp_setFlags_advance ..⟩

end

/-! ## The product -/

/-- `divisorOf` is the value of any operand under a signedness: modulo 2^64 it is the word's extension. -/
theorem ofInt_divisorOf (signed : Bool) (a : Word) :
    BitVec.ofInt 64 (divisorOf signed a) = if signed then a.signExtend 64 else a.setWidth 64 := by
  cases signed with
  | true => rfl
  | false => exact (BitVec.ofInt_natCast ..).trans (BitVec.ofNat_toNat ..)

theorem abs_divisorOf_lt (signed : Bool) (a : Word) : |divisorOf signed a| < 2 ^ 32 := by
  rw [abs_lt]
  cases signed with
  | true =>
    have h1 : -2 ^ 31 ≤ a.toInt := a.le_toInt
    have h2 : a.toInt < 2 ^ 31 := a.toInt_lt
    simp only [divisorOf, if_true]
    omega
  | false =>
    have h := a.isLt
    simp only [divisorOf, Bool.false_eq_true, if_false]
    omega

theorem productOf_eq_mul (signed : Bool) (a b : Word) :
    productOf signed a b = divisorOf signed a * divisorOf signed b := by
  cases signed <;> rfl

theorem product_eq_ofInt (signed : Bool) (a b : Word) : product signed a b = BitVec.ofInt 64 (productOf signed a b) := by
  rw [productOf_eq_mul, BitVec.ofInt_mul, ofInt_divisorOf, ofInt_divisorOf]
  cases signed <;> rfl

theorem abs_productOf_lt (signed : Bool) (a b : Word) : |productOf signed a b| < 2 ^ 64 := by
  rw [productOf_eq_mul, abs_mul]
  exact mul_lt_mul'' (abs_divisorOf_lt signed a) (abs_divisorOf_lt signed b) (abs_nonneg _) (abs_nonneg _)

theorem extract_low_ofInt (p : Int) : (BitVec.ofInt 64 p).extractLsb' 0 32 = BitVec.ofInt 32 p := by
  apply BitVec.eq_of_toNat_eq
  rw [BitVec.extractLsb'_toNat, BitVec.toNat_ofInt, BitVec.toNat_ofInt]
  omega

theorem extract_high_ofInt (p : Int) : (BitVec.ofInt 64 p).extractLsb' 32 32 = BitVec.ofInt 32 (p / 2 ^ 32) := by
  apply BitVec.eq_of_toNat_eq
  rw [BitVec.extractLsb'_toNat, BitVec.toNat_ofInt, BitVec.toNat_ofInt, Nat.shiftRight_eq_div_pow]
  omega

theorem msb_ofInt_iff (p : Int) : (BitVec.ofInt 64 p).msb = true ↔ 2 ^ 63 ≤ p % 2 ^ 64 := by
  rw [BitVec.msb_eq_decide, decide_eq_true_iff, BitVec.toNat_ofInt]
  omega

/-- A word made of a number of smaller magnitude than its modulus is zero only if the number is. -/
theorem ofInt_eq_zero_iff {w : Nat} {x : Int} (hx : |x| < 2 ^ w) : BitVec.ofInt w x = 0#w ↔ x = 0 := by
  refine ⟨fun h => ?_, fun h => h ▸ rfl⟩
  have hmod := congrArg BitVec.toInt h
  rw [BitVec.toInt_ofInt, BitVec.toInt_zero, ← Int.dvd_iff_bmod_eq_zero] at hmod
  exact Int.eq_zero_of_abs_lt_dvd hmod (by exact_mod_cast hx)

theorem flagsAre_flagsOfMul (c : Config) (a b : Word) {p : Int} (hp : |p| < 2 ^ 64) (old : Flags) :
    FlagsAre c (2 ^ 63 ≤ p % 2 ^ 64) (p = 0) (old.c = true) (old.o = true)
      (flagsOfMul c a b (BitVec.ofInt 64 p) old) :=
  flagsAre_congr (flagsAre_computeFlags ..) (msb_ofInt_iff p) (beq_iff_eq.trans (ofInt_eq_zero_iff hp)) Iff.rfl Iff.rfl

/-- Settles O36: the word written to `x[rt]` and the one written to `ep` are the two halves of the 64-bit product. -/
theorem multiply : Obligations.Multiply := by
  unfold Obligations.Multiply
  refine ⟨encodedR_of_fields fun _ => ⟨rfl, rfl, rfl⟩,
    encodedR_of_fields fun _ => ⟨rfl, rfl, rfl⟩, ?_⟩
  rintro s rt ra rb p rfl
  have hp := product_eq_ofInt s.config.mulSigned (s.readReg ra) (s.readReg rb)
  have hlow := hp ▸ extract_low_ofInt (productOf s.config.mulSigned (s.readReg ra) (s.readReg rb))
  have hhigh := hp ▸ extract_high_ofInt (productOf s.config.mulSigned (s.readReg ra) (s.readReg rb))
  refine ⟨writesWithFlags_of_setEp (exec_mulr ..) hlow hhigh,
    writesWithFlags_of_setEp_setFlags (exec_mulf ..) hlow hhigh ?_⟩
  exact hp ▸ flagsAre_flagsOfMul _ _ _ (abs_productOf_lt ..) _

/-! ## Quotient and remainder -/

theorem toInt_append_eq_dividendOf (ep a : Word) : (ep ++ a).toInt = dividendOf true ep a := by
  rw [BitVec.toInt_append, dividendOf, mul_comm]
  rfl

theorem toNat_append_eq_dividendOf (ep a : Word) : ((ep ++ a).toNat : Int) = dividendOf false ep a := by
  rw [BitVec.toNat_append, ← Nat.shiftLeft_add_eq_or_of_lt a.isLt, Nat.shiftLeft_eq]
  simp [dividendOf]

/-- The quotient and remainder rounded toward zero are the only ones. -/
theorem dividesTo_unique {D d q r : Int} (h : DividesTo D d q r) : d ≠ 0 ∧ D.tdiv d = q ∧ D - q * d = r := by
  obtain ⟨hD, hr, hs⟩ := h
  have hd : d ≠ 0 := by
    rintro rfl
    exact absurd hr (by simp)
  obtain ⟨hlow, hhigh⟩ := abs_lt.1 (hr.trans_eq (Int.abs_eq_natAbs d))
  have hsum : r + d * q = D := by rw [hD, mul_comm, add_comm]
  have hq : D.tdiv d = q := by
    rcases le_total D 0 with h0 | h0
    · have hr0 : r ≤ 0 := hs.elim Eq.le fun hs => Int.sign_nonpos_iff.1 (hs ▸ Int.sign_nonpos_iff.2 h0)
      exact ((Int.tdiv_tmod_unique' h0 hd).2 ⟨hsum, hlow, hr0⟩).1
    · have hr0 : 0 ≤ r := hs.elim Eq.ge fun hs => Int.sign_nonneg_iff.1 (hs ▸ Int.sign_nonneg_iff.2 h0)
      exact ((Int.tdiv_tmod_unique h0 hd).2 ⟨hsum, hr0, hhigh⟩).1
  exact ⟨hd, hq, by rw [hD, add_sub_cancel_left]⟩

section

variable {q : Int}

theorem fits_signed_iff : Fits true q ↔ -2 ^ 31 ≤ q ∧ q < 2 ^ 31 := by
  rw [← Int.le_sub_one_iff]
  rfl

theorem fits_unsigned_iff : Fits false q ↔ 0 ≤ q ∧ q < 2 ^ 32 := Iff.rfl

theorem abs_lt_of_fits {signed : Bool} (h : Fits signed q) : |q| < 2 ^ 32 := by
  rw [abs_lt]
  cases signed with
  | true =>
    rw [fits_signed_iff] at h
    omega
  | false =>
    rw [fits_unsigned_iff] at h
    omega

end

theorem divideSigned_eq_some {ep a b : Word} {q r : Int} (h : DividesTo (dividendOf true ep a) b.toInt q r)
    (hq : Fits true q) : divideSigned ep a b = some (BitVec.ofInt 32 q, BitVec.ofInt 32 r) := by
  obtain ⟨hd, hdiv, hrem⟩ := dividesTo_unique h
  simp only [divideSigned, toInt_append_eq_dividendOf, hdiv, hrem]
  rw [if_neg hd, if_pos (fits_signed_iff.1 hq)]

theorem divideUnsigned_eq_some {ep a b : Word} {q r : Int} (h : DividesTo (dividendOf false ep a) b.toNat q r)
    (hq : Fits false q) : divideUnsigned ep a b = some (BitVec.ofInt 32 q, BitVec.ofInt 32 r) := by
  rw [← toNat_append_eq_dividendOf] at h
  obtain ⟨hd, hdiv, hrem⟩ := dividesTo_unique h
  have hdiv' : (((ep ++ a).toNat / b.toNat : Nat) : Int) = q := (Int.ofNat_tdiv ..).trans hdiv
  have hrem' : (((ep ++ a).toNat - (ep ++ a).toNat / b.toNat * b.toNat : Nat) : Int) = r := by
    rw [Nat.cast_sub (Nat.div_mul_le_self ..), Nat.cast_mul, hdiv', hrem]
  have hfit : (ep ++ a).toNat / b.toNat < 2 ^ 32 := by
    have hlt : (((ep ++ a).toNat / b.toNat : Nat) : Int) < 2 ^ 32 := hdiv' ▸ (fits_unsigned_iff.1 hq).2
    exact_mod_cast hlt
  simp only [divideUnsigned]
  rw [if_neg (by exact_mod_cast hd), if_pos hfit, ← hdiv', ← hrem', BitVec.ofInt_natCast, BitVec.ofInt_natCast]

theorem divide_eq_some {signed : Bool} {ep a b : Word} {q r : Int}
    (h : DividesTo (dividendOf signed ep a) (divisorOf signed b) q r) (hq : Fits signed q) :
    divide signed ep a b = some (BitVec.ofInt 32 q, BitVec.ofInt 32 r) := by
  cases signed with
  | true => exact divideSigned_eq_some h hq
  | false => exact divideUnsigned_eq_some h hq

/-! ## Division -/

section

variable {s : State} {rt ra rb : Reg} {q r : Word}
  (h : divide s.config.divSigned s.ep (s.readReg ra) (s.readReg rb) = some (q, r))

include h

theorem exec_divr_eq_next : exec (.divr rt ra rb) s = .next ((s.writeReg rt q).setEp r).advance := by
  rw [exec_divr, execDivr, h]

theorem exec_divf_eq_next : exec (.divf rt ra rb) s = .next (((s.writeReg rt q).setEp r).setFlags
    (flagsOfResult s.config .divf [s.ep, s.readReg ra, s.readReg rb] q s.flags)).advance := by
  rw [exec_divf, execDivf, h]

end

/-- DIVF's Z is the quotient's, which a quotient that fits keeps as a word. -/
theorem flagsAre_quotient (c : Config) (operands : List Word) {signed : Bool} {q : Int} (hq : Fits signed q) (old : Flags) :
    FlagsAre c (2 ^ 31 ≤ (BitVec.ofInt 32 q).toNat) (q = 0) (old.c = true) (old.o = true)
      (flagsOfResult c .divf operands (BitVec.ofInt 32 q) old) := by
  have hz : (BitVec.ofInt 32 q).toNat = 0 ↔ q = 0 :=
    (beq_zero_iff _).symm.trans (beq_iff_eq.trans (ofInt_eq_zero_iff (abs_lt_of_fits hq)))
  exact flagsAre_congr (flagsAre_flagsOfResult ..) Iff.rfl hz Iff.rfl Iff.rfl

/-- Settles O37: `divide` answers the given quotient and remainder, so neither division meets a corner. -/
theorem divide : Obligations.Divide := by
  unfold Obligations.Divide
  refine ⟨encodedR_of_fields fun _ => ⟨rfl, rfl, rfl⟩,
    encodedR_of_fields fun _ => ⟨rfl, rfl, rfl⟩, fun s rt ra rb q r hqr hq => ?_⟩
  have h := divide_eq_some hqr hq
  exact ⟨writesWithFlags_of_setEp (exec_divr_eq_next h) rfl rfl,
    writesWithFlags_of_setEp_setFlags (exec_divf_eq_next h) rfl rfl (flagsAre_quotient _ _ hq _)⟩

end Sys2Proof.Proofs.Multiplication
end

section

/-!
# Control flow

Each target is the number 42_control_flow.md gives for it, modulo 2^32. A jump only sets `pc`, a jump and link also
writes `r31`, and a branch sets `pc` to its target or to the next instruction's address as its condition says.
-/

namespace Sys2Proof.Proofs.ControlFlow

open Sys2Proof.Machine Sys2Proof.Claims Sys2Proof.Proofs.Decoding Sys2Proof.Proofs.Endings
open Sys2Proof.Proofs.Shifts Sys2Proof.Proofs.Addition

/-! ## Targets as numbers -/

theorem add_ofInt_eq_ofInt (a : Word) (x : Int) : a + BitVec.ofInt 32 x = BitVec.ofInt 32 (a.toNat + x) := by
  rw [BitVec.ofInt_add, BitVec.ofInt_natCast, BitVec.ofNat_toNat, BitVec.setWidth_eq]

theorem add_shl_eq_ofNat (a b : Word) (k : Nat) : a + shl b k = BitVec.ofNat 32 (a.toNat + b.toNat * 2 ^ k) := by
  rw [shl_eq_shifted, shifted, BitVec.ofNat_add, BitVec.ofNat_toNat, BitVec.setWidth_eq]

/-- A word offset is four times the immediate (30_encoding.md R57). -/
theorem wordOffset_eq_ofInt (imm26 : BitVec 26) : wordOffset imm26 = BitVec.ofInt 32 (imm26.toInt * 4) := by
  rw [BitVec.ofInt_mul, wordOffset, BitVec.shiftLeft_eq_mul_twoPow]
  rfl

theorem registerTarget_eq_ofNat (s : State) (ra rb : Reg) (imm5 : BitVec 5) :
    s.registerTarget ra rb imm5 = BitVec.ofNat 32 ((s.readReg ra).toNat + (s.readReg rb).toNat * 2 ^ imm5.toNat) :=
  add_shl_eq_ofNat ..

theorem jumpTarget_eq_ofInt (s : State) (imm26 : BitVec 26) :
    s.jumpTarget imm26 = BitVec.ofInt 32 (s.pc.toNat + imm26.toInt * 4) := by
  rw [State.jumpTarget, wordOffset_eq_ofInt, add_ofInt_eq_ofInt]

theorem flagTarget_eq_ofInt (s : State) (rt : Reg) (imm21 : BitVec 21) :
    s.flagTarget rt imm21 = BitVec.ofInt 32 ((s.readReg rt).toNat + imm21.toInt) :=
  add_ofInt_eq_ofInt ..

theorem compareTarget_eq_ofInt (s : State) (imm16 : BitVec 16) :
    s.compareTarget imm16 = BitVec.ofInt 32 (s.pc.toNat + imm16.toInt) :=
  add_ofInt_eq_ofInt ..

theorem nextPc_eq_ofNat (s : State) : s.nextPc = BitVec.ofNat 32 (s.pc.toNat + 4) :=
  add_eq_ofNat ..

/-- Adding a multiple of four keeps an address aligned, also where the sum wraps. -/
theorem ofInt_add_mul_four_aligned {p : Nat} (hp : p % 4 = 0) (k : Int) :
    (BitVec.ofInt 32 (p + k * 4)).toNat % 4 = 0 := by
  rw [BitVec.toNat_ofInt]
  omega

/-! ## What a jump, a link and a branch leave -/

theorem next_setPc (s : State) (v : Word) : Next s (s.setPc v) s.readReg s.ep v s.flags := by
  constructor <;> simp

theorem readReg_link (s : State) : s.link.readReg = regsAfter s 31#5 (s.pc + 4#32) :=
  funext (readReg_writeReg_eq_regsAfter s 31#5 (s.pc + 4#32))

theorem next_link_setPc (s : State) (v : Word) :
    Next s (s.link.setPc v) (regsAfter s 31#5 (s.pc + 4#32)) s.ep v s.flags := by
  constructor <;> simp [← readReg_link, State.link]

section

variable {i : Instr} {s : State} {v pc : Word}

theorem jumpsTo_of_setPc (hi : exec i s = .next (s.setPc v)) (hv : v = pc) : JumpsTo i s pc :=
  hv ▸ ⟨_, hi, next_setPc s v⟩

theorem linksAndJumpsTo_of_link_setPc (hi : exec i s = .next (s.link.setPc v)) (hv : v = pc) :
    LinksAndJumpsTo i s pc :=
  hv ▸ ⟨_, hi, next_link_setPc s v⟩

/-- A branch whose condition is `p` sets `pc` to its target where `p` holds, else to the next instruction's address. -/
theorem jumpsTo_of_branch {taken : Bool} {p : Prop} [Decidable p] (hi : exec i s = s.branch taken v) (hv : v = pc)
    (hp : taken = true ↔ p) : JumpsTo i s (if p then pc else BitVec.ofNat 32 (s.pc.toNat + 4)) := by
  refine jumpsTo_of_setPc (hi.trans (branch_eq_next.2 rfl)) ?_
  rw [hv, nextPc_eq_ofNat]
  exact if_congr hp rfl rfl

end

/-! ## Jumps through registers -/

/-- Settles O40: JMPR only sets `pc`, to the register target's number. -/
theorem jumpThroughRegisters : Obligations.JumpThroughRegisters := by
  unfold Obligations.JumpThroughRegisters
  exact ⟨encodedR_of_fields fun _ => ⟨rfl, rfl, rfl⟩,
    fun s ra rb imm5 => jumpsTo_of_setPc (exec_jmpr ..) (registerTarget_eq_ofNat ..)⟩

/-- A word that the opcode maps give an instruction for and whose unused fields are zero is refused only by the
configuration. -/
theorem decode_eq_ite_wellFormed {c : Config} {w : Word} {i : Instr}
    (hd : decodeFields (fieldsOf c.rLayout w) = some i) (hu : unusedNonzero (fieldsOf c.rLayout w) i = false) :
    decode c w = if wellFormed c i = true then .ok i else .error (.reservedField w) := by
  simp [decode, hd, hu]

/-- Which JALRs the configuration refuses (42_control_flow.md R121). -/
theorem not_wellFormed_jalr_iff (c : Config) (ra rb : Reg) (imm5 : BitVec 5) :
    ¬ wellFormed c (.jalr ra rb imm5) = true ↔ c.jalrR31Mode = .refuse ∧ (ra = 31#5 ∨ rb = 31#5) := by
  simp [wellFormed, Instr.jalrReadsLink, or_iff_not_imp_left]

theorem decode_jalr {c : Config} {w : Word} (hop0 : (fieldsOf c.rLayout w).op0 = 0x00#6)
    (hop1 : (fieldsOf c.rLayout w).op1 = 0x1f#6) (hrt : (fieldsOf c.rLayout w).rt = 0#5) :
    decode c w =
      if c.jalrR31Mode = .refuse ∧ ((fieldsOf c.rLayout w).ra = 31#5 ∨ (fieldsOf c.rLayout w).rb = 31#5) then
        .error (.reservedField w)
      else .ok (.jalr (fieldsOf c.rLayout w).ra (fieldsOf c.rLayout w).rb (fieldsOf c.rLayout w).imm5) := by
  have hd : decodeFields (fieldsOf c.rLayout w) =
      some (.jalr (fieldsOf c.rLayout w).ra (fieldsOf c.rLayout w).rb (fieldsOf c.rLayout w).imm5) := by
    rw [decodeFields, hop0]
    simp only [decodeRType, hop1]
  rw [decode_eq_ite_wellFormed hd (unusedNonzero_eq_false.2 (List.forall_mem_singleton.2 hrt)), ← ite_not]
  exact if_congr (not_wellFormed_jalr_iff ..) rfl rfl

section

variable {s : State} {ra rb : Reg} {imm5 : BitVec 5}

/-- A JALR that is not refused links and jumps, its target read after the link under `new` alone
(42_control_flow.md R121). -/
theorem exec_jalr_eq_next (h : s.config.jalrR31Mode ≠ .refuse ∨ (ra ≠ 31#5 ∧ rb ≠ 31#5)) :
    exec (.jalr ra rb imm5) s = .next (s.link.setPc
      ((if s.config.jalrR31Mode = .new then s.link else s).registerTarget ra rb imm5)) := by
  rw [exec_jalr, execJalr]
  cases hm : s.config.jalrR31Mode with
  | old => rfl
  | new => rfl
  | refuse =>
    obtain ⟨hra, hrb⟩ := h.resolve_left (absurd hm)
    exact if_neg (not_or.2 ⟨hra, hrb⟩)

theorem exec_jalr_eq_refused (hm : s.config.jalrR31Mode = .refuse) (hr : ra = 31#5 ∨ rb = 31#5) :
    exec (.jalr ra rb imm5) s = .refused (.reservedField (encode s.config (.jalr ra rb imm5))) := by
  rw [exec_jalr, execJalr, hm]
  exact if_pos hr

end

/-- Settles O41: JALR is refused as `wellFormed` says, in `decode` and in `exec`; otherwise it links and jumps, reading
the registers of the linked state under `new`. -/
theorem jumpAndLinkThroughRegisters : Obligations.JumpAndLinkThroughRegisters := by
  unfold Obligations.JumpAndLinkThroughRegisters
  refine ⟨fun c w => decode_jalr, ?_⟩
  rintro s ra rb imm5 _ rfl
  refine ⟨fun h => linksAndJumpsTo_of_link_setPc (exec_jalr_eq_next h) ?_, exec_jalr_eq_refused⟩
  rw [registerTarget_eq_ofNat, ← readReg_link, apply_ite State.readReg]

/-! ## Jumps with an immediate -/

/-- Settles O42: JMPI sets `pc` to the jump target's number, JALI links besides. -/
theorem jumpWithImmediate : Obligations.JumpWithImmediate := by
  unfold Obligations.JumpWithImmediate
  refine ⟨encoded_of_fields fun _ => ⟨rfl, rfl, rfl⟩, encoded_of_fields fun _ => ⟨rfl, rfl, rfl⟩,
    fun s imm26 => ⟨?_, ?_, fun hp => ofInt_add_mul_four_aligned hp _⟩⟩
  · exact jumpsTo_of_setPc (exec_jmpi ..) (jumpTarget_eq_ofInt ..)
  · exact linksAndJumpsTo_of_link_setPc (exec_jali ..) (jumpTarget_eq_ofInt ..)

/-! ## Branches -/

/-- Settles O43: each is a branch to the flag target on its flag. -/
theorem branchOnFlag : Obligations.BranchOnFlag := by
  unfold Obligations.BranchOnFlag
  refine ⟨encoded_of_fields fun _ => ⟨rfl, rfl, rfl⟩, encoded_of_fields fun _ => ⟨rfl, rfl, rfl⟩,
    encoded_of_fields fun _ => ⟨rfl, rfl, rfl⟩, encoded_of_fields fun _ => ⟨rfl, rfl, rfl⟩, ?_⟩
  rintro s rt imm21 _ _ rfl rfl
  have htarget := flagTarget_eq_ofInt s rt imm21
  refine ⟨?_, ?_, ?_, ?_⟩
  · exact jumpsTo_of_branch (exec_brnr ..) htarget Iff.rfl
  · exact jumpsTo_of_branch (exec_bror ..) htarget Iff.rfl
  · exact jumpsTo_of_branch (exec_brcr ..) htarget Iff.rfl
  · exact jumpsTo_of_branch (exec_brzr ..) htarget Iff.rfl

/-- Settles O44: BRNE is a branch to the compare target on the registers' difference. -/
theorem branchIfNotEqual : Obligations.BranchIfNotEqual := by
  unfold Obligations.BranchIfNotEqual
  exact ⟨encoded_of_fields fun _ => ⟨rfl, rfl, rfl⟩,
    fun s rt ra imm16 => jumpsTo_of_branch (exec_brne ..) (compareTarget_eq_ofInt ..) bne_iff_ne⟩

/-- BRGT's comparison is that of the operands' values under `BRGT_SIGNED`. -/
theorem greater_iff (signed : Bool) (a b : Word) :
    greater signed a b = true ↔ if signed then b.toInt < a.toInt else (b.toNat : Int) < a.toNat := by
  cases signed with
  | true => exact decide_eq_true_iff
  | false => exact decide_eq_true_iff.trans Int.ofNat_lt.symm

/-- Settles O45: BRGT is a branch to the compare target on `greater`. -/
theorem branchIfGreater : Obligations.BranchIfGreater := by
  unfold Obligations.BranchIfGreater
  exact ⟨encoded_of_fields fun _ => ⟨rfl, rfl, rfl⟩,
    fun s rt ra imm16 => jumpsTo_of_branch (exec_brgt ..) (compareTarget_eq_ofInt ..) (greater_iff ..)⟩

end Sys2Proof.Proofs.ControlFlow
end

section

/-!
# Loads and stores

An access of `n` bytes meets the addresses `at_ addr 0`, `at_ addr 1`, ... of 20_memory.md R32. A load is `State.load` with
an extension that makes the statement's value of the bytes; a store is `State.store` of the cells `(at_ addr k, byteAt v k)`.
-/

namespace Sys2Proof.Proofs.LoadStore

open Sys2Proof.Machine Sys2Proof.Claims Sys2Proof.Proofs.Encoding Sys2Proof.Proofs.Decoding Sys2Proof.Proofs.Endings
open Sys2Proof.Proofs.Addition Sys2Proof.Proofs.ControlFlow

/-! ## Addresses and bytes of an access -/

theorem effectiveAddress_eq_eaOf (s : State) (ra : Reg) (imm16 : BitVec 16) :
    s.effectiveAddress ra imm16 = eaOf s ra imm16 :=
  add_ofInt_eq_ofInt ..

theorem add_ofNat_eq_at (addr : Word) (k : Nat) : addr + BitVec.ofNat 32 k = at_ addr k := by
  rw [at_, BitVec.ofNat_add, BitVec.ofNat_toNat, BitVec.setWidth_eq]

theorem accessBytes_eq_map_at (addr : Word) (n : Nat) : accessBytes addr n = (List.range n).map (at_ addr) :=
  List.map_congr_left fun k _ => add_ofNat_eq_at addr k

theorem forall_mem_accessBytes {addr : Word} {n : Nat} {P : Word → Prop} :
    (∀ a ∈ accessBytes addr n, P a) ↔ ∀ k < n, P (at_ addr k) := by
  simp [accessBytes_eq_map_at]

theorem byteOf_eq_byteAt (v : Word) (k : Nat) : byteOf v k = byteAt v k :=
  BitVec.eq_of_toNat_eq ((toNat_extract v (8 * k) 8).trans (BitVec.toNat_ofNat ..).symm)

theorem storeCells_eq_map_at (addr : Word) (n : Nat) (v : Word) :
    storeCells addr n v = (List.range n).map fun k => (at_ addr k, byteAt v k) :=
  List.map_congr_left fun k _ => Prod.ext (add_ofNat_eq_at addr k) (byteOf_eq_byteAt v k)

/-! ## LDUI -/

theorem withUpperHalf_eq_ofNat (imm16 : BitVec 16) (v : Word) :
    withUpperHalf imm16 v = BitVec.ofNat 32 (imm16.toNat * 2 ^ 16 + v.toNat % 2 ^ 16) := by
  have hlow : (v.extractLsb' 0 16).toNat < 2 ^ 16 := (v.extractLsb' 0 16).isLt
  have hnat : (withUpperHalf imm16 v).toNat = imm16.toNat * 2 ^ 16 + v.toNat % 2 ^ 16 := by
    rw [withUpperHalf, BitVec.toNat_append, ← Nat.shiftLeft_add_eq_or_of_lt hlow, Nat.shiftLeft_eq, toNat_extract_low]
  rw [← hnat, BitVec.ofNat_toNat, BitVec.setWidth_eq]

/-- Settles O47: LDUI ends in `finish` with the immediate put above the low half. -/
theorem loadUpperImmediate : Obligations.LoadUpperImmediate := by
  unfold Obligations.LoadUpperImmediate
  exact ⟨encoded_of_fields fun _ => ⟨rfl, rfl, rfl⟩,
    fun s rt imm16 => writesReg_of_finish (exec_ldui ..) (withUpperHalf_eq_ofNat ..)⟩

/-! ## The value of a load -/

section

variable (B : Nat → Byte)

theorem littleEndian_eq_value1 : littleEndian ((List.range 1).map B) = value1 B := rfl

theorem littleEndian_eq_value2 : littleEndian ((List.range 2).map B) = value2 B := rfl

theorem littleEndian_eq_value4 : littleEndian ((List.range 4).map B) = value4 B := by
  simp only [List.range, List.range.loop, List.map, littleEndian, value4]
  omega

theorem value1_lt : value1 B < 2 ^ 8 := (B 0).isLt

theorem value2_lt : value2 B < 2 ^ 16 := by
  have h0 := (B 0).isLt
  have h1 := (B 1).isLt
  rw [value2]
  omega

end

section

variable {n v : Nat}

/-- The sign extension of an `n`-bit value. -/
theorem signExtend_eq_sextOf (h0 : 0 < n) (hn : n ≤ 32) (hv : v < 2 ^ n) :
    ((BitVec.ofNat 32 v).setWidth n).signExtend 32 = sextOf n v := by
  have hsign : 2 * v < 2 ^ n ↔ v < 2 ^ (n - 1) := by
    rw [← Nat.two_pow_pred_mul_two h0]
    omega
  rw [BitVec.setWidth_ofNat_of_le hn, BitVec.signExtend, BitVec.toInt_eq_toNat_cond, BitVec.toNat_ofNat,
    Nat.mod_eq_of_lt hv, sextOf, Nat.cast_pow, Nat.cast_ofNat]
  exact congrArg _ (if_congr hsign rfl rfl)

/-- The zero extension of an `n`-bit value. -/
theorem zeroExtend_eq_ofNat (hn : n ≤ 32) (hv : v < 2 ^ n) :
    ((BitVec.ofNat 32 v).setWidth n).setWidth 32 = BitVec.ofNat 32 v := by
  rw [BitVec.setWidth_ofNat_of_le hn, BitVec.setWidth_ofNat_of_le_of_lt hn hv]

end

/-! ## Loads -/

/-- Each load is `State.load` of its width, and its extension makes the given value of any bytes. -/
theorem exec_of_mem_loads {rt ra : Reg} {imm16 : BitVec 16} {p : Instr × Nat × ((Nat → Byte) → Word)}
    (hp : p ∈ loads rt ra imm16) (s : State) :
    ∃ extend, exec p.1 s = s.load p.2.1 extend rt ra imm16 ∧
      ∀ B, extend (BitVec.ofNat 32 (littleEndian ((List.range p.2.1).map B))) = p.2.2 B := by
  simp only [loads, List.mem_cons, List.not_mem_nil, or_false] at hp
  rcases hp with rfl | rfl | rfl | rfl | rfl
  · refine ⟨_, exec_ldwd .., fun B => ?_⟩
    rw [littleEndian_eq_value4]
    rfl
  · refine ⟨_, exec_ldhs .., fun B => ?_⟩
    rw [littleEndian_eq_value2]
    exact signExtend_eq_sextOf (by decide) (by decide) (value2_lt B)
  · refine ⟨_, exec_ldhu .., fun B => ?_⟩
    rw [littleEndian_eq_value2]
    exact zeroExtend_eq_ofNat (by decide) (value2_lt B)
  · refine ⟨_, exec_ldbs .., fun B => ?_⟩
    rw [littleEndian_eq_value1]
    exact signExtend_eq_sextOf (by decide) (by decide) (value1_lt B)
  · refine ⟨_, exec_ldbu .., fun B => ?_⟩
    rw [littleEndian_eq_value1]
    exact zeroExtend_eq_ofNat (by decide) (value1_lt B)

/-- A load from RAM makes its value of the bytes of memory and asks the environment for none. -/
theorem load_eq_finish {s : State} {rt ra : Reg} {imm16 : BitVec 16} {n : Nat} (h : InRam s (eaOf s ra imm16) n)
    (extend : Word → Word) :
    s.load n extend rt ra imm16 = s.finish rt (extend (BitVec.ofNat 32
      (littleEndian ((List.range n).map fun k => s.mem.read (at_ (eaOf s ra imm16) k))))) := by
  rw [State.load, effectiveAddress_eq_eaOf, memRead_ram (forall_mem_accessBytes.2 h), accessBytes_eq_map_at, List.map_map]
  rfl

/-- Settles O48: a load from RAM ends in `finish` with the value its extension makes of the bytes of memory. -/
theorem loadsFromRam : Obligations.LoadsFromRam := by
  unfold Obligations.LoadsFromRam
  refine ⟨encoded_of_fields fun _ => ⟨rfl, rfl, rfl⟩, encoded_of_fields fun _ => ⟨rfl, rfl, rfl⟩,
    encoded_of_fields fun _ => ⟨rfl, rfl, rfl⟩, encoded_of_fields fun _ => ⟨rfl, rfl, rfl⟩,
    encoded_of_fields fun _ => ⟨rfl, rfl, rfl⟩, fun s rt ra imm16 p hp hram => ?_⟩
  obtain ⟨extend, hexec, hvalue⟩ := exec_of_mem_loads hp s
  exact writesReg_of_finish (hexec.trans (load_eq_finish hram extend)) (hvalue _)

/-! ## Stores -/

/-- Each store is `State.store` of its width, which is at most a word's. -/
theorem exec_of_mem_stores {rt ra : Reg} {imm16 : BitVec 16} {p : Instr × Nat} (hp : p ∈ stores rt ra imm16) (s : State) :
    p.2 ≤ 4 ∧ exec p.1 s = s.store p.2 rt ra imm16 := by
  simp only [stores, List.mem_cons, List.not_mem_nil, or_false] at hp
  rcases hp with rfl | rfl | rfl
  · exact ⟨le_rfl, exec_stwd ..⟩
  · exact ⟨(by decide : 2 ≤ 4), exec_sthw ..⟩
  · exact ⟨(by decide : 1 ≤ 4), exec_stsb ..⟩

theorem store_eq_next_storeBytes {s : State} {rt ra : Reg} {imm16 : BitVec 16} {n : Nat}
    (h : Mapped s (eaOf s ra imm16) n) :
    s.store n rt ra imm16 = .next (s.storeBytes (storeCells (eaOf s ra imm16) n (s.readReg rt))).advance := by
  rw [store_eq_next, effectiveAddress_eq_eaOf]
  exact ⟨forall_mem_accessBytes.2 h, rfl⟩

section

variable {s : State} (hwf : s.mem.wf = true) {addr : Word} {n : Nat} (v : Word)

include hwf

theorem read_storeBytes_at (hn : n ≤ 2 ^ 32) {k : Nat} (hk : k < n) (hram : s.region (at_ addr k) = .ram) :
    (s.storeBytes (storeCells addr n v)).mem.read (at_ addr k) = byteAt v k := by
  have hc : (at_ addr k, byteAt v k) ∈ storeCells addr n v := by
    rw [storeCells_eq_map_at]
    exact List.mem_map_of_mem (List.mem_range.2 hk)
  have hnodup : ((storeCells addr n v).map Prod.fst).Nodup := by
    rw [storeCells_addresses]
    exact accessBytes_nodup addr hn
  exact storeBytes_read_inside hwf hnodup hc hram

theorem read_storeBytes_of_not_stored {a : Word} (ha : (∀ k < n, a ≠ at_ addr k) ∨ s.region a ≠ .ram) :
    (s.storeBytes (storeCells addr n v)).mem.read a = s.mem.read a := by
  refine storeBytes_read_outside hwf _ (ha.imp_left fun hne hmem => ?_)
  rw [storeCells_addresses] at hmem
  exact forall_mem_accessBytes.2 hne a hmem rfl

end

/-- The I/O cells of a store are those of its access with the bytes of the stored word. -/
theorem cellsIn_io_storeCells (s : State) (addr : Word) (n : Nat) (v : Word) :
    s.cellsIn .io (storeCells addr n v) = ioCells s addr n (byteAt v) := by
  rw [State.cellsIn, storeCells_eq_map_at, List.filter_map]
  rfl

/-- Settles O50: a mapped store answers `storeBytes` of its cells; what memory reads there and elsewhere, and the event of
its I/O cells, are the lemmas above. -/
theorem stores : Obligations.Stores := by
  unfold Obligations.Stores
  refine ⟨encoded_of_fields fun _ => ⟨rfl, rfl, rfl⟩, encoded_of_fields fun _ => ⟨rfl, rfl, rfl⟩,
    encoded_of_fields fun _ => ⟨rfl, rfl, rfl⟩, fun s rt ra imm16 hwf p hp hmapped => ?_⟩
  obtain ⟨hwidth, hexec⟩ := exec_of_mem_stores hp s
  refine ⟨_, hexec.trans (store_eq_next_storeBytes hmapped), fun k hk hram => ?_, fun a ha => ?_, ?_, fun r => ?_,
    ?_, ?_, ?_, ?_, ?_⟩
  · exact read_storeBytes_at hwf _ (hwidth.trans (by decide)) hk hram
  · exact read_storeBytes_of_not_stored hwf _ ha
  · rw [advance_ioLog, storeBytes_ioLog, cellsIn_io_storeCells]
  · rw [readReg_advance, readReg_storeBytes]
  · rw [advance_ep, storeBytes_ep]
  · rw [advance_flags, storeBytes_flags]
  · rw [advance_pc, storeBytes_pc]
  · rw [advance_config, storeBytes_config]
  · rw [advance_draws, storeBytes_draws]

end Sys2Proof.Proofs.LoadStore
end

section

/-!
# The round trips between words and instructions

A word is put together again from the fields its format reads, so the word of an instruction is known from its fields, and
a word without a nonzero unused field from the instruction it decodes to.
-/

namespace Sys2Proof.Proofs.RoundTrip

open Sys2Proof.Machine Sys2Proof.Claims Sys2Proof.Proofs.Decoding Sys2Proof.Proofs.ControlFlow

/-! ## From an instruction to its word and back -/

/-- Every instruction reads back from its word, and the encoder writes zero in the unused fields. -/
theorem statement_of_instr (i : Instr) : Laws.EncodedFields.Statement i :=
  match i with
  | .sllr rt ra rb => Laws.EncodedFields.sllr rt ra rb
  | .slrf rt ra rb => Laws.EncodedFields.slrf rt ra rb
  | .srlr rt ra rb => Laws.EncodedFields.srlr rt ra rb
  | .srrf rt ra rb => Laws.EncodedFields.srrf rt ra rb
  | .srar rt ra rb => Laws.EncodedFields.srar rt ra rb
  | .sras rt ra rb => Laws.EncodedFields.sras rt ra rb
  | .slli rt ra imm5 => Laws.EncodedFields.slli rt ra imm5
  | .slif rt ra imm5 => Laws.EncodedFields.slif rt ra imm5
  | .srli rt ra imm5 => Laws.EncodedFields.srli rt ra imm5
  | .srif rt ra imm5 => Laws.EncodedFields.srif rt ra imm5
  | .srai rt ra imm5 => Laws.EncodedFields.srai rt ra imm5
  | .sraj rt ra imm5 => Laws.EncodedFields.sraj rt ra imm5
  | .andr rt ra rb => Laws.EncodedFields.andr rt ra rb
  | .adrf rt ra rb => Laws.EncodedFields.adrf rt ra rb
  | .orrr rt ra rb => Laws.EncodedFields.orrr rt ra rb
  | .orrf rt ra rb => Laws.EncodedFields.orrf rt ra rb
  | .notr rt ra => Laws.EncodedFields.notr rt ra
  | .notf rt ra => Laws.EncodedFields.notf rt ra
  | .xorr rt ra rb => Laws.EncodedFields.xorr rt ra rb
  | .xorf rt ra rb => Laws.EncodedFields.xorf rt ra rb
  | .andi rt ra imm16 => Laws.EncodedFields.andi rt ra imm16
  | .orri rt ra imm16 => Laws.EncodedFields.orri rt ra imm16
  | .xori rt ra imm16 => Laws.EncodedFields.xori rt ra imm16
  | .addr rt ra rb => Laws.EncodedFields.addr rt ra rb
  | .addf rt ra rb => Laws.EncodedFields.addf rt ra rb
  | .subr rt ra rb => Laws.EncodedFields.subr rt ra rb
  | .subf rt ra rb => Laws.EncodedFields.subf rt ra rb
  | .mulr rt ra rb => Laws.EncodedFields.mulr rt ra rb
  | .mulf rt ra rb => Laws.EncodedFields.mulf rt ra rb
  | .divr rt ra rb => Laws.EncodedFields.divr rt ra rb
  | .divf rt ra rb => Laws.EncodedFields.divf rt ra rb
  | .rdep rt => Laws.EncodedFields.rdep rt
  | .wrep ra => Laws.EncodedFields.wrep ra
  | .jmpr ra rb imm5 => Laws.EncodedFields.jmpr ra rb imm5
  | .jalr ra rb imm5 => Laws.EncodedFields.jalr ra rb imm5
  | .jmpi imm26 => Laws.EncodedFields.jmpi imm26
  | .jali imm26 => Laws.EncodedFields.jali imm26
  | .brnr rt imm21 => Laws.EncodedFields.brnr rt imm21
  | .bror rt imm21 => Laws.EncodedFields.bror rt imm21
  | .brcr rt imm21 => Laws.EncodedFields.brcr rt imm21
  | .brzr rt imm21 => Laws.EncodedFields.brzr rt imm21
  | .brne rt ra imm16 => Laws.EncodedFields.brne rt ra imm16
  | .brgt rt ra imm16 => Laws.EncodedFields.brgt rt ra imm16
  | .ldui rt imm16 => Laws.EncodedFields.ldui rt imm16
  | .ldwd rt ra imm16 => Laws.EncodedFields.ldwd rt ra imm16
  | .ldhs rt ra imm16 => Laws.EncodedFields.ldhs rt ra imm16
  | .ldhu rt ra imm16 => Laws.EncodedFields.ldhu rt ra imm16
  | .ldbs rt ra imm16 => Laws.EncodedFields.ldbs rt ra imm16
  | .ldbu rt ra imm16 => Laws.EncodedFields.ldbu rt ra imm16
  | .stwd rt ra imm16 => Laws.EncodedFields.stwd rt ra imm16
  | .sthw rt ra imm16 => Laws.EncodedFields.sthw rt ra imm16
  | .stsb rt ra imm16 => Laws.EncodedFields.stsb rt ra imm16

/-- Settles O5: the opcode maps read the instruction from the fields of its word, whose unused fields are zero. -/
theorem decodeOfEncode : Obligations.DecodeOfEncode := by
  unfold Obligations.DecodeOfEncode
  exact fun c i hw => decode_encode_of_statement (statement_of_instr i) hw

/-! ## From a word to its instruction and back -/

section Words

variable (l : RLayout) (w : Word)

/-- Two neighbouring fields are one field. -/
theorem extract_append_extract {lo hi m n : Nat} (h : lo + n = hi) :
    w.extractLsb' hi m ++ w.extractLsb' lo n = w.extractLsb' lo (m + n) := by
  subst h
  ext i hi
  by_cases h : i < n
  · simp [BitVec.getElem_append, h]
  · simp [BitVec.getElem_append, h, show lo + n + (i - n) = lo + i by omega]

theorem encodeJ_fieldsOf : encodeJ (fieldsOf l w).op0 (fieldsOf l w).imm26 = w := by
  rw [encodeJ, fieldsOf, extract_append_extract w (by rfl)]
  exact BitVec.extractLsb'_eq_self

theorem encodeB_fieldsOf : encodeB (fieldsOf l w).op0 (fieldsOf l w).rt (fieldsOf l w).imm21 = w := by
  rw [encodeB, fieldsOf, extract_append_extract w (by rfl), extract_append_extract w (by rfl)]
  exact BitVec.extractLsb'_eq_self

theorem encodeI_fieldsOf : encodeI (fieldsOf l w).op0 (fieldsOf l w).rt (fieldsOf l w).ra (fieldsOf l w).imm16 = w := by
  rw [encodeI, fieldsOf, extract_append_extract w (by rfl), extract_append_extract w (by rfl),
    extract_append_extract w (by rfl)]
  exact BitVec.extractLsb'_eq_self

theorem encodeR_fieldsOf (h : (fieldsOf l w).op0 = 0x00#6) :
    encodeR l (fieldsOf l w).op1 (fieldsOf l w).rt (fieldsOf l w).ra (fieldsOf l w).rb (fieldsOf l w).imm5 = w := by
  cases l <;>
  · rw [encodeR, ← h, fieldsOf, extract_append_extract w (by rfl), extract_append_extract w (by rfl),
      extract_append_extract w (by rfl), extract_append_extract w (by rfl), extract_append_extract w (by rfl)]
    exact BitVec.extractLsb'_eq_self

end Words

/-- The word of an R-type instruction is the one made of the fields it was read from, where the unused ones are zero. -/
theorem encode_of_decodeRType {c : Config} {f : Fields} {i : Instr} (hd : decodeRType f = some i)
    (hu : ∀ u ∈ unusedFields f i, u = 0#5) : encode c i = encodeR c.rLayout f.op1 f.rt f.ra f.rb f.imm5 := by
  unfold decodeRType at hd
  split at hd <;> cases hd <;> simp_all [unusedFields, encode]

/-- The same for every word: its primary opcode says which format it is made in. -/
theorem encode_of_decodeFields {c : Config} {w : Word} {i : Instr} (hd : decodeFields (fieldsOf c.rLayout w) = some i)
    (hu : ∀ u ∈ unusedFields (fieldsOf c.rLayout w) i, u = 0#5) : encode c i = w := by
  have hR := encodeR_fieldsOf c.rLayout w
  have hI := encodeI_fieldsOf c.rLayout w
  have hB := encodeB_fieldsOf c.rLayout w
  have hJ := encodeJ_fieldsOf c.rLayout w
  generalize fieldsOf c.rLayout w = f at *
  unfold decodeFields at hd
  split at hd
  case h_1 hop => exact (encode_of_decodeRType hd hu).trans (hR hop)
  case h_22 => cases hd
  all_goals cases hd; simp_all [unusedFields, encode]

theorem decode_eq_ok_iff {c : Config} {w : Word} {i : Instr} :
    decode c w = .ok i ↔ decodeFields (fieldsOf c.rLayout w) = some i ∧
      ¬ (c.unusedFieldMode = .refuse ∧ unusedNonzero (fieldsOf c.rLayout w) i = true) ∧ wellFormed c i = true := by
  unfold decode
  cases hd : decodeFields (fieldsOf c.rLayout w) with
  | none => simp
  | some j =>
    simp only [Option.some.injEq]
    split_ifs <;> grind

/-- Settles O6: the word is made of the fields its instruction was read from, and under `refuse` the others are zero. -/
theorem encodeOfDecode : Obligations.EncodeOfDecode := by
  unfold Obligations.EncodeOfDecode
  intro c w i hc hd
  obtain ⟨hf, hu, -⟩ := decode_eq_ok_iff.1 hd
  refine encode_of_decodeFields hf (unusedNonzero_eq_false.1 ?_)
  simpa [hc] using hu

/-! ## Unused fields -/

/-- The statement's table of unused fields is the decoder's. -/
theorem unusedOf_eq_unusedFields (f : Fields) (i : Instr) : unusedOf f i = unusedFields f i := by
  cases i <;> rfl

theorem decode_eq_reservedField {c : Config} {w : Word} {i : Instr} (hd : decodeFields (fieldsOf c.rLayout w) = some i)
    (hc : c.unusedFieldMode = .refuse) (hu : unusedNonzero (fieldsOf c.rLayout w) i = true) :
    decode c w = .error (.reservedField w) := by
  simp [decode, hd, hc, hu]

/-- Settles O3: `decode` looks at the unused fields under `refuse` alone, and there at whether one is nonzero. -/
theorem unusedFieldsAreRefusedOrIgnored : Obligations.UnusedFieldsAreRefusedOrIgnored := by
  unfold Obligations.UnusedFieldsAreRefusedOrIgnored
  refine ⟨fun c i => ?_, fun c w i hd hw => ⟨fun hc => ?_, fun _ hu => ?_, fun hc hu => ?_⟩⟩
  · rw [unusedOf_eq_unusedFields]
    exact unusedNonzero_eq_false.1 (statement_of_instr i c).2
  · exact decode_eq_ok_iff.2 ⟨hd, by simp [hc], hw⟩
  · rw [unusedOf_eq_unusedFields] at hu
    exact decode_eq_ok hd (unusedNonzero_eq_false.2 hu) hw
  · rw [unusedOf_eq_unusedFields] at hu
    exact decode_eq_reservedField hd hc (by simpa [unusedNonzero] using hu)

/-! ## Unassigned opcodes -/

/-- The secondary opcode map is defined below 20 (30_encoding.md R59). -/
theorem decodeRType_eq_none_iff (f : Fields) : decodeRType f = none ↔ 0x20 ≤ f.op1.toNat := by
  unfold decodeRType
  split
  case h_33 =>
    rw [eq_self_iff_true, true_iff]
    simp only [imp_false, BitVec.toNat_eq, BitVec.reduceToNat] at *
    omega
  all_goals simp [*]

/-- The primary opcode map leaves 04 and 16 upwards unassigned (30_encoding.md R58). -/
theorem decodeFields_eq_none_iff (f : Fields) :
    decodeFields f = none ↔ f.op0 = 0x04#6 ∨ 0x16 ≤ f.op0.toNat ∨ (f.op0 = 0x00#6 ∧ 0x20 ≤ f.op1.toNat) := by
  unfold decodeFields
  split
  case h_1 hop => simp [hop, decodeRType_eq_none_iff]
  case h_22 =>
    rw [eq_self_iff_true, true_iff]
    simp only [imp_false, BitVec.toNat_eq, BitVec.reduceToNat] at *
    omega
  all_goals simp [*]

theorem decode_eq_illegalInstruction_iff (c : Config) (w : Word) :
    decode c w = .error (.illegalInstruction w) ↔ decodeFields (fieldsOf c.rLayout w) = none := by
  unfold decode
  cases decodeFields (fieldsOf c.rLayout w) with
  | none => simp
  | some i =>
    simp only [reduceCtorEq, iff_false]
    split_ifs <;> simp

end Sys2Proof.Proofs.RoundTrip
end

section

/-!
# Fetching

An aligned `pc` is fetched from as it stands, a misaligned one stops the step or has its low two bits cleared (30_encoding.md
R63 step 1). From RAM the word is the little-endian value of four bytes of memory and the fetch changes nothing, so a step is
then the decoded instruction of those bytes.
-/

namespace Sys2Proof.Proofs.Fetching

open Sys2Proof.Machine Sys2Proof.Claims Sys2Proof.Proofs.Encoding Sys2Proof.Proofs.Decoding Sys2Proof.Proofs.ControlFlow
open Sys2Proof.Proofs.Endings Sys2Proof.Proofs.LoadStore Sys2Proof.Proofs.RoundTrip

/-! ## The fetch address -/

theorem wordAligned_iff (a : Word) : wordAligned a = true ↔ a.toNat % 4 = 0 := by
  rw [wordAligned, beq_iff_eq, BitVec.toNat_eq, toNat_extract_low]
  rfl

theorem toNat_clearLow2 (a : Word) : (clearLow2 a).toNat = a.toNat / 4 * 4 := by
  have hmask : ∀ i < 32, (0xFFFFFFFC#32).getLsbD i = decide (2 ≤ i) := by decide
  have h : clearLow2 a = a >>> 2 <<< 2 := BitVec.eq_of_getLsbD_eq fun i hi => by
    rw [clearLow2, BitVec.getLsbD_and, hmask i hi, BitVec.getLsbD_shiftLeft, BitVec.getLsbD_ushiftRight]
    by_cases h2 : i < 2
    · simp [h2]
    · simp [h2, hi, Nat.le_of_not_lt h2]
  have hlt := a.isLt
  rw [h, BitVec.toNat_shiftLeft, BitVec.toNat_ushiftRight, Nat.shiftLeft_eq, Nat.shiftRight_eq_div_pow]
  omega

theorem clearLow2_aligned (a : Word) : (clearLow2 a).toNat % 4 = 0 := by
  rw [toNat_clearLow2, Nat.mul_mod_left]

theorem clearLow2_of_aligned {a : Word} (h : a.toNat % 4 = 0) : clearLow2 a = a :=
  BitVec.eq_of_toNat_eq ((toNat_clearLow2 a).trans (Nat.div_mul_cancel (Nat.dvd_of_mod_eq_zero h)))

theorem clearLow2_eq_ofNat (a : Word) : clearLow2 a = BitVec.ofNat 32 (a.toNat / 4 * 4) := by
  rw [← toNat_clearLow2, BitVec.ofNat_toNat, BitVec.setWidth_eq]

section

variable {s : State}

theorem fetchAddress_of_aligned (h : s.pc.toNat % 4 = 0) : s.fetchAddress = .ok s.pc := by
  rw [State.fetchAddress, if_pos ((wordAligned_iff _).2 h)]

theorem fetchAddress_stop (h : s.pc.toNat % 4 ≠ 0) (hm : s.config.pcAlignMode = .stop) :
    s.fetchAddress = .error (.misalignedFetch s.pc) := by
  rw [State.fetchAddress, if_neg (mt (wordAligned_iff _).1 h), hm]

/-- Under `mask` the low two bits are cleared, at any `pc`. -/
theorem fetchAddress_mask (hm : s.config.pcAlignMode = .mask) : s.fetchAddress = .ok (clearLow2 s.pc) := by
  by_cases h : s.pc.toNat % 4 = 0
  · rw [fetchAddress_of_aligned h, clearLow2_of_aligned h]
  · rw [State.fetchAddress, if_neg (mt (wordAligned_iff _).1 h), hm]

theorem fetch_of_fetchAddress {a : Word} (h : s.fetchAddress = .ok a) : s.fetch = (s.setPc a).memRead a 4 := by
  rw [State.fetch, h]

theorem fetch_of_aligned (h : s.pc.toNat % 4 = 0) : s.fetch = s.memRead s.pc 4 :=
  fetch_of_fetchAddress (fetchAddress_of_aligned h)

/-! ## The word fetched from RAM -/

theorem inRam_iff {addr : Word} {n : Nat} : InRam s addr n ↔ ∀ a ∈ accessBytes addr n, s.region a = .ram := by
  rw [InRam, forall_mem_accessBytes]

theorem mapped_iff {addr : Word} {n : Nat} : Mapped s addr n ↔ ∀ a ∈ accessBytes addr n, s.region a ≠ .unmapped := by
  rw [Mapped, forall_mem_accessBytes]

theorem memRead_of_inRam {addr : Word} {n : Nat} (h : InRam s addr n) :
    s.memRead addr n = .ok (BitVec.ofNat 32 (littleEndian ((List.range n).map fun k => s.mem.read (at_ addr k))), s) := by
  rw [memRead_ram (inRam_iff.1 h), accessBytes_eq_map_at, List.map_map]
  rfl

/-- The word a fetch from RAM reads (20_memory.md R31, R32). -/
theorem fetch_of_inRam (h : s.pc.toNat % 4 = 0) (hram : InRam s s.pc 4) :
    s.fetch = .ok (BitVec.ofNat 32 (value4 fun k => s.mem.read (at_ s.pc k)), s) := by
  rw [fetch_of_aligned h, memRead_of_inRam hram, littleEndian_eq_value4]

/-! ## Steps -/

theorem step_of_fetch {t : State} {w : Word} {i : Instr} (hf : s.fetch = .ok (w, t)) (hd : decode t.config w = .ok i) :
    step s = exec i t := by
  simp only [step, hf, hd]

theorem memRead_config {t : State} {addr w : Word} {n : Nat} (h : s.memRead addr n = .ok (w, t)) : t.config = s.config := by
  obtain ⟨-, -, rfl⟩ := memRead_eq_ok.1 h
  exact recordRead_config ..

/-- A step at an aligned `pc` in RAM runs the instruction its four bytes decode to. -/
theorem step_of_inRam {i : Instr} (h : s.pc.toNat % 4 = 0) (hram : InRam s s.pc 4)
    (hd : decode s.config (BitVec.ofNat 32 (value4 fun k => s.mem.read (at_ s.pc k))) = .ok i) : step s = exec i s :=
  step_of_fetch (fetch_of_inRam h hram) hd

end

/-- Settles O9: the fetch at an aligned `pc` is the read of four bytes there, which leaves the configuration. -/
theorem stepRunsTheDecodedInstruction : Obligations.StepRunsTheDecodedInstruction := by
  unfold Obligations.StepRunsTheDecodedInstruction
  refine ⟨fun s i => step_of_inRam, fun s t w i h hm hd => ?_⟩
  exact step_of_fetch ((fetch_of_aligned h).trans hm) ((memRead_config hm).symm ▸ hd)

/-- Settles O10: the fetch address is a fault under `stop`, and under `mask` that of the state with the bits cleared. -/
theorem misalignedPcStopsOrIsMasked : Obligations.MisalignedPcStopsOrIsMasked := by
  unfold Obligations.MisalignedPcStopsOrIsMasked
  refine ⟨fun s h hm => ?_, fun s _ hm => ?_⟩
  · simp only [step, State.fetch, fetchAddress_stop h hm]
  · have hfetch : (s.setPc (clearLow2 s.pc)).fetch = s.fetch := by
      rw [fetch_of_aligned (clearLow2_aligned _), fetch_of_fetchAddress (fetchAddress_mask hm)]
      rfl
    rw [← clearLow2_eq_ofNat]
    show step s = step (s.setPc (clearLow2 s.pc))
    rw [step, step, hfetch]

/-- Settles O4: an illegal word is one the opcode maps have no instruction for, and the step that fetches it stops so. -/
theorem unassignedOpcodesAreIllegal : Obligations.UnassignedOpcodesAreIllegal := by
  unfold Obligations.UnassignedOpcodesAreIllegal
  refine ⟨fun c w => ?_, ?_⟩
  · rw [decode_eq_illegalInstruction_iff, decodeFields_eq_none_iff]
  · rintro s _ h hram rfl hd
    simp only [step, fetch_of_inRam h hram, hd, stopOf]

/-! ## A word stored is the word fetched -/

theorem value4_byteAt (v : Word) : value4 (byteAt v) = v.toNat := by
  have h := v.isLt
  simp only [value4, byteAt, BitVec.toNat_ofNat]
  omega

theorem value4_congr {B B' : Nat → Byte} (h : ∀ k < 4, B k = B' k) : value4 B = value4 B' := by
  rw [value4, value4, h 0 (by decide), h 1 (by decide), h 2 (by decide), h 3 (by decide)]

/-- Four bytes of memory that are a word's make that word. -/
theorem ofNat_value4_of_bytes {B : Nat → Byte} {v : Word} (h : ∀ k < 4, B k = byteAt v k) :
    BitVec.ofNat 32 (value4 B) = v := by
  rw [value4_congr h, value4_byteAt, BitVec.ofNat_toNat, BitVec.setWidth_eq]

/-- What STWD to RAM leaves: the state with the word's bytes stored, moved on. -/
theorem exec_stwd_eq_next {s t : State} {rt ra : Reg} {imm16 : BitVec 16} :
    exec (.stwd rt ra imm16) s = .next t ↔
      Mapped s (eaOf s ra imm16) 4 ∧ t = (s.storeBytes (storeCells (eaOf s ra imm16) 4 (s.readReg rt))).advance := by
  rw [exec_stwd, execStwd, store_eq_next, effectiveAddress_eq_eaOf, mapped_iff]

section

variable {s t : State} {rt ra : Reg} {imm16 : BitVec 16} (h : exec (.stwd rt ra imm16) s = .next t)

include h

/-- After STWD to RAM the bytes there are the stored word's. -/
theorem read_of_exec_stwd (hwf : s.mem.wf = true) (hram : InRam s (eaOf s ra imm16) 4) :
    ∀ k < 4, t.mem.read (at_ (eaOf s ra imm16) k) = byteAt (s.readReg rt) k := by
  obtain ⟨-, rfl⟩ := exec_stwd_eq_next.1 h
  exact fun k hk => read_storeBytes_at hwf _ (by decide) hk (hram k hk)

/-- What STWD leaves besides memory and the record. -/
theorem frame_of_exec_stwd : t.config = s.config ∧ t.pc = s.pc + 4#32 ∧ ∀ r, t.readReg r = s.readReg r := by
  obtain ⟨-, rfl⟩ := exec_stwd_eq_next.1 h
  exact ⟨by simp, by simp, fun r => by simp⟩

end

theorem inRam_congr {s t : State} (h : t.config = s.config) {addr : Word} {n : Nat} : InRam t addr n ↔ InRam s addr n :=
  forall₂_congr fun k _ => by rw [region_congr h]

/-- Settles O11: the fetch reads RAM, whose four bytes are the word just stored. -/
theorem fetchSeesThePrecedingStore : Obligations.FetchSeesThePrecedingStore := by
  unfold Obligations.FetchSeesThePrecedingStore
  intro s t rt ra imm16 i hwf hpc hea hram h hd
  rw [← hea] at hram
  have hread := read_of_exec_stwd h hwf hram
  obtain ⟨hcfg, htpc, -⟩ := frame_of_exec_stwd h
  rw [← hea] at htpc
  have haligned : t.pc.toNat % 4 = 0 := by
    rw [htpc, hea, BitVec.toNat_add, Nat.mod_mod_of_dvd _ (by decide), Nat.add_mod, hpc]
    rfl
  refine step_of_inRam haligned (htpc ▸ (inRam_congr hcfg).2 hram) ?_
  rw [htpc, ofNat_value4_of_bytes hread, hcfg]
  exact hd

/-- Settles O54: the load reads RAM, whose four bytes are the word just stored. -/
theorem loadReturnsTheLatestStore : Obligations.LoadReturnsTheLatestStore := by
  unfold Obligations.LoadReturnsTheLatestStore
  intro s t rt ra rd imm16 hwf hram h
  have hread := read_of_exec_stwd h hwf hram
  obtain ⟨hcfg, -, hregs⟩ := frame_of_exec_stwd h
  have hea : eaOf t ra imm16 = eaOf s ra imm16 := by rw [eaOf, hregs, eaOf]
  rw [← hea] at hram hread
  refine writesReg_of_finish ((exec_ldwd ..).trans (load_eq_finish ((inRam_congr hcfg).2 hram) id)) ?_
  rw [littleEndian_eq_value4]
  exact ofNat_value4_of_bytes hread

/-! ## The word the host places -/

section

variable (s : State) (w : Word)

theorem placeWord_config_of_inRam (h : InRam s (clearLow2 s.pc) 4) : (s.placeWord w).config = s.config := by
  refine if_pos (List.all_eq_true.2 fun a ha => beq_iff_eq.2 ?_)
  exact inRam_iff.1 h a ha

theorem placeWord_config_of_not_inRam (h : ¬ InRam s (clearLow2 s.pc) 4) : (s.placeWord w).config =
    { s.config with memoryMap := ⟨(clearLow2 s.pc).toNat, 4, .ram⟩ :: s.config.memoryMap } := by
  refine if_neg fun hall => h (inRam_iff.2 fun a ha => ?_)
  exact beq_iff_eq.1 (List.all_eq_true.1 hall a ha)

/-- An aligned word does not wrap. -/
theorem regionHolds_clearLow2 {k : Nat} (hk : k < 4) (a : Word) :
    regionHolds ⟨(clearLow2 a).toNat, 4, .ram⟩ (at_ (clearLow2 a) k) = true := by
  have hlt := (clearLow2 a).isLt
  have h4 := clearLow2_aligned a
  simp only [regionHolds, at_, BitVec.toNat_ofNat, Bool.and_eq_true, decide_eq_true_eq]
  omega

/-- `placeWord` makes the four bytes it writes RAM where they are not. -/
theorem inRam_placeWord : InRam (s.placeWord w) (clearLow2 s.pc) 4 := by
  by_cases h : InRam s (clearLow2 s.pc) 4
  · exact (inRam_congr (placeWord_config_of_inRam s w h)).2 h
  · intro k hk
    rw [State.region, placeWord_config_of_not_inRam s w h]
    exact if_pos (regionHolds_clearLow2 hk s.pc)

/-- It leaves what the decoder and the fetch look at. -/
theorem decode_placeWord (v : Word) : decode (s.placeWord w).config v = decode s.config v := by
  by_cases h : InRam s (clearLow2 s.pc) 4
  · rw [placeWord_config_of_inRam s w h]
  · rw [placeWord_config_of_not_inRam s w h]
    rfl

theorem pcAlignMode_placeWord : (s.placeWord w).config.pcAlignMode = s.config.pcAlignMode := by
  by_cases h : InRam s (clearLow2 s.pc) 4
  · rw [placeWord_config_of_inRam s w h]
  · rw [placeWord_config_of_not_inRam s w h]

theorem fetchAddress_placeWord : (s.placeWord w).fetchAddress = .ok (clearLow2 s.pc) := by
  cases hm : s.config.pcAlignMode with
  | stop =>
    have hpc : (s.placeWord w).pc = clearLow2 s.pc := if_pos hm
    rw [← hpc, fetchAddress_of_aligned (hpc ▸ clearLow2_aligned s.pc)]
  | mask =>
    have hpc : (s.placeWord w).pc = s.pc := if_neg (by rw [hm]; decide)
    rw [fetchAddress_mask ((pcAlignMode_placeWord s w).trans hm), hpc]

end

section

variable {s : State} (hwf : s.mem.wf = true) (w : Word)

include hwf

theorem read_placeWord_at {k : Nat} (hk : k < 4) :
    (s.placeWord w).mem.read (at_ (clearLow2 s.pc) k) = byteAt w k := by
  have hc : (at_ (clearLow2 s.pc) k, byteAt w k) ∈ storeCells (clearLow2 s.pc) 4 w := by
    rw [storeCells_eq_map_at]
    exact List.mem_map_of_mem (List.mem_range.2 hk)
  refine read_writeCells_inside hwf ?_ hc
  rw [storeCells_addresses]
  exact accessBytes_nodup _ (by decide)

theorem read_placeWord_outside {a : Word} (ha : ∀ k < 4, a ≠ at_ (clearLow2 s.pc) k) :
    (s.placeWord w).mem.read a = s.mem.read a := by
  refine read_writeCells_outside hwf _ fun c hc he => ?_
  have hmem : a ∈ accessBytes (clearLow2 s.pc) 4 := by
    rw [← storeCells_addresses _ _ w]
    exact List.mem_map.2 ⟨c, hc, he⟩
  exact forall_mem_accessBytes.2 ha a hmem rfl

/-- The fetch after `placeWord` reads the word placed, and only sets `pc` to the address it reads at. -/
theorem fetch_placeWord : (s.placeWord w).fetch = .ok (w, (s.placeWord w).setPc (clearLow2 s.pc)) := by
  have hram : InRam ((s.placeWord w).setPc (clearLow2 s.pc)) (clearLow2 s.pc) 4 := inRam_placeWord s w
  rw [fetch_of_fetchAddress (fetchAddress_placeWord s w), memRead_of_inRam hram, littleEndian_eq_value4]
  exact congrArg (fun v => Except.ok (v, _)) (ofNat_value4_of_bytes fun k hk => read_placeWord_at hwf w hk)

end

/-- Settles O8: the fetch reads the word placed, and what `placeWord` and the fetch change is what the statement lists. -/
theorem placedWordRuns : Obligations.PlacedWordRuns := by
  unfold Obligations.PlacedWordRuns
  intro s w i hwf hd
  have hw : s.withFetchWord 32 w.toNat = s.placeWord w := by
    rw [State.withFetchWord, Nat.mod_eq_of_lt w.isLt, BitVec.ofNat_toNat, BitVec.setWidth_eq]
  rw [hw]
  refine ⟨_, step_of_fetch (fetch_placeWord hwf w) ((decode_placeWord s w w).trans hd), rfl, rfl, rfl,
    toNat_clearLow2 s.pc, rfl, rfl, placeWord_config_of_inRam s w,
    fun a ha => read_placeWord_outside hwf w ha⟩

end Sys2Proof.Proofs.Fetching
end

section

/-!
# Accesses that are not all RAM

An access completes exactly when every byte is mapped, stops with its first unmapped byte otherwise, and asks the
environment for its I/O bytes alone (20_memory.md R38, R39).
-/

namespace Sys2Proof.Proofs.Access

open Sys2Proof.Machine Sys2Proof.Claims Sys2Proof.Proofs.Encoding Sys2Proof.Proofs.Endings
open Sys2Proof.Proofs.LoadStore Sys2Proof.Proofs.Fetching

/-- Every load and store is `State.load` or `State.store` of its width. -/
theorem exec_of_mem_accesses {s : State} {rt ra : Reg} {imm16 : BitVec 16} {i : Instr} {n : Nat}
    (h : (i, n) ∈ (loads rt ra imm16).map (fun p => (p.1, p.2.1)) ++ stores rt ra imm16) :
    (∃ extend, exec i s = s.load n extend rt ra imm16) ∨ exec i s = s.store n rt ra imm16 := by
  rcases List.mem_append.1 h with h | h
  · obtain ⟨p, hp, hpi⟩ := List.mem_map.1 h
    obtain ⟨rfl, rfl⟩ := Prod.mk.inj hpi
    obtain ⟨extend, hexec, -⟩ := exec_of_mem_loads hp s
    exact .inl ⟨extend, hexec⟩
  · exact .inr (exec_of_mem_stores h s).2

/-! ## Unmapped bytes -/

section

variable {s : State} {addr : Word} {n k : Nat}

theorem firstUnmapped_eq_at (hk : k < n) (hm : Mapped s addr k) (hu : s.region (at_ addr k) = .unmapped) :
    s.firstUnmapped (accessBytes addr n) = some (at_ addr k) := by
  have hfind : (List.range n).find? (fun j => s.region (at_ addr j) == .unmapped) = some k := by
    rw [List.find?_range_eq_some]
    exact ⟨by simp [hu], List.mem_range.2 hk, fun j hj => by simp [hm j hj]⟩
  rw [State.firstUnmapped, accessBytes_eq_map_at, List.find?_map]
  exact congrArg (Option.map (at_ addr)) hfind

theorem memRead_unmapped (hk : k < n) (hm : Mapped s addr k) (hu : s.region (at_ addr k) = .unmapped) :
    s.memRead addr n = .error (.unmappedAccess (at_ addr k)) :=
  memRead_eq_error.2 ⟨_, firstUnmapped_eq_at hk hm hu, rfl⟩

theorem memWrite_unmapped (hk : k < n) (hm : Mapped s addr k) (hu : s.region (at_ addr k) = .unmapped) (v : Word) :
    s.memWrite addr n v = .error (.unmappedAccess (at_ addr k)) :=
  memWrite_eq_error.2 ⟨_, firstUnmapped_eq_at hk hm hu, rfl⟩

end

/-- Settles O51: the first unmapped byte of the access is the `k`th, and a load, a store and a fetch pass its fault on. -/
theorem unmappedAccessStops : Obligations.UnmappedAccessStops := by
  unfold Obligations.UnmappedAccessStops
  refine ⟨fun s rt ra imm16 i n k hi hk hm hu => ?_, fun s k hpc hk hm hu => ?_⟩
  · rcases exec_of_mem_accesses (s := s) hi with ⟨extend, hexec⟩ | hexec
    · rw [hexec, State.load, effectiveAddress_eq_eaOf, memRead_unmapped hk hm hu]
    · rw [hexec, State.store, effectiveAddress_eq_eaOf, memWrite_unmapped hk hm hu]
  · rw [step, fetch_of_aligned hpc, memRead_unmapped hk hm hu]

section

variable {s : State} {rt ra : Reg} {imm16 : BitVec 16} {n : Nat}

theorem load_completes_iff (extend : Word → Word) :
    (∃ t, s.load n extend rt ra imm16 = .next t) ↔ Mapped s (eaOf s ra imm16) n := by
  simp only [load_eq_next, effectiveAddress_eq_eaOf, memRead_eq_ok, ← mapped_iff]
  exact ⟨fun ⟨_, _, _, ⟨hm, _⟩, _⟩ => hm, fun hm => ⟨_, _, _, ⟨hm, rfl, rfl⟩, rfl⟩⟩

theorem store_completes_iff : (∃ t, s.store n rt ra imm16 = .next t) ↔ Mapped s (eaOf s ra imm16) n := by
  simp only [store_eq_next, effectiveAddress_eq_eaOf, ← mapped_iff]
  exact ⟨fun ⟨_, hm, _⟩ => hm, fun hm => ⟨_, hm, rfl⟩⟩

end

/-- Settles O53: neither `memRead` nor `memWrite` asks anything of an address but that its bytes are mapped. -/
theorem dataAccessNeedsNoAlignment : Obligations.DataAccessNeedsNoAlignment := by
  unfold Obligations.DataAccessNeedsNoAlignment
  intro s rt ra imm16 i n hi
  rcases exec_of_mem_accesses (s := s) hi with ⟨extend, hexec⟩ | hexec
  · rw [hexec]
    exact load_completes_iff extend
  · rw [hexec]
    exact store_completes_iff

/-! ## I/O bytes -/

/-- A RAM byte of an access is the byte of memory, wherever it stands among the bytes drawn. -/
theorem bytesRead_getElem?_ram {s : State} {as : List Word} {k : Nat} {a : Word} (ha : as[k]? = some a)
    (hr : s.region a = .ram) (n : Nat) : (s.bytesRead n as)[k]? = some (s.mem.read a) := by
  induction as generalizing k n with
  | nil => simp at ha
  | cons b as ih =>
    cases k with
    | zero =>
      obtain rfl : b = a := by simpa using ha
      simp [State.bytesRead, hr]
    | succ k =>
      rw [List.getElem?_cons_succ] at ha
      rw [State.bytesRead]
      split
      · exact ih ha _
      · exact ih ha _

/-- The `k`th byte an access of `n` bytes reads. -/
def byteRead (s : State) (addr : Word) (n k : Nat) : Byte := (s.bytesRead s.draws (accessBytes addr n)).getD k 0

section

variable {s : State} {addr : Word} {n : Nat}

theorem bytesRead_eq_map_byteRead :
    s.bytesRead s.draws (accessBytes addr n) = (List.range n).map (byteRead s addr n) := by
  refine List.ext_getElem (by simp) fun k hk _ => ?_
  rw [List.getElem_map, List.getElem_range, byteRead, List.getD_eq_getElem _ _ hk]

theorem byteRead_ram {k : Nat} (hk : k < n) (hr : s.region (at_ addr k) = .ram) :
    byteRead s addr n k = s.mem.read (at_ addr k) := by
  have ha : (accessBytes addr n)[k]? = some (at_ addr k) := by
    simp [accessBytes_eq_map_at, hk]
  rw [byteRead, List.getD_eq_getElem?_getD, bytesRead_getElem?_ram ha hr]
  rfl

theorem cellsIn_io_read : s.cellsIn .io ((accessBytes addr n).zip (s.bytesRead s.draws (accessBytes addr n))) =
    ioCells s addr n (byteRead s addr n) := by
  rw [bytesRead_eq_map_byteRead, accessBytes_eq_map_at, List.zip_map', State.cellsIn, List.filter_map]
  rfl

/-- `MemRead` of a mapped access: its value is that of its bytes, and the environment was asked for its I/O cells. -/
theorem memRead_of_mapped (hm : Mapped s addr n) :
    s.memRead addr n = .ok (BitVec.ofNat 32 (littleEndian ((List.range n).map (byteRead s addr n))),
      s.recordRead (ioCells s addr n (byteRead s addr n))) := by
  rw [memRead_eq_ok, ← mapped_iff, cellsIn_io_read, bytesRead_eq_map_byteRead]
  exact ⟨hm, rfl, rfl⟩

theorem ioCells_ne_nil (hm : Mapped s addr n) (hram : ¬ InRam s addr n) (B : Nat → Byte) : ioCells s addr n B ≠ [] := by
  intro hnil
  refine hram fun k hk => ?_
  have hio : s.region (at_ addr k) ≠ .io := by
    simpa using List.filter_eq_nil_iff.1 (List.map_eq_nil_iff.1 hnil) k (List.mem_range.2 hk)
  cases hr : s.region (at_ addr k) with
  | ram => rfl
  | io => exact absurd hr hio
  | unmapped => exact absurd hr (hm k hk)

theorem load_of_mapped {rt ra : Reg} {imm16 : BitVec 16} (hm : Mapped s (eaOf s ra imm16) n) (extend : Word → Word) :
    s.load n extend rt ra imm16 =
      .next ((s.recordRead (ioCells s (eaOf s ra imm16) n (byteRead s (eaOf s ra imm16) n))).writeReg rt
        (extend (BitVec.ofNat 32 (littleEndian ((List.range n).map (byteRead s (eaOf s ra imm16) n)))))).advance := by
  rw [load_eq_next, effectiveAddress_eq_eaOf]
  exact ⟨_, _, memRead_of_mapped hm, rfl⟩

end

/-- Settles O49: the bytes are those `memRead` read, which asked the environment for the I/O ones in one event. -/
theorem loadsFromIo : Obligations.LoadsFromIo := by
  unfold Obligations.LoadsFromIo
  intro s rt ra imm16 p hp hm hram
  obtain ⟨extend, hexec, hvalue⟩ := exec_of_mem_loads hp s
  refine ⟨_, byteRead s (eaOf s ra imm16) p.2.1, hexec.trans (load_of_mapped hm extend),
    fun k hk => byteRead_ram hk, fun r => ?_, ?_, ?_, ?_, ?_, ?_, ?_, ?_⟩
  · rw [readReg_advance, hvalue, readReg_writeReg_eq_regsAfter, regsAfter, readReg_recordRead, regsAfter]
  · rw [advance_ioLog, writeReg_ioLog, recordRead_ioLog, if_neg (ioCells_ne_nil hm hram _)]
  · rw [advance_draws, writeReg_draws, recordRead_draws]
  · rw [advance_pc, writeReg_pc, recordRead_pc]
  · rw [advance_ep, writeReg_ep, recordRead_ep]
  · rw [advance_flags, writeReg_flags, recordRead_flags]
  · rw [advance_mem, writeReg_mem, recordRead_mem]
  · rw [advance_config, writeReg_config, recordRead_config]

/-! ## Widths -/

theorem at_at (addr : Word) (j k : Nat) : at_ (at_ addr j) k = at_ addr (j + k) := by
  rw [← add_ofNat_eq_at, ← add_ofNat_eq_at, ← add_ofNat_eq_at, BitVec.add_assoc, BitVec.ofNat_add]

/-- A read inside an access of RAM. -/
theorem memRead_inside {s : State} {addr : Word} {m j n : Nat} (hram : InRam s addr m) (h : j + n ≤ m) :
    s.memRead (at_ addr j) n =
      .ok (BitVec.ofNat 32 (littleEndian ((List.range n).map fun k => s.mem.read (at_ addr (j + k)))), s) := by
  rw [memRead_of_inRam fun k hk => at_at addr j k ▸ hram (j + k) (by omega)]
  simp only [at_at]

/-- Settles O52: a read inside the five bytes is made of the word's bytes and the one behind them. -/
theorem mixedWidthsAgree : Obligations.MixedWidthsAgree := by
  unfold Obligations.MixedWidthsAgree
  intro s t a hwf hram h
  obtain ⟨-, rfl⟩ := memWrite_eq_ok.1 h
  have hram' := (inRam_congr (storeBytes_config s (storeCells a 4 0xA5C380F1#32))).2 hram
  have hword : ∀ k < 4, (s.storeBytes (storeCells a 4 0xA5C380F1#32)).mem.read (at_ a k) = byteAt 0xA5C380F1#32 k :=
    fun k hk => read_storeBytes_at hwf _ (by decide) hk (hram k (by omega))
  have hbehind : (s.storeBytes (storeCells a 4 0xA5C380F1#32)).mem.read (at_ a 4) = s.mem.read (at_ a 4) := by
    refine read_storeBytes_of_not_stored hwf _ (.inl fun k hk => ?_)
    rw [← add_ofNat_eq_at, ← add_ofNat_eq_at]
    exact fun he => absurd (offset_injective a (by decide) (by omega) he) (by omega)
  have h0 : a = at_ a 0 := by rw [← add_ofNat_eq_at, BitVec.add_zero]
  have h1 : a + 1#32 = at_ a 1 := add_ofNat_eq_at a 1
  have h2 : a + 2#32 = at_ a 2 := add_ofNat_eq_at a 2
  have h4 : a + 4#32 = at_ a 4 := add_ofNat_eq_at a 4
  generalize s.storeBytes (storeCells a 4 0xA5C380F1#32) = t at *
  have hb0 : (t.mem.read (at_ a 0)).toNat = 0xF1 := congrArg BitVec.toNat (hword 0 (by decide))
  have hb1 : (t.mem.read (at_ a 1)).toNat = 0x80 := congrArg BitVec.toNat (hword 1 (by decide))
  have hb2 : (t.mem.read (at_ a 2)).toNat = 0xC3 := congrArg BitVec.toNat (hword 2 (by decide))
  have hb3 : (t.mem.read (at_ a 3)).toNat = 0xA5 := congrArg BitVec.toNat (hword 3 (by decide))
  refine ⟨?_, ?_, ?_, ?_, ?_⟩
  · rw [h0, memRead_inside hram' (by decide), littleEndian_eq_value1, value1, hb0]
  · rw [h1, memRead_inside hram' (by decide), littleEndian_eq_value1, value1, hb1]
  · rw [h0, memRead_inside hram' (by decide), littleEndian_eq_value2, value2, hb0, hb1]
    rfl
  · rw [h2, memRead_inside hram' (by decide), littleEndian_eq_value2, value2, hb2, hb3]
    rfl
  · rw [h1, h4, memRead_inside hram' (by decide), littleEndian_eq_value4, value4, hb1, hb2, hb3, hbehind]
    rfl

end Sys2Proof.Proofs.Access
end

section

/-!
# The effect of an instruction

Every instruction has one of four effects: it computes a value from registers and `ep`, it jumps, it loads or it stores.
`effect` is the table of them, `exec_eq_run` ties it to the model. What a statement about all instructions needs to know of
one is then a fact about its row: which registers, whether `ep` and the flags are written, and what the written values are
functions of.
-/

namespace Sys2Proof.Proofs.Effects

open Sys2Proof.Machine Sys2Proof.Claims Sys2Proof.Proofs.ControlFlow

/-! ## Effects and what they do -/

/-- What a computed value or a target is a function of, besides flags and `pc`. -/
structure Reads where
  reg : Reg → Word
  ep : Word
  config : Config

def readsOf (s : State) : Reads := ⟨s.readReg, s.ep, s.config⟩

/-- The four kinds of effect. A computation writes `x[rt]`, and `ep` and the flags where it says so; a jump may write the
link register. -/
inductive Effect where
  | compute (rt : Reg) (value : Reads → Except Fault Word) (ep : Option (Reads → Word))
      (flags : Option (Reads → Flags → Flags))
  | jump (links : Bool) (target : Reads → Flags → Word → Except Refusal Word)
  | load (n : Nat) (extend : Word → Word) (rt ra : Reg) (imm16 : BitVec 16)
  | store (n : Nat) (rt ra : Reg) (imm16 : BitVec 16)

/-- The state after a computation. -/
def put (s : State) (rt : Reg) (v ep : Word) (flags : Flags) : State :=
  (((s.writeReg rt v).setEp ep).setFlags flags).advance

/-- The state after a jump. -/
def jumped (s : State) (links : Bool) (v : Word) : State := (if links then s.link else s).setPc v

def Effect.run : Effect → State → Result
  | .compute rt value ep flags, s =>
    match value (readsOf s) with
    | .error f => .fault f
    | .ok v => .next (put s rt v ((ep.map (· (readsOf s))).getD s.ep) ((flags.map (· (readsOf s))).elim s.flags (· s.flags)))
  | .jump links target, s =>
    match target (readsOf s) s.flags s.pc with
    | .error r => .refused r
    | .ok v => .next (jumped s links v)
  | .load n extend rt ra imm16, s => s.load n extend rt ra imm16
  | .store n rt ra imm16, s => s.store n rt ra imm16

/-! ## The rows of the table -/

/-- Only a register is written (`State.finish`). -/
def valueOnly (rt : Reg) (v : Reads → Word) : Effect := .compute rt (fun x => .ok (v x)) none none

/-- A register and the flags of its 32-bit result (`State.finishWithFlags`). -/
def valueWithFlags (op : FlagOp) (operands : Reads → List Word) (rt : Reg) (v : Reads → Word) : Effect :=
  .compute rt (fun x => .ok (v x)) none (some fun x => flagsOfResult x.config op (operands x) (v x))

def amountOf (x : Reads) (rb : Reg) : Except Fault Nat := shiftAmount x.config.shiftRegMode (x.reg rb)

/-- The flags of a shift by register value, of which nothing is used where the amount stops. -/
def shiftFlags (op : FlagOp) (shift : Word → Nat → Word) (ra rb : Reg) (x : Reads) : Flags → Flags :=
  flagsOfResult x.config op [x.reg ra, x.reg rb] (shift (x.reg ra) ((amountOf x rb).toOption.getD 0))

/-- A shift by register value, the flags written or not. -/
def shiftBy (shift : Word → Nat → Word) (rt ra rb : Reg) (flags : Option (Reads → Flags → Flags)) : Effect :=
  .compute rt (fun x => (amountOf x rb).map (shift (x.reg ra))) none flags

def productOfReads (ra rb : Reg) (x : Reads) : BitVec 64 := product x.config.mulSigned (x.reg ra) (x.reg rb)

/-- A multiplication, the flags written or not. -/
def multiplies (rt ra rb : Reg) (flags : Option (Reads → Flags → Flags)) : Effect :=
  .compute rt (fun x => .ok ((productOfReads ra rb x).extractLsb' 0 32))
    (some fun x => (productOfReads ra rb x).extractLsb' 32 32) flags

def quotientOf (ra rb : Reg) (x : Reads) : Option (Word × Word) := divide x.config.divSigned x.ep (x.reg ra) (x.reg rb)

def answerOf (ra rb : Reg) (x : Reads) : DivideAnswer := Config.divideAnswer x.ep (x.reg ra) (x.reg rb)

/-- The quotient, in a corner the stop or the free answer's (41_arithmetic.md R103). -/
def quotientOrStop (ra rb : Reg) (x : Reads) : Except Fault Word :=
  match quotientOf ra rb x, x.config.divCorner with
  | some p, _ => .ok p.1
  | none, .stop => .error (.divideCorner x.ep (x.reg ra) (x.reg rb))
  | none, .free => .ok (answerOf ra rb x).quotient

/-- A division, the flags written or not. -/
def divides (rt ra rb : Reg) (flags : Option (Reads → Flags → Flags)) : Effect :=
  .compute rt (quotientOrStop ra rb) (some fun x => (quotientOf ra rb x).elim (answerOf ra rb x).remainder Prod.snd) flags

/-- DIVF's flags. -/
def divideFlags (ra rb : Reg) (x : Reads) (old : Flags) : Flags :=
  (quotientOf ra rb x).elim (answerOf ra rb x).flags fun p =>
    flagsOfResult x.config .divf [x.ep, x.reg ra, x.reg rb] p.1 old

/-- A jump that no parameter refuses. -/
def jumpTo (links : Bool) (target : Reads → Word → Word) : Effect := .jump links fun x _ pc => .ok (target x pc)

/-- A branch (`State.branch`). -/
def branchIf (taken : Reads → Flags → Bool) (target : Reads → Word → Word) : Effect :=
  .jump false fun x f pc => .ok (if taken x f then target x pc else pc + 4#32)

/-- JALR's target under each `JALR_R31_MODE` (42_control_flow.md R121). -/
def jalrTarget (ra rb : Reg) (imm5 : BitVec 5) (x : Reads) (pc : Word) : Except Refusal Word :=
  match x.config.jalrR31Mode with
  | .old => .ok (x.reg ra + shl (x.reg rb) imm5.toNat)
  | .new => .ok ((if ra = linkReg then pc + 4#32 else x.reg ra) +
      shl (if rb = linkReg then pc + 4#32 else x.reg rb) imm5.toNat)
  | .refuse =>
    if ra = linkReg ∨ rb = linkReg then .error (.reservedField (encode x.config (.jalr ra rb imm5)))
    else .ok (x.reg ra + shl (x.reg rb) imm5.toNat)

/-- The effect of each instruction. -/
def effect : Instr → Effect
  | .sllr rt ra rb => shiftBy shl rt ra rb none
  | .slrf rt ra rb => shiftBy shl rt ra rb (some (shiftFlags .slrf shl ra rb))
  | .srlr rt ra rb => shiftBy shr rt ra rb none
  | .srrf rt ra rb => shiftBy shr rt ra rb (some (shiftFlags .srrf shr ra rb))
  | .srar rt ra rb => shiftBy sar rt ra rb none
  | .sras rt ra rb => shiftBy sar rt ra rb (some (shiftFlags .sras sar ra rb))
  | .slli rt ra imm5 => valueOnly rt fun x => shl (x.reg ra) imm5.toNat
  | .slif rt ra imm5 => valueWithFlags .slif (fun x => [x.reg ra, imm5.setWidth 32]) rt fun x => shl (x.reg ra) imm5.toNat
  | .srli rt ra imm5 => valueOnly rt fun x => shr (x.reg ra) imm5.toNat
  | .srif rt ra imm5 => valueWithFlags .srif (fun x => [x.reg ra, imm5.setWidth 32]) rt fun x => shr (x.reg ra) imm5.toNat
  | .srai rt ra imm5 => valueOnly rt fun x => sar (x.reg ra) imm5.toNat
  | .sraj rt ra imm5 => valueWithFlags .sraj (fun x => [x.reg ra, imm5.setWidth 32]) rt fun x => sar (x.reg ra) imm5.toNat
  | .andr rt ra rb => valueOnly rt fun x => x.reg ra &&& x.reg rb
  | .adrf rt ra rb => valueWithFlags .adrf (fun x => [x.reg ra, x.reg rb]) rt fun x => x.reg ra &&& x.reg rb
  | .orrr rt ra rb => valueOnly rt fun x => x.reg ra ||| x.reg rb
  | .orrf rt ra rb => valueWithFlags .orrf (fun x => [x.reg ra, x.reg rb]) rt fun x => x.reg ra ||| x.reg rb
  | .notr rt ra => valueOnly rt fun x => ~~~ x.reg ra
  | .notf rt ra => valueWithFlags .notf (fun x => [x.reg ra]) rt fun x => ~~~ x.reg ra
  | .xorr rt ra rb => valueOnly rt fun x => x.reg ra ^^^ x.reg rb
  | .xorf rt ra rb => valueWithFlags .xorf (fun x => [x.reg ra, x.reg rb]) rt fun x => x.reg ra ^^^ x.reg rb
  | .andi rt ra imm16 => valueWithFlags .andi (fun x => [x.reg ra, zext16 imm16]) rt fun x => x.reg ra &&& zext16 imm16
  | .orri rt ra imm16 => valueWithFlags .orri (fun x => [x.reg ra, zext16 imm16]) rt fun x => x.reg ra ||| zext16 imm16
  | .xori rt ra imm16 => valueWithFlags .xori (fun x => [x.reg ra, zext16 imm16]) rt fun x => x.reg ra ^^^ zext16 imm16
  | .addr rt ra rb => valueOnly rt fun x => x.reg ra + x.reg rb
  | .addf rt ra rb => .compute rt (fun x => .ok (x.reg ra + x.reg rb)) none
      (some fun x => flagsOfAdd x.config (x.reg ra) (x.reg rb) (x.reg ra + x.reg rb))
  | .subr rt ra rb => valueOnly rt fun x => x.reg ra - x.reg rb
  | .subf rt ra rb => .compute rt (fun x => .ok (x.reg ra - x.reg rb)) none
      (some fun x => flagsOfSub x.config (x.reg ra) (x.reg rb) (x.reg ra - x.reg rb))
  | .mulr rt ra rb => multiplies rt ra rb none
  | .mulf rt ra rb => multiplies rt ra rb
      (some fun x => flagsOfMul x.config (x.reg ra) (x.reg rb) (productOfReads ra rb x))
  | .divr rt ra rb => divides rt ra rb none
  | .divf rt ra rb => divides rt ra rb (some (divideFlags ra rb))
  | .rdep rt => valueOnly rt Reads.ep
  | .wrep ra => .compute 0#5 (fun _ => .ok 0#32) (some fun x => x.reg ra) none
  | .jmpr ra rb imm5 => jumpTo false fun x _ => x.reg ra + shl (x.reg rb) imm5.toNat
  | .jalr ra rb imm5 => .jump true fun x _ pc => jalrTarget ra rb imm5 x pc
  | .jmpi imm26 => jumpTo false fun _ pc => pc + wordOffset imm26
  | .jali imm26 => jumpTo true fun _ pc => pc + wordOffset imm26
  | .brnr rt imm21 => branchIf (fun _ f => f.n) fun x _ => x.reg rt + sext21 imm21
  | .bror rt imm21 => branchIf (fun _ f => f.o) fun x _ => x.reg rt + sext21 imm21
  | .brcr rt imm21 => branchIf (fun _ f => f.c) fun x _ => x.reg rt + sext21 imm21
  | .brzr rt imm21 => branchIf (fun _ f => f.z) fun x _ => x.reg rt + sext21 imm21
  | .brne rt ra imm16 => branchIf (fun x _ => x.reg rt != x.reg ra) fun _ pc => pc + sext16 imm16
  | .brgt rt ra imm16 => branchIf (fun x _ => greater x.config.brgtSigned (x.reg rt) (x.reg ra)) fun _ pc =>
      pc + sext16 imm16
  | .ldui rt imm16 => valueOnly rt fun x => withUpperHalf imm16 (x.reg rt)
  | .ldwd rt ra imm16 => .load 4 id rt ra imm16
  | .ldhs rt ra imm16 => .load 2 sextHalf rt ra imm16
  | .ldhu rt ra imm16 => .load 2 zextHalf rt ra imm16
  | .ldbs rt ra imm16 => .load 1 sextByte rt ra imm16
  | .ldbu rt ra imm16 => .load 1 zextByte rt ra imm16
  | .stwd rt ra imm16 => .store 4 rt ra imm16
  | .sthw rt ra imm16 => .store 2 rt ra imm16
  | .stsb rt ra imm16 => .store 1 rt ra imm16

/-! ## The table is the model -/

section

variable (s : State) (rt ra rb : Reg) (v : Word)

theorem setEp_self : s.setEp s.ep = s := rfl

theorem setFlags_self : s.setFlags s.flags = s := rfl

theorem put_keep_ep (f : Flags) : put s rt v s.ep f = ((s.writeReg rt v).setFlags f).advance := by
  rw [put, ← writeReg_ep s rt v, setEp_self]

theorem put_keep_flags (ep : Word) : put s rt v ep s.flags = ((s.writeReg rt v).setEp ep).advance := by
  rw [put, ← writeReg_flags s rt v, ← setEp_flags (s.writeReg rt v) ep, setFlags_self]

theorem put_keep_both : put s rt v s.ep s.flags = (s.writeReg rt v).advance := by
  rw [put_keep_ep, ← writeReg_flags s rt v, setFlags_self]

theorem finish_eq_run (v : Reads → Word) : s.finish rt (v (readsOf s)) = (valueOnly rt v).run s :=
  congrArg Host.Outcome.next (put_keep_both ..).symm

theorem finishWithFlags_eq_run (op : FlagOp) (operands : Reads → List Word) (v : Reads → Word) :
    s.finishWithFlags op (operands (readsOf s)) rt (v (readsOf s)) = (valueWithFlags op operands rt v).run s :=
  congrArg Host.Outcome.next (put_keep_ep ..).symm

theorem shiftByReg_eq_run (shift : Word → Nat → Word) : s.shiftByReg shift rt ra rb = (shiftBy shift rt ra rb none).run s := by
  simp only [State.shiftByReg, Effect.run, shiftBy, amountOf, readsOf, Option.map_none, Option.getD_none, Option.elim_none]
  cases shiftAmount s.config.shiftRegMode (s.readReg rb) with
  | error f => rfl
  | ok k => exact finish_eq_run s rt fun _ => shift (s.readReg ra) k

theorem shiftByRegWithFlags_eq_run (op : FlagOp) (shift : Word → Nat → Word) :
    s.shiftByRegWithFlags op shift rt ra rb = (shiftBy shift rt ra rb (some (shiftFlags op shift ra rb))).run s := by
  simp only [State.shiftByRegWithFlags, Effect.run, shiftBy, shiftFlags, amountOf, readsOf, Option.map_none, Option.map_some,
    Option.getD_none, Option.elim_some]
  cases shiftAmount s.config.shiftRegMode (s.readReg rb) with
  | error f => rfl
  | ok k => exact congrArg Host.Outcome.next (put_keep_ep ..).symm

theorem execDivr_eq_run : execDivr rt ra rb s = (divides rt ra rb none).run s := by
  simp only [execDivr, Effect.run, divides, quotientOrStop, quotientOf, answerOf, readsOf, State.divideCorner,
    Option.map_none, Option.map_some, Option.getD_some, Option.elim_none]
  cases divide s.config.divSigned s.ep (s.readReg ra) (s.readReg rb) with
  | some p => exact congrArg Host.Outcome.next (put_keep_flags ..).symm
  | none =>
    cases s.config.divCorner with
    | stop => rfl
    | free => rfl

theorem execDivf_eq_run : execDivf rt ra rb s = (divides rt ra rb (some (divideFlags ra rb))).run s := by
  simp only [execDivf, Effect.run, divides, quotientOrStop, divideFlags, quotientOf, answerOf, readsOf, State.divideCorner,
    Option.map_some, Option.getD_some, Option.elim_some]
  cases divide s.config.divSigned s.ep (s.readReg ra) (s.readReg rb) with
  | some p => rfl
  | none =>
    cases s.config.divCorner with
    | stop => rfl
    | free => rfl

theorem branch_eq_run (taken : Reads → Flags → Bool) (target : Reads → Word → Word) :
    s.branch (taken (readsOf s) s.flags) (target (readsOf s) s.pc) = (branchIf taken target).run s :=
  branch_eq_next.2 rfl

theorem readReg_link_eq (r : Reg) : s.link.readReg r = if r = linkReg then s.pc + 4#32 else s.readReg r := by
  have h31 : linkReg ≠ 0#5 := by decide
  simp [State.link, State.nextPc, h31]

theorem execJalr_eq_run (imm5 : BitVec 5) : execJalr ra rb imm5 s = (effect (.jalr ra rb imm5)).run s := by
  simp only [execJalr, effect, Effect.run, jalrTarget, readsOf]
  cases s.config.jalrR31Mode with
  | old => rfl
  | new => simp only [State.registerTarget, readReg_link_eq, jumped, if_true]
  | refuse =>
    by_cases h : ra = linkReg ∨ rb = linkReg
    · simp only [if_pos h]
    · simp only [if_neg h]
      rfl

end

section

variable {s : State} {i : Instr} {rt : Reg} {v : Reads → Word} {op : FlagOp} {operands : Reads → List Word}

theorem exec_eq_run_of_finish (he : effect i = valueOnly rt v) (hi : exec i s = s.finish rt (v (readsOf s))) :
    exec i s = (effect i).run s :=
  he ▸ hi.trans (finish_eq_run ..)

theorem exec_eq_run_of_finishWithFlags (he : effect i = valueWithFlags op operands rt v)
    (hi : exec i s = s.finishWithFlags op (operands (readsOf s)) rt (v (readsOf s))) : exec i s = (effect i).run s :=
  he ▸ hi.trans (finishWithFlags_eq_run ..)

theorem exec_eq_run_of_branch {taken : Reads → Flags → Bool} {target : Reads → Word → Word}
    (he : effect i = branchIf taken target)
    (hi : exec i s = s.branch (taken (readsOf s) s.flags) (target (readsOf s) s.pc)) : exec i s = (effect i).run s :=
  he ▸ hi.trans (branch_eq_run ..)

end

/-- Every instruction does what its row says. -/
theorem exec_eq_run (i : Instr) (s : State) : exec i s = (effect i).run s := by
  cases i with
  | sllr | srlr | srar => exact shiftByReg_eq_run ..
  | slrf | srrf | sras => exact shiftByRegWithFlags_eq_run ..
  | slli | srli | srai | andr | orrr | notr | xorr | addr | subr | rdep | ldui => exact exec_eq_run_of_finish rfl rfl
  | slif | srif | sraj | adrf | orrf | notf | xorf | andi | orri | xori => exact exec_eq_run_of_finishWithFlags rfl rfl
  | addf | subf => exact congrArg Host.Outcome.next (put_keep_ep ..).symm
  | mulr => exact congrArg Host.Outcome.next (put_keep_flags ..).symm
  | mulf => rfl
  | divr => exact execDivr_eq_run ..
  | divf => exact execDivf_eq_run ..
  | wrep => exact congrArg Host.Outcome.next (put_keep_flags s 0#5 0#32 _).symm
  | jalr => exact execJalr_eq_run ..
  | brnr | bror | brcr | brzr | brne | brgt => exact exec_eq_run_of_branch rfl rfl
  | jmpr | jmpi | jali => rfl
  | ldwd | ldhs | ldhu | ldbs | ldbu | stwd | sthw | stsb => rfl

end Sys2Proof.Proofs.Effects
end

section

/-!
# What every instruction leaves unchanged

A computation leaves memory and the record, a jump besides `ep` and the flags, a load memory, a store all registers. Which
instruction has which effect, and which parts it writes, is read off the table of effects.
-/

namespace Sys2Proof.Proofs.Effects

open Sys2Proof.Machine Sys2Proof.Claims Sys2Proof.Proofs.ControlFlow
open Sys2Proof.Proofs.Addition Sys2Proof.Proofs.Endings Sys2Proof.Proofs.Fetching

/-! ## What the four effects leave -/

section Fields

variable (s : State) (rt : Reg) (v ep : Word) (f : Flags) (links : Bool)

@[simp] theorem put_ep : (put s rt v ep f).ep = ep := rfl
@[simp] theorem put_flags : (put s rt v ep f).flags = f := rfl
@[simp] theorem put_pc : (put s rt v ep f).pc = s.pc + 4#32 := by simp [put]
@[simp] theorem put_mem : (put s rt v ep f).mem = s.mem := by simp [put]
@[simp] theorem put_config : (put s rt v ep f).config = s.config := by simp [put]
@[simp] theorem put_ioLog : (put s rt v ep f).ioLog = s.ioLog := by simp [put]
@[simp] theorem put_draws : (put s rt v ep f).draws = s.draws := by simp [put]
theorem readReg_put (r : Reg) : (put s rt v ep f).readReg r = regsAfter s rt v r := by
  rw [put, readReg_advance, readReg_setFlags, readReg_setEp, readReg_writeReg_eq_regsAfter]

@[simp] theorem jumped_pc : (jumped s links v).pc = v := rfl
@[simp] theorem jumped_ep : (jumped s links v).ep = s.ep := by cases links <;> simp [jumped, State.link]
@[simp] theorem jumped_flags : (jumped s links v).flags = s.flags := by cases links <;> simp [jumped, State.link]
@[simp] theorem jumped_mem : (jumped s links v).mem = s.mem := by cases links <;> simp [jumped, State.link]
@[simp] theorem jumped_config : (jumped s links v).config = s.config := by cases links <;> simp [jumped, State.link]
@[simp] theorem jumped_ioLog : (jumped s links v).ioLog = s.ioLog := by cases links <;> simp [jumped, State.link]
@[simp] theorem jumped_draws : (jumped s links v).draws = s.draws := by cases links <;> simp [jumped, State.link]
theorem readReg_jumped (r : Reg) :
    (jumped s links v).readReg r = if links = true ∧ r = linkReg then s.pc + 4#32 else s.readReg r := by
  cases links
  · simp [jumped]
  · simp [jumped, readReg_link_eq]

/-- The state after a load that asked the environment for `cells`. -/
def loaded (cells : List (Word × Byte)) : State := ((s.recordRead cells).writeReg rt v).advance

end Fields

/-! ## The kind of an instruction's effect -/

def Effect.isJump : Effect → Bool
  | .jump .. => true
  | _ => false

def Effect.isLoad : Effect → Bool
  | .load .. => true
  | _ => false

def Effect.isStore : Effect → Bool
  | .store .. => true
  | _ => false

/-- The registers it writes; `r0` stands for none in the computation that writes `ep` alone. -/
def Effect.destinations : Effect → List Reg
  | .compute rt .. => [rt]
  | .jump links _ => if links then [linkReg] else []
  | .load _ _ rt _ _ => [rt]
  | .store .. => []

def Effect.writesEp : Effect → Bool
  | .compute _ _ ep _ => ep.isSome
  | _ => false

def Effect.setsFlags : Effect → Bool
  | .compute _ _ _ flags => flags.isSome
  | _ => false

section Kinds

variable (i : Instr)

theorem isJump_effect : (effect i).isJump = isControlFlow i := by cases i <;> rfl
theorem isLoad_effect : (effect i).isLoad = isLoad i := by cases i <;> rfl
theorem isStore_effect : (effect i).isStore = isStore i := by cases i <;> rfl
theorem writesEp_effect : (effect i).writesEp = writesEp i := by cases i <;> rfl
theorem setsFlags_effect : (effect i).setsFlags = setsFlags i := by cases i <;> rfl

theorem mem_destinations_effect {r : Reg} (hr : r ∈ (effect i).destinations) : r = 0#5 ∨ r ∈ destinations i := by
  cases i with
  | wrep => exact .inl (List.mem_singleton.1 hr)
  | _ => exact .inr hr

end Kinds

/-! ## When an instruction answers a next state -/

/-- The next states of an effect: one form for each of the four kinds. -/
inductive Leaves (s : State) : Effect → State → Prop
  | computed {rt value ep flags} {v : Word} (hv : value (readsOf s) = .ok v) :
    Leaves s (.compute rt value ep flags) (put s rt v ((ep.map (· (readsOf s))).getD s.ep)
      ((flags.map (· (readsOf s))).elim s.flags (· s.flags)))
  | jumped {links target} {v : Word} (hv : target (readsOf s) s.flags s.pc = .ok v) :
    Leaves s (.jump links target) (jumped s links v)
  | loaded {n extend rt ra imm16} (v : Word) {cells : List (Word × Byte)} (hio : ∀ c ∈ cells, s.region c.1 = .io) :
    Leaves s (.load n extend rt ra imm16) (loaded s rt v cells)
  | stored {n rt ra imm16} (cells : List (Word × Byte)) :
    Leaves s (.store n rt ra imm16) (s.storeBytes cells).advance

theorem leaves_of_run {e : Effect} {s t : State} (h : e.run s = .next t) : Leaves s e t := by
  cases e with
  | compute rt value ep flags =>
    rw [Effect.run] at h
    cases hv : value (readsOf s) with
    | error f => rw [hv] at h; cases h
    | ok v => rw [hv] at h; cases h; exact .computed hv
  | jump links target =>
    rw [Effect.run] at h
    cases hv : target (readsOf s) s.flags s.pc with
    | error r => rw [hv] at h; cases h
    | ok v => rw [hv] at h; cases h; exact .jumped hv
  | load n extend rt ra imm16 =>
    obtain ⟨v, u, hm, rfl⟩ := load_eq_next.1 h
    obtain ⟨-, -, rfl⟩ := memRead_eq_ok.1 hm
    exact .loaded _ fun c hc => (mem_cellsIn.1 hc).2
  | store n rt ra imm16 =>
    obtain ⟨-, rfl⟩ := store_eq_next.1 h
    exact .stored _

theorem leaves_of_exec {i : Instr} {s t : State} (h : exec i s = .next t) : Leaves s (effect i) t :=
  leaves_of_run (exec_eq_run i s ▸ h)

section Frame

variable {e : Effect} {s t : State} (h : Leaves s e t)

include h

theorem config_of_leaves : t.config = s.config := by
  cases h <;> simp [loaded]

theorem mem_of_leaves (he : e.isStore = false) : t.mem = s.mem := by
  cases h with
  | stored => cases he
  | _ => simp [loaded]

theorem ep_of_leaves (he : e.writesEp = false) : t.ep = s.ep := by
  cases h with
  | @computed rt value ep flags =>
    cases ep with
    | none => rfl
    | some g => cases he
  | _ => simp [loaded]

theorem flags_of_leaves (he : e.setsFlags = false) : t.flags = s.flags := by
  cases h with
  | @computed rt value ep flags =>
    cases flags with
    | none => rfl
    | some g => cases he
  | _ => simp [loaded]

theorem pc_of_leaves (he : e.isJump = false) : t.pc = s.pc + 4#32 := by
  cases h with
  | jumped => cases he
  | _ => simp [loaded]

theorem readReg_of_leaves {r : Reg} (hr : r ∉ e.destinations) : t.readReg r = s.readReg r := by
  cases h with
  | computed =>
    have hne : r ≠ _ := List.ne_of_not_mem_cons hr
    simp [put, hne]
  | @jumped links =>
    rw [readReg_jumped, if_neg]
    rintro ⟨rfl, rfl⟩
    exact hr (List.mem_singleton_self _)
  | loaded =>
    have hne : r ≠ _ := List.ne_of_not_mem_cons hr
    simp [loaded, hne]
  | stored => simp

theorem record_of_leaves (hl : e.isLoad = false) (hs : e.isStore = false) : t.ioLog = s.ioLog ∧ t.draws = s.draws := by
  cases h with
  | loaded => cases hl
  | stored => cases hs
  | _ => simp

theorem record_grows_of_leaves : (∃ events, events.length ≤ 1 ∧ t.ioLog = s.ioLog ++ events) ∧ s.draws ≤ t.draws := by
  cases h with
  | loaded v hio =>
    simp only [loaded, advance_ioLog, writeReg_ioLog, recordRead_ioLog, advance_draws, writeReg_draws, recordRead_draws]
    exact ⟨⟨_, by split <;> simp, rfl⟩, Nat.le_add_right ..⟩
  | stored cells =>
    simp only [advance_ioLog, storeBytes_ioLog, advance_draws, storeBytes_draws]
    exact ⟨⟨_, by split <;> simp, rfl⟩, le_rfl⟩
  | _ => exact ⟨⟨[], by simp, by simp⟩, by simp⟩

end Frame

/-! ## Statements about all instructions -/

theorem fetch_config {s u : State} {w : Word} (h : s.fetch = .ok (w, u)) : u.config = s.config := by
  obtain ⟨a, -, hm⟩ := fetch_eq_ok.1 h
  exact (memRead_config hm).trans (setPc_config s a)

/-- Settles O14: neither the fetch nor any effect writes the configuration. -/
theorem stepsKeepTheConfiguration : Obligations.StepsKeepTheConfiguration := by
  unfold Obligations.StepsKeepTheConfiguration
  intro s t h
  obtain ⟨w, u, i, hf, -, hx⟩ := step_eq_next.1 h
  exact (config_of_leaves (leaves_of_exec hx)).trans (fetch_config hf)

/-- Settles O15: a load records at most one read and a store at most one write, behind what stood there. -/
theorem environmentSeesProgramOrder : Obligations.EnvironmentSeesProgramOrder := by
  unfold Obligations.EnvironmentSeesProgramOrder
  intro s t i h
  have hl := leaves_of_exec h
  obtain ⟨hevents, hdraws⟩ := record_grows_of_leaves hl
  exact ⟨hevents, hdraws, fun h1 h2 => record_of_leaves hl ((isLoad_effect i).trans h1) ((isStore_effect i).trans h2)⟩

/-- Settles O20: an effect writes the registers of its row alone, and `r0` is no register. -/
theorem onlyDestinationsChange : Obligations.OnlyDestinationsChange := by
  unfold Obligations.OnlyDestinationsChange
  intro i s t r h hr
  by_cases h0 : r = 0#5
  · rw [h0, readReg_zero, readReg_zero]
  · exact readReg_of_leaves (leaves_of_exec h) fun hd => (mem_destinations_effect i hd).elim h0 hr

/-- The words that `pc + 4` keeps aligned are those that `pc` is. -/
theorem add_four_aligned {a : Word} (h : a.toNat % 4 = 0) : (a + 4#32).toNat % 4 = 0 := by
  rw [BitVec.toNat_add, Nat.mod_mod_of_dvd _ (by decide), Nat.add_mod, h]
  rfl

theorem pc_of_exec {i : Instr} {s t : State} (hi : isControlFlow i = false) (h : exec i s = .next t) : t.pc = s.pc + 4#32 :=
  pc_of_leaves (leaves_of_exec h) ((isJump_effect i).trans hi)

/-- Settles O16: JMPI and JALI are the only jumps left, and their offset is in words; every other instruction adds 4. -/
theorem alignmentIsLostOnlyByRegisterAndByteTargets : Obligations.AlignmentIsLostOnlyByRegisterAndByteTargets := by
  unfold Obligations.AlignmentIsLostOnlyByRegisterAndByteTargets
  intro s t i hpc hi h
  have htarget : ∀ imm26, (s.jumpTarget imm26).toNat % 4 = 0 := fun imm26 => by
    rw [jumpTarget_eq_ofInt]
    exact ofInt_add_mul_four_aligned hpc _
  cases i with
  | jmpi imm26 => cases h; exact htarget imm26
  | jali imm26 => cases h; exact htarget imm26
  | jmpr | jalr | brnr | bror | brcr | brzr | brne | brgt => cases hi
  | _ => rw [pc_of_exec rfl h]; exact add_four_aligned hpc

theorem jumpsTo_of_branch_not_taken {i : Instr} {s : State} {taken : Bool} {target : Word}
    (hi : exec i s = s.branch taken target) (ht : taken = false) : JumpsTo i s (BitVec.ofNat 32 (s.pc.toNat + 4)) := by
  subst ht
  exact jumpsTo_of_setPc hi (nextPc_eq_ofNat s)

theorem jumpsTo_of_flag_clear {i : Instr} {s : State} {g : Flags → Bool} (hi : flagRead i = some g)
    (hg : g s.flags = false) : JumpsTo i s (BitVec.ofNat 32 (s.pc.toNat + 4)) := by
  cases i with
  | brnr | bror | brcr | brzr =>
    cases hi
    exact jumpsTo_of_branch_not_taken rfl hg
  | _ => cases hi

/-- Settles O23: only a jump writes `pc` otherwise, and a branch not taken ends as `advance`. -/
theorem sequentialPcAddsFour : Obligations.SequentialPcAddsFour := by
  unfold Obligations.SequentialPcAddsFour
  refine ⟨fun i s t hi h => ?_, fun i s g => jumpsTo_of_flag_clear, fun s rt ra imm16 he => ⟨?_, ?_⟩⟩
  · rw [pc_of_exec hi h, add_eq_ofNat]
    rfl
  · exact jumpsTo_of_branch_not_taken (exec_brne ..) (by simp [he])
  · exact jumpsTo_of_branch_not_taken (exec_brgt ..) (by simp [greater, he])

theorem nextInstr_of_fetch {s u : State} {w : Word} {i : Instr} (hf : s.fetch = .ok (w, u))
    (hd : decode u.config w = .ok i) : s.nextInstr = some i := by
  simp only [State.nextInstr, hf, hd]

theorem fetch_mem {s u : State} {w : Word} (h : s.fetch = .ok (w, u)) : u.mem = s.mem := by
  obtain ⟨a, -, hm⟩ := fetch_eq_ok.1 h
  obtain ⟨-, -, rfl⟩ := memRead_eq_ok.1 hm
  rw [recordRead_mem, setPc_mem]

end Sys2Proof.Proofs.Effects
end

section

/-!
# The machine's invariant

It looks at the configuration, memory and the record alone. Memory changes by stores of RAM bytes and the record by events
of I/O bytes, and both keep it.
-/

namespace Sys2Proof.Proofs.Invariant

open Sys2Proof.Machine Sys2Proof.Safety Sys2Proof.Proofs.Effects

/-! ## The cells of memory after a write -/

theorem mem_memoryCons {k : Nat} {b : Byte} {m : Memory} {c : Host.Cell} (h : c ∈ Memory.cons k b m) :
    c.1 = k ∨ c ∈ m := by
  rw [Memory.cons] at h
  split at h
  · exact .inr h
  · exact (List.mem_cons.1 h).imp_left (congrArg Prod.fst)

theorem mem_write {m : Memory} {a : Word} {b : Byte} {c : Host.Cell} (h : c ∈ m.write a b) : c.1 = a.toNat ∨ c ∈ m := by
  induction m with
  | nil => exact mem_memoryCons h
  | cons d m ih =>
    obtain ⟨k, old⟩ := d
    rw [Memory.write] at h
    split_ifs at h
    · exact mem_memoryCons h
    · exact (mem_memoryCons h).imp_right (List.mem_cons_of_mem _)
    · rcases List.mem_cons.1 h with rfl | h
      · exact .inr List.mem_cons_self
      · exact (ih h).imp_right (List.mem_cons_of_mem _)

/-- A cell of memory after several writes was there or is at an address written. -/
theorem mem_writeCells {m : Memory} {cells : List (Word × Byte)} {c : Host.Cell} (h : c ∈ m.writeCells cells) :
    (∃ d ∈ cells, c.1 = d.1.toNat) ∨ c ∈ m := by
  induction cells generalizing m with
  | nil => exact .inr h
  | cons d cells ih =>
    rcases ih h with ⟨e, he, hc⟩ | h
    · exact .inl ⟨e, List.mem_cons_of_mem _ he, hc⟩
    · exact (mem_write h).imp_left fun hc => ⟨d, List.mem_cons_self, hc⟩

/-! ## What keeps the invariant -/

section

variable {s : State} (h : Inv s)

include h

theorem inv_congr {t : State} (hconfig : t.config = s.config) (hmem : t.mem = s.mem) (hlog : t.ioLog = s.ioLog)
    (hdraws : t.draws = s.draws) : Inv t where
  memWf := hmem ▸ h.memWf
  memRam := by simpa only [hmem, region_congr hconfig] using h.memRam
  logIo := by simpa only [hlog, region_congr hconfig] using h.logIo
  logDraws := by rw [hlog, hdraws, h.logDraws]

variable {cells : List (Word × Byte)}

theorem inv_writeCells (hram : ∀ c ∈ cells, s.region c.1 = .ram) : Inv { s with mem := s.mem.writeCells cells } where
  memWf := wf_writeCells _ h.memWf
  memRam c hc := by
    rcases mem_writeCells hc with ⟨d, hd, he⟩ | hc
    · rw [he, BitVec.ofNat_toNat, BitVec.setWidth_eq]
      exact hram d hd
    · exact h.memRam c hc
  logIo := h.logIo
  logDraws := h.logDraws

/-- One more event of I/O cells, whose draws are counted. -/
theorem inv_record {t : State} {e : IoEvent} (hconfig : t.config = s.config) (hmem : t.mem = s.mem)
    (hlog : t.ioLog = s.ioLog ++ [e]) (hdraws : t.draws = s.draws + eventDraws e) (hne : eventCells e ≠ [])
    (hio : ∀ c ∈ eventCells e, s.region c.1 = .io) : Inv t where
  memWf := hmem ▸ h.memWf
  memRam := by simpa only [hmem, region_congr hconfig] using h.memRam
  logIo e' he' := by
    simp only [region_congr hconfig]
    rcases List.mem_append.1 (hlog ▸ he') with he | he
    · exact h.logIo e' he
    · rw [List.mem_singleton.1 he]
      exact ⟨hne, hio⟩
  logDraws := by simp [hlog, hdraws, h.logDraws]

theorem inv_recordRead (hio : ∀ c ∈ cells, s.region c.1 = .io) : Inv (s.recordRead cells) := by
  by_cases hne : cells = []
  · rwa [hne, recordRead_nil]
  · exact inv_record h (e := .read cells) (recordRead_config ..) (recordRead_mem ..)
      (by rw [recordRead_ioLog, if_neg hne]) (recordRead_draws ..) hne hio

theorem inv_recordWrite (hio : ∀ c ∈ cells, s.region c.1 = .io) : Inv (s.recordWrite cells) := by
  by_cases hne : cells = []
  · rwa [hne, recordWrite_nil]
  · exact inv_record h (e := .write cells) (recordWrite_config ..) (recordWrite_mem ..)
      (by rw [recordWrite_ioLog, if_neg hne]) (recordWrite_draws ..) hne hio

theorem inv_storeBytes (cells : List (Word × Byte)) : Inv (s.storeBytes cells) :=
  inv_recordWrite (inv_writeCells h fun _ hc => (mem_cellsIn.1 hc).2) fun _ hc => (mem_cellsIn.1 hc).2

theorem inv_memRead {addr w : Word} {n : Nat} {t : State} (hm : s.memRead addr n = .ok (w, t)) : Inv t := by
  obtain ⟨-, -, rfl⟩ := memRead_eq_ok.1 hm
  exact inv_recordRead h fun _ hc => (mem_cellsIn.1 hc).2

theorem inv_fetch {w : Word} {t : State} (hf : s.fetch = .ok (w, t)) : Inv t := by
  obtain ⟨a, -, hm⟩ := fetch_eq_ok.1 hf
  exact inv_memRead (inv_congr h (setPc_config s a) (setPc_mem s a) (setPc_ioLog s a) (setPc_draws s a)) hm

theorem inv_leaves {e : Effect} {t : State} (hl : Leaves s e t) : Inv t := by
  cases hl with
  | computed => exact inv_congr h (put_config ..) (put_mem ..) (put_ioLog ..) (put_draws ..)
  | jumped => exact inv_congr h (jumped_config ..) (jumped_mem ..) (jumped_ioLog ..) (jumped_draws ..)
  | loaded v hio =>
    have hr := inv_recordRead h hio
    exact inv_congr hr (writeReg_config ..) (writeReg_mem ..) (writeReg_ioLog ..) (writeReg_draws ..)
  | stored cells =>
    have hs := inv_storeBytes h cells
    exact inv_congr hs rfl rfl rfl rfl

end

/-- Settles O12: a step is a fetch, which reads, and an instruction's effect, and both keep the invariant. -/
theorem stepKeepsTheInvariant : Obligations.StepKeepsTheInvariant := by
  unfold Obligations.StepKeepsTheInvariant
  intro s t h hstep
  obtain ⟨w, u, i, hf, -, hx⟩ := step_eq_next.1 hstep
  exact inv_leaves (inv_fetch h hf) (leaves_of_exec hx)

/-! ## Reset -/

/-- A machine with empty memory and an empty record meets the invariant. -/
theorem inv_of_empty {s : State} (hmem : s.mem = []) (hlog : s.ioLog = []) (hdraws : s.draws = 0) : Inv s where
  memWf := by rw [hmem, wf_nil]
  memRam := by simp [hmem]
  logIo := by simp [hlog]
  logDraws := by simp [hlog, hdraws]

/-- Settles O13: reset begins empty, and loading the image writes RAM bytes only. -/
theorem invariantHoldsAtReset : Obligations.InvariantHoldsAtReset := by
  unfold Obligations.InvariantHoldsAtReset
  refine ⟨inv_of_empty rfl rfl rfl, fun c image => ?_⟩
  exact inv_writeCells (s := { State.reset with pc := c.resetPc, config := c }) (inv_of_empty rfl rfl rfl)
    fun _ hd => (mem_cellsIn.1 hd).2

end Sys2Proof.Proofs.Invariant
end

section

/-!
# What an instruction does not depend on

Two runs of one instruction from states that differ in one part agree but for that part, where the instruction's row of the
table of effects neither reads nor writes it. A row's functions of `ep` or of the flags are compared once, below.
-/

namespace Sys2Proof.Proofs.Effects

open Sys2Proof.Machine Sys2Proof.Claims

/-! ## Updates an effect carries along -/

/-- An update of the state that leaves what targets and addresses are made of, and commutes with register writes. -/
structure Carried (g : State → State) : Prop where
  readReg : ∀ s, (g s).readReg = s.readReg
  pc : ∀ s, (g s).pc = s.pc
  writeReg : ∀ s rt v, (g s).writeReg rt v = g (s.writeReg rt v)
  setPc : ∀ s v, (g s).setPc v = g (s.setPc v)

/-- And that leaves what an access of memory looks at, and commutes with what it does. -/
structure CarriedByAccess (g : State → State) : Prop extends Carried g where
  config : ∀ s, (g s).config = s.config
  mem : ∀ s, (g s).mem = s.mem
  draws : ∀ s, (g s).draws = s.draws
  recordRead : ∀ s cells, (g s).recordRead cells = g (s.recordRead cells)
  recordWrite : ∀ s cells, (g s).recordWrite cells = g (s.recordWrite cells)
  setMem : ∀ s m, { g s with mem := m } = g { s with mem := m }

theorem bytesRead_congr {s t : State} (hconfig : t.config = s.config) (hmem : t.mem = s.mem) (n : Nat) (as : List Word) :
    t.bytesRead n as = s.bytesRead n as := by
  induction as generalizing n with
  | nil => rfl
  | cons a as ih => simp only [State.bytesRead, region_congr hconfig, hmem, ih]

section

variable {g : State → State}

theorem jumped_carried (hg : Carried g) (s : State) (links : Bool) (v : Word) :
    jumped (g s) links v = g (jumped s links v) := by
  cases links with
  | false => exact hg.setPc s v
  | true =>
    have hlink : (g s).link = g s.link := by rw [State.link, State.nextPc, hg.pc, hg.writeReg, State.link, State.nextPc]
    simp only [jumped, hlink, if_true]
    exact hg.setPc s.link v

theorem advance_carried (hg : Carried g) (s : State) : (g s).advance = g s.advance := by
  rw [State.advance, State.nextPc, hg.pc, hg.setPc, State.advance, State.nextPc]

variable (hg : CarriedByAccess g) (s : State) (n : Nat) (rt ra : Reg) (imm16 : BitVec 16)

include hg

theorem effectiveAddress_carried : (g s).effectiveAddress ra imm16 = s.effectiveAddress ra imm16 := by
  rw [State.effectiveAddress, hg.readReg, State.effectiveAddress]

theorem load_carried (extend : Word → Word) :
    (g s).load n extend rt ra imm16 = mapNext g (s.load n extend rt ra imm16) := by
  simp only [State.load, State.memRead, effectiveAddress_carried hg, firstUnmapped_congr (hg.config s), hg.draws,
    bytesRead_congr (hg.config s) (hg.mem s), cellsIn_congr (hg.config s)]
  cases s.firstUnmapped (accessBytes (s.effectiveAddress ra imm16) n) with
  | some a => rfl
  | none => simp only [State.finish, hg.recordRead, hg.writeReg, advance_carried hg.toCarried, mapNext]

theorem store_carried : (g s).store n rt ra imm16 = mapNext g (s.store n rt ra imm16) := by
  simp only [State.store, State.memWrite, effectiveAddress_carried hg, firstUnmapped_congr (hg.config s), hg.readReg,
    State.storeBytes, cellsIn_congr (hg.config s), hg.mem, hg.setMem, hg.recordWrite]
  cases s.firstUnmapped (accessBytes (s.effectiveAddress ra imm16) n) with
  | some a => rfl
  | none => simp only [advance_carried hg.toCarried, mapNext]

end

/-! ## The three updates -/

theorem carried_setEp (e : Word) : CarriedByAccess (State.setEp · e) where
  readReg _ := rfl
  pc _ := rfl
  writeReg s rt v := by unfold State.writeReg; split <;> rfl
  setPc _ _ := rfl
  config _ := rfl
  mem _ := rfl
  draws _ := rfl
  recordRead s cells := by unfold State.recordRead; split <;> rfl
  recordWrite s cells := by unfold State.recordWrite; split <;> rfl
  setMem _ _ := rfl

theorem carried_setFlags (f : Flags) : CarriedByAccess (State.setFlags · f) where
  readReg _ := rfl
  pc _ := rfl
  writeReg s rt v := by unfold State.writeReg; split <;> rfl
  setPc _ _ := rfl
  config _ := rfl
  mem _ := rfl
  draws _ := rfl
  recordRead s cells := by unfold State.recordRead; split <;> rfl
  recordWrite s cells := by unfold State.recordWrite; split <;> rfl
  setMem _ _ := rfl

theorem carried_setMem (m : Memory) : Carried fun s => { s with mem := m } where
  readReg _ := rfl
  pc _ := rfl
  writeReg s rt v := by unfold State.writeReg; split <;> rfl
  setPc _ _ := rfl

/-! ## `ep` -/

/-- The row's functions do not look at `ep`. -/
def Effect.IgnoresEp : Effect → Prop
  | .compute _ value ep flags => ∀ x v, value { x with ep := v } = value x ∧
      ep.map (· { x with ep := v }) = ep.map (· x) ∧ flags.map (· { x with ep := v }) = flags.map (· x)
  | .jump _ target => ∀ x v, target { x with ep := v } = target x
  | .load .. | .store .. => True

theorem ignoresEp_effect {i : Instr} (hi : readsEp i = false) : (effect i).IgnoresEp := by
  cases i with
  | divr | divf | rdep => cases hi
  | jmpr | jalr | jmpi | jali | brnr | bror | brcr | brzr | brne | brgt => exact fun _ _ => rfl
  | ldwd | ldhs | ldhu | ldbs | ldbu | stwd | sthw | stsb => trivial
  | _ => exact fun _ _ => ⟨rfl, rfl, rfl⟩

theorem readsOf_setEp (s : State) (v : Word) : readsOf (s.setEp v) = { readsOf s with ep := v } := rfl

/-- Where `ep` was is lost when a computation writes it. -/
theorem put_setEp (s : State) (rt : Reg) (v ep ep' : Word) (f : Flags) :
    put (s.setEp ep') rt v ep f = (put s rt v ep' f).setEp ep := by
  rw [put, (carried_setEp ep').writeReg]
  rfl

section

variable {e : Effect} (he : e.IgnoresEp) (s : State) (v : Word)

include he

theorem run_setEp_of_not_writesEp (hw : e.writesEp = false) : e.run (s.setEp v) = mapNext (State.setEp · v) (e.run s) := by
  cases e with
  | compute rt value ep flags =>
    obtain rfl : ep = none := by simpa [Effect.writesEp] using hw
    obtain ⟨hvalue, -, hflags⟩ := he (readsOf s) v
    simp only [Effect.run, readsOf_setEp, hvalue, hflags]
    cases value (readsOf s) with
    | error f => rfl
    | ok w => exact congrArg Host.Outcome.next (put_setEp ..)
  | jump links target =>
    simp only [Effect.run, readsOf_setEp, he (readsOf s) v, setEp_flags, setEp_pc]
    cases target (readsOf s) s.flags s.pc with
    | error r => rfl
    | ok w => exact congrArg Host.Outcome.next (jumped_carried (carried_setEp v).toCarried s links w)
  | load n extend rt ra imm16 => exact load_carried (carried_setEp v) ..
  | store n rt ra imm16 => exact store_carried (carried_setEp v) ..

theorem run_setEp_of_writesEp (hw : e.writesEp = true) : e.run (s.setEp v) = e.run s := by
  cases e with
  | compute rt value ep flags =>
    obtain ⟨g, rfl⟩ := Option.isSome_iff_exists.1 hw
    obtain ⟨hvalue, hep, hflags⟩ := he (readsOf s) v
    simp only [Effect.run, readsOf_setEp, hvalue, hep, hflags]
    cases value (readsOf s) with
    | error f => rfl
    | ok w => exact congrArg Host.Outcome.next (put_setEp ..)
  | _ => cases hw

end

/-- Settles O21: which rows write `ep`, and that the others do not look at it, is the table's. -/
theorem epIsWrittenAndReadByTheNamedInstructions : Obligations.EpIsWrittenAndReadByTheNamedInstructions := by
  unfold Obligations.EpIsWrittenAndReadByTheNamedInstructions
  refine ⟨fun i s t hw h => ?_, fun i s v hr hw => ?_, fun i s v hr hw => ?_⟩
  · exact ep_of_leaves (leaves_of_exec h) ((writesEp_effect i).trans hw)
  · rw [exec_eq_run, exec_eq_run]
    exact run_setEp_of_not_writesEp (ignoresEp_effect hr) s v ((writesEp_effect i).trans hw)
  · rw [exec_eq_run, exec_eq_run]
    exact run_setEp_of_writesEp (ignoresEp_effect hr) s v ((writesEp_effect i).trans hw)

/-! ## Flags -/

/-- A jump of this row goes to one place under both flags. -/
def Effect.AgreesOnFlags (f f' : Flags) : Effect → Prop
  | .jump _ target => ∀ x pc, target x f pc = target x f' pc
  | .compute .. | .load .. | .store .. => True

theorem agreesOnFlags_effect {i : Instr} {f f' : Flags} (h : ∀ g, flagRead i = some g → g f = g f') :
    (effect i).AgreesOnFlags f f' := by
  cases i with
  | brnr | bror | brcr | brzr =>
    intro x pc
    have hflag := h _ rfl
    simp only [hflag]
  | jmpr | jalr | jmpi | jali | brne | brgt => exact fun _ _ => rfl
  | _ => trivial

theorem put_setFlags (s : State) (rt : Reg) (v ep : Word) (f f' : Flags) :
    put (s.setFlags f') rt v ep f = (put s rt v ep f').setFlags f := by
  rw [put, (carried_setFlags f').writeReg]
  rfl

theorem run_setFlags {e : Effect} {s : State} {f : Flags} (hs : e.setsFlags = false) (ha : e.AgreesOnFlags f s.flags) :
    e.run (s.setFlags f) = mapNext (State.setFlags · f) (e.run s) := by
  cases e with
  | compute rt value ep flags =>
    obtain rfl : flags = none := by simpa [Effect.setsFlags] using hs
    have hreads : readsOf (s.setFlags f) = readsOf s := rfl
    simp only [Effect.run, hreads]
    cases value (readsOf s) with
    | error f => rfl
    | ok w => exact congrArg Host.Outcome.next (put_setFlags ..)
  | jump links target =>
    have hreads : readsOf (s.setFlags f) = readsOf s := rfl
    simp only [Effect.run, hreads, setFlags_flags, setFlags_pc, ha (readsOf s) s.pc]
    cases target (readsOf s) s.flags s.pc with
    | error r => rfl
    | ok w => exact congrArg Host.Outcome.next (jumped_carried (carried_setFlags f).toCarried s links w)
  | load n extend rt ra imm16 => exact load_carried (carried_setFlags f) ..
  | store n rt ra imm16 => exact store_carried (carried_setFlags f) ..

/-- N and Z of the flags a row writes do not depend on the old flags (10_state.md R21). -/
def Effect.NZIgnoreFlags : Effect → Prop
  | .compute _ _ _ (some flags) => ∀ x f f', (flags x f).n = (flags x f').n ∧ (flags x f).z = (flags x f').z
  | _ => True

theorem flagsOfResult_nz (c : Config) (op : FlagOp) (operands : List Word) (v : Word) (f f' : Flags) :
    (flagsOfResult c op operands v f).n = (flagsOfResult c op operands v f').n ∧
      (flagsOfResult c op operands v f).z = (flagsOfResult c op operands v f').z := by
  simp [flagsOfResult]

theorem nzIgnoreFlags_effect (i : Instr) : (effect i).NZIgnoreFlags := by
  cases i with
  | slrf | srrf | sras | slif | srif | sraj | adrf | orrf | notf | xorf | andi | orri | xori =>
    exact fun _ => flagsOfResult_nz _ _ _ _
  | addf => intro x f f'; simp [flagsOfAdd]
  | subf => intro x f f'; simp [flagsOfSub]
  | mulf => intro x f f'; simp [flagsOfMul]
  | divf rt ra rb =>
    intro x f f'
    simp only [divideFlags]
    cases quotientOf ra rb x with
    | none => exact ⟨rfl, rfl⟩
    | some p => exact flagsOfResult_nz ..
  | _ => trivial

theorem run_nz {e : Effect} {s t : State} (hn : e.NZIgnoreFlags) (hs : e.setsFlags = true) (h : e.run s = .next t)
    (f : Flags) : ∃ u, e.run (s.setFlags f) = .next u ∧ u.flags.n = t.flags.n ∧ u.flags.z = t.flags.z := by
  cases leaves_of_run h with
  | @computed rt value ep flags v hv =>
    obtain ⟨g, rfl⟩ := Option.isSome_iff_exists.1 hs
    have hreads : readsOf (s.setFlags f) = readsOf s := rfl
    simp only [Effect.run, hreads, hv]
    exact ⟨_, rfl, hn (readsOf s) f s.flags⟩
  | _ => cases hs

/-- Settles O22: which rows write the flags, which jumps look at one, and that N and Z are the result's, is the table's. -/
theorem flagsAreWrittenAndReadByTheNamedInstructions : Obligations.FlagsAreWrittenAndReadByTheNamedInstructions := by
  unfold Obligations.FlagsAreWrittenAndReadByTheNamedInstructions
  refine ⟨fun i s t hs h => ?_, fun i s t f hs h => ?_, fun i s f hs hg => ?_⟩
  · exact flags_of_leaves (leaves_of_exec h) ((setsFlags_effect i).trans hs)
  · rw [exec_eq_run] at h ⊢
    exact run_nz (nzIgnoreFlags_effect i) ((setsFlags_effect i).trans hs) h f
  · rw [exec_eq_run, exec_eq_run]
    exact run_setFlags ((setsFlags_effect i).trans hs) (agreesOnFlags_effect hg)

/-! ## Memory -/

theorem run_setMem {e : Effect} (hl : e.isLoad = false) (hs : e.isStore = false) (s : State) (m : Memory) :
    e.run { s with mem := m } = mapNext (fun t => { t with mem := m }) (e.run s) := by
  have hreads : readsOf { s with mem := m } = readsOf s := rfl
  cases e with
  | compute rt value ep flags =>
    simp only [Effect.run, hreads]
    cases value (readsOf s) with
    | error f => rfl
    | ok w =>
      simp only [put, (carried_setMem m).writeReg, mapNext]
      rfl
  | jump links target =>
    simp only [Effect.run, hreads]
    cases target (readsOf s) s.flags s.pc with
    | error r => rfl
    | ok w => exact congrArg Host.Outcome.next (jumped_carried (carried_setMem m) s links w)
  | load => cases hl
  | store => cases hs

/-- Settles O24: a store's row is the only one that writes memory, and a row that is neither does not look at it. -/
theorem memoryIsAccessedByLoadsStoresAndFetch : Obligations.MemoryIsAccessedByLoadsStoresAndFetch := by
  unfold Obligations.MemoryIsAccessedByLoadsStoresAndFetch
  have hexec : ∀ (i : Instr) (s t : State), isStore i = false → exec i s = .next t → t.mem = s.mem :=
    fun i s t hs h => mem_of_leaves (leaves_of_exec h) ((isStore_effect i).trans hs)
  refine ⟨hexec, fun s t i hi hs h => ?_, fun i s m hl hs => ?_⟩
  · obtain ⟨w, u, j, hf, hd, hx⟩ := step_eq_next.1 h
    obtain rfl : j = i := Option.some.inj ((nextInstr_of_fetch hf hd).symm.trans hi)
    exact (hexec j u t hs hx).trans (fetch_mem hf)
  · rw [exec_eq_run, exec_eq_run]
    exact run_setMem ((isLoad_effect i).trans hl) ((isStore_effect i).trans hs) s m

/-! ## The target register -/

/-- The second row is the first with `r0` as its target; its value is dropped, so it need not be the same. -/
def Effect.SameButTarget : Effect → Effect → Prop
  | .compute _ value ep flags, .compute rt' value' ep' flags' =>
      rt' = 0#5 ∧ (∀ x v, value x = .ok v → ∃ v', value' x = .ok v') ∧ ep' = ep ∧ flags' = flags
  | .load n _ _ ra imm16, .load n' _ rt' ra' imm16' => rt' = 0#5 ∧ n' = n ∧ ra' = ra ∧ imm16' = imm16
  | _, _ => False

theorem sameButTarget_effect {i j : Instr} (h : withTargetR0 i = some j) : (effect i).SameButTarget (effect j) := by
  cases i with
  | wrep | jmpr | jalr | jmpi | jali | brnr | bror | brcr | brzr | brne | brgt | stwd | sthw | stsb => cases h
  | ldwd | ldhs | ldhu | ldbs | ldbu => cases h; exact ⟨rfl, rfl, rfl, rfl⟩
  | ldui => cases h; exact ⟨rfl, fun _ _ _ => ⟨_, rfl⟩, rfl, rfl⟩
  | _ => cases h; exact ⟨rfl, fun _ v hv => ⟨v, hv⟩, rfl, rfl⟩

/-- Writing `r0` is writing a register and taking the old registers back. -/
theorem writeReg_zero_eq (s : State) (rt : Reg) (v v' : Word) :
    s.writeReg 0#5 v' = { s.writeReg rt v with gprs := s.gprs } := by
  rw [writeReg_zero, State.writeReg]
  split <;> rfl

theorem put_zero_eq (s : State) (rt : Reg) (v v' ep : Word) (f : Flags) :
    put s 0#5 v' ep f = { put s rt v ep f with gprs := s.gprs } := by
  rw [put, writeReg_zero_eq s rt v]
  rfl

theorem run_sameButTarget {e e' : Effect} (hs : e.SameButTarget e') {s t : State} (h : e.run s = .next t) :
    e'.run s = .next { t with gprs := s.gprs } := by
  cases e with
  | compute rt value ep flags =>
    cases e' with
    | compute rt' value' ep' flags' =>
      obtain ⟨rfl, hvalue, rfl, rfl⟩ := hs
      cases leaves_of_run h with
      | computed hv =>
        obtain ⟨v', hv'⟩ := hvalue _ _ hv
        simp only [Effect.run, hv']
        exact congrArg Host.Outcome.next (put_zero_eq ..)
    | _ => cases hs
  | load n extend rt ra imm16 =>
    cases e' with
    | load n' extend' rt' ra' imm16' =>
      obtain ⟨rfl, rfl, rfl, rfl⟩ := hs
      obtain ⟨v, u, hm, rfl⟩ := load_eq_next.1 h
      obtain ⟨-, -, hu⟩ := memRead_eq_ok.1 hm
      have hgprs : u.gprs = s.gprs := by rw [hu, recordRead_gprs]
      refine load_eq_next.2 ⟨v, u, hm, ?_⟩
      rw [writeReg_zero_eq u rt (extend v), hgprs]
      rfl
    | _ => cases hs
  | _ => cases hs

/-- Settles O19: a write to `r0` is discarded, and the row with target `r0` does the rest as before. -/
theorem writesToR0AreIgnored : Obligations.WritesToR0AreIgnored := by
  unfold Obligations.WritesToR0AreIgnored
  refine ⟨fun s v => ⟨readReg_zero s, writeReg_zero s v⟩, fun i j s t hj h => ?_⟩
  rw [exec_eq_run] at h ⊢
  exact run_sameButTarget (sameButTarget_effect hj) h

end Sys2Proof.Proofs.Effects
end

section

/-!
# Where an instruction stops

A shift by register value, a division, a load or store and a JALR are the instructions that can stop, each on its own
condition (60_exceptions.md R161, R162); where none of these holds every instruction completes.
-/

namespace Sys2Proof.Proofs.Stops

open Sys2Proof.Machine Sys2Proof.Claims Sys2Proof.Proofs.ControlFlow Sys2Proof.Proofs.Endings Sys2Proof.Proofs.Effects
open Sys2Proof.Proofs.Multiplication hiding divide

/-! ## Division corners -/

/-- Division that rounds toward zero divides as 41_arithmetic.md R102 asks. -/
theorem dividesTo_tdiv {D d : Int} (hd : d ≠ 0) : DividesTo D d (D.tdiv d) (D.tmod d) := by
  refine ⟨(Int.tdiv_mul_add_tmod D d).symm, ?_, ?_⟩
  · rw [Int.abs_eq_natAbs, Int.abs_eq_natAbs, Int.natAbs_tmod]
    exact_mod_cast Nat.mod_lt _ (Int.natAbs_pos.2 hd)
  · by_cases hdvd : d ∣ D
    · exact .inl (Int.tmod_eq_zero_of_dvd hdvd)
    · exact .inr ((Int.sign_tmod D d).trans (if_neg hdvd))

/-- A quotient that `divide` answers fits. -/
theorem fits_of_divide_eq_some {signed : Bool} {ep a b : Word} {p : Word × Word} (h : divide signed ep a b = some p) :
    divisorOf signed b ≠ 0 ∧ Fits signed ((dividendOf signed ep a).tdiv (divisorOf signed b)) := by
  cases signed with
  | true =>
    simp only [divide, if_true, divideSigned, toInt_append_eq_dividendOf] at h
    split_ifs at h with hd hq
    exact ⟨hd, fits_signed_iff.2 hq⟩
  | false =>
    simp only [divide, Bool.false_eq_true, if_false, divideUnsigned] at h
    split_ifs at h with hd hq
    have hdiv : (dividendOf false ep a).tdiv (divisorOf false b) = ((ep ++ a).toNat / b.toNat : Nat) := by
      rw [← toNat_append_eq_dividendOf]
      exact (Int.ofNat_tdiv ..).symm
    rw [hdiv, fits_unsigned_iff]
    exact ⟨Int.natCast_ne_zero.2 hd, Int.natCast_nonneg _, by exact_mod_cast hq⟩

/-- `divide` answers none exactly in a corner. -/
theorem divide_eq_none_iff (s : State) (a b : Word) : divide s.config.divSigned s.ep a b = none ↔ Corner s a b := by
  constructor
  · intro h
    by_contra hc
    obtain ⟨hd, hfits⟩ := not_or.1 hc
    have hq := dividesTo_tdiv (D := dividendOf s.config.divSigned s.ep a) hd
    have hfit : Fits s.config.divSigned _ := by_contra fun hn => hfits ⟨_, _, hq, hn⟩
    rw [divide_eq_some hq hfit] at h
    cases h
  · intro hc
    cases h : divide s.config.divSigned s.ep a b with
    | none => rfl
    | some p =>
      obtain ⟨hd, hfit⟩ := fits_of_divide_eq_some h
      rcases hc with h0 | ⟨q, r, hqr, hn⟩
      · exact absurd h0 hd
      · obtain ⟨-, hq, -⟩ := dividesTo_unique hqr
        exact absurd (hq ▸ hfit) hn

section

variable {s : State} {rt ra rb : Reg} (h : divide s.config.divSigned s.ep (s.readReg ra) (s.readReg rb) = none)

include h

theorem exec_divr_corner : exec (.divr rt ra rb) s = s.divideCorner rt ra rb fun _ => s.flags := by
  rw [exec_divr, execDivr, h]

theorem exec_divf_corner : exec (.divf rt ra rb) s = s.divideCorner rt ra rb DivideAnswer.flags := by
  rw [exec_divf, execDivf, h]

end

theorem divideCorner_stop {s : State} (h : s.config.divCorner = .stop) (rt ra rb : Reg) (flags : DivideAnswer → Flags) :
    s.divideCorner rt ra rb flags = .fault (.divideCorner s.ep (s.readReg ra) (s.readReg rb)) := by
  rw [State.divideCorner, h]

/-- Settles O38: in a corner `divide` answers none, and both divisions end as `divideCorner`. -/
theorem divisionCorners : Obligations.DivisionCorners := by
  unfold Obligations.DivisionCorners
  intro s rt ra rb hc
  have h := (divide_eq_none_iff s _ _).2 hc
  refine ⟨fun hstop => ⟨?_, ?_⟩, fun hfree answer ha => ⟨?_, ?_⟩⟩
  · rw [exec_divr_corner h, divideCorner_stop hstop]
  · rw [exec_divf_corner h, divideCorner_stop hstop]
  · exact writesWithFlags_of_setEp_setFlags
      ((exec_divr_corner h).trans ((divideCorner_eq_next ha).2 ⟨hfree, rfl⟩)) rfl rfl rfl
  · exact writesWithFlags_of_setEp_setFlags
      ((exec_divf_corner h).trans ((divideCorner_eq_next ha).2 ⟨hfree, rfl⟩)) rfl rfl rfl

/-! ## Faults -/

section

variable {s : State} {f : Fault} {rt ra rb : Reg}

theorem shiftAmount_eq_error {mode : ShiftRegMode} {b : Word} (h : shiftAmount mode b = .error f) :
    f = .shiftRange b.toNat ∧ 32 ≤ b.toNat ∧ mode = .stop := by
  cases mode with
  | low5 => cases h
  | full => cases h
  | stop =>
    rw [shiftAmount_stop] at h
    split_ifs at h with hb
    cases h
    exact ⟨rfl, Nat.le_of_not_lt hb, rfl⟩

theorem run_shiftBy_fault {shift : Word → Nat → Word} {flags : Option (Reads → Flags → Flags)}
    (h : (shiftBy shift rt ra rb flags).run s = .fault f) :
    ∃ k, f = .shiftRange k ∧ 32 ≤ k ∧ s.config.shiftRegMode = .stop := by
  cases ha : shiftAmount s.config.shiftRegMode (s.readReg rb) with
  | ok k => simp [shiftBy, Effect.run, amountOf, readsOf, ha, Except.map] at h
  | error f' =>
    simp only [shiftBy, Effect.run, amountOf, readsOf, ha, Except.map] at h
    cases h
    exact ⟨_, shiftAmount_eq_error ha⟩

theorem run_divides_fault {flags : Option (Reads → Flags → Flags)} (h : (divides rt ra rb flags).run s = .fault f) :
    f = .divideCorner s.ep (s.readReg ra) (s.readReg rb) ∧ s.config.divCorner = .stop ∧
      Corner s (s.readReg ra) (s.readReg rb) := by
  rw [← divide_eq_none_iff]
  cases hq : divide s.config.divSigned s.ep (s.readReg ra) (s.readReg rb) with
  | some p => simp [divides, Effect.run, quotientOrStop, quotientOf, readsOf, hq] at h
  | none =>
    cases hc : s.config.divCorner with
    | free => simp [divides, Effect.run, quotientOrStop, quotientOf, readsOf, hq, hc] at h
    | stop =>
      simp only [divides, Effect.run, quotientOrStop, quotientOf, readsOf, hq, hc] at h
      cases h
      exact ⟨rfl, rfl, rfl⟩

theorem unmapped_of_firstUnmapped {as : List Word} {a : Word} (h : s.firstUnmapped as = some a) :
    s.region a = .unmapped := by
  simpa using List.find?_some h

theorem load_fault {n : Nat} {extend : Word → Word} {imm16 : BitVec 16} (h : s.load n extend rt ra imm16 = .fault f) :
    ∃ a, f = .unmappedAccess a ∧ s.region a = .unmapped := by
  rw [State.load] at h
  cases hm : s.memRead (s.effectiveAddress ra imm16) n with
  | ok p => rw [hm] at h; cases h
  | error f' =>
    rw [hm] at h
    cases h
    obtain ⟨a, ha, rfl⟩ := memRead_eq_error.1 hm
    exact ⟨a, rfl, unmapped_of_firstUnmapped ha⟩

theorem store_fault {n : Nat} {imm16 : BitVec 16} (h : s.store n rt ra imm16 = .fault f) :
    ∃ a, f = .unmappedAccess a ∧ s.region a = .unmapped := by
  rw [State.store] at h
  cases hm : s.memWrite (s.effectiveAddress ra imm16) n (s.readReg rt) with
  | ok p => rw [hm] at h; cases h
  | error f' =>
    rw [hm] at h
    cases h
    obtain ⟨a, ha, rfl⟩ := memWrite_eq_error.1 hm
    exact ⟨a, rfl, unmapped_of_firstUnmapped ha⟩

theorem run_ne_refused {e : Effect} (he : e.isJump = false) (r : Refusal) : e.run s ≠ .refused r := by
  intro h
  cases e with
  | jump => cases he
  | compute rt value ep flags =>
    rw [Effect.run] at h
    cases hv : value (readsOf s) with
    | error f => rw [hv] at h; cases h
    | ok v => rw [hv] at h; cases h
  | load n extend rt ra imm16 =>
    rw [Effect.run, State.load] at h
    cases hm : s.memRead (s.effectiveAddress ra imm16) n with
    | error f => rw [hm] at h; cases h
    | ok p => rw [hm] at h; cases h
  | store n rt ra imm16 =>
    rw [Effect.run, State.store] at h
    cases hm : s.memWrite (s.effectiveAddress ra imm16) n (s.readReg rt) with
    | error f => rw [hm] at h; cases h
    | ok p => rw [hm] at h; cases h

/-- A JALR completes, or the configuration refuses it. -/
theorem exec_jalr_cases (s : State) (ra rb : Reg) (imm5 : BitVec 5) :
    (∃ t, exec (.jalr ra rb imm5) s = .next t) ∨
      (s.config.jalrR31Mode = .refuse ∧ (Instr.jalr ra rb imm5).jalrReadsLink = true ∧
        exec (.jalr ra rb imm5) s = .refused (.reservedField (encode s.config (.jalr ra rb imm5)))) := by
  by_cases h : s.config.jalrR31Mode ≠ .refuse ∨ (ra ≠ 31#5 ∧ rb ≠ 31#5)
  · exact .inl ⟨_, exec_jalr_eq_next h⟩
  · simp only [not_or, not_not, not_and_or] at h
    obtain ⟨hm, hr⟩ := h
    exact .inr ⟨hm, by simpa [Instr.jalrReadsLink] using hr, exec_jalr_eq_refused hm hr⟩

end

/-- Settles O17: the rows that can stop are these, each on its condition, and the others answer a next state. -/
theorem onlyTheseStops : Obligations.OnlyTheseStops := by
  unfold Obligations.OnlyTheseStops
  refine ⟨fun i s f h => ?_, fun i s r h => ?_⟩
  · rw [exec_eq_run] at h
    cases i with
    | sllr | slrf | srlr | srrf | srar | sras =>
      obtain ⟨k, hf, hk, hm⟩ := run_shiftBy_fault h
      exact .inl ⟨k, hf, hk, rfl, hm⟩
    | divr | divf =>
      obtain ⟨hf, hm, hc⟩ := run_divides_fault h
      exact .inr (.inl ⟨_, _, hf, rfl, hm, hc⟩)
    | ldwd | ldhs | ldhu | ldbs | ldbu =>
      obtain ⟨a, hf, ha⟩ := load_fault h
      exact .inr (.inr ⟨a, hf, ha, rfl⟩)
    | stwd | sthw | stsb =>
      obtain ⟨a, hf, ha⟩ := store_fault h
      exact .inr (.inr ⟨a, hf, ha, rfl⟩)
    | jalr ra rb imm5 =>
      rw [← exec_eq_run] at h
      rcases exec_jalr_cases s ra rb imm5 with ⟨t, ht⟩ | ⟨-, -, hr⟩
      · rw [ht] at h; cases h
      · rw [hr] at h; cases h
    | _ => cases h
  · rw [exec_eq_run] at h
    cases i with
    | jalr ra rb imm5 =>
      rw [← exec_eq_run] at h
      rcases exec_jalr_cases s ra rb imm5 with ⟨t, ht⟩ | ⟨hm, hl, hr⟩
      · rw [ht] at h; cases h
      · rw [hr] at h; cases h; exact ⟨rfl, hl, hm⟩
    | jmpr | jmpi | jali | brnr | bror | brcr | brzr | brne | brgt => cases h
    | _ => exact absurd h (run_ne_refused rfl r)

/-- Settles O18: every stop there is needs one of the conditions excluded. -/
theorem everyInstructionCompletes : Obligations.EveryInstructionCompletes := by
  unfold Obligations.EveryInstructionCompletes
  intro i s hshift hdiv hwf hmapped
  obtain ⟨hfault, hrefused⟩ := onlyTheseStops
  cases h : exec i s with
  | next t => exact ⟨t, rfl⟩
  | fault f =>
    rcases hfault i s f h with ⟨k, -, -, -, hm⟩ | ⟨a, b, -, -, hm, -⟩ | ⟨a, -, hu, -⟩
    · exact absurd hm hshift
    · rw [hdiv] at hm
      cases hm
    · exact absurd hu (hmapped a)
  | refused r =>
    obtain ⟨-, hlink, hm⟩ := hrefused i s r h
    simp [wellFormed, hlink, hm] at hwf

end Sys2Proof.Proofs.Stops
end

section

/-!
# Calls, idioms, runs, reset and the assembler
-/

namespace Sys2Proof.Proofs.Programs

open Sys2Proof.Machine Sys2Proof.Claims Sys2Proof.Proofs.Decoding Sys2Proof.Proofs.Endings Sys2Proof.Proofs.Addition
open Sys2Proof.Proofs.Bitwise Sys2Proof.Proofs.ControlFlow Sys2Proof.Proofs.LoadStore Sys2Proof.Proofs.Encoding
open Sys2Proof.Proofs.RoundTrip Sys2Proof.Proofs.Fetching Sys2Proof.Proofs.Effects

/-! ## Calls and returns -/

def links : Effect → Bool
  | .jump links _ => links
  | _ => false

/-- A call leaves the address behind it in the link register. -/
theorem readReg_linkReg_of_leaves {e : Effect} {s t : State} (h : Leaves s e t) (he : links e = true) :
    t.readReg linkReg = s.pc + 4#32 := by
  cases h with
  | jumped => rw [readReg_jumped, if_pos ⟨he, rfl⟩]
  | _ => cases he

/-- Settles O46: the call links, and JMPR through `r31` with `r0` as its index goes to what it holds. -/
theorem returnGoesBehindTheCall : Obligations.ReturnGoesBehindTheCall := by
  unfold Obligations.ReturnGoesBehindTheCall
  intro s t u i hi h hu
  have hlinks : links (effect i) = true := by
    rcases hi with ⟨imm26, rfl⟩ | ⟨ra, rb, imm5, rfl⟩
    · rfl
    · rfl
  have hlink : u.readReg 31#5 = s.pc + 4#32 := hu.trans (readReg_linkReg_of_leaves (leaves_of_exec h) hlinks)
  refine jumpsTo_of_setPc (exec_jmpr ..) ?_
  rw [State.registerTarget, hlink, readReg_zero, ← nextPc_eq_ofNat]
  exact BitVec.add_zero _

/-! ## Idioms -/

theorem toNat_zext16 (imm16 : BitVec 16) : (zext16 imm16).toNat = imm16.toNat :=
  BitVec.toNat_setWidth_of_le (by decide)

theorem withUpperHalf_zext16 (k : Word) : withUpperHalf (k.extractLsb' 16 16) (zext16 (k.extractLsb' 0 16)) = k := by
  rw [withUpperHalf_eq_ofNat, toNat_zext16, toNat_extract_top _ rfl, toNat_extract_low, Nat.mod_mod, mul_comm,
    Nat.div_add_mod, BitVec.ofNat_toNat, BitVec.setWidth_eq]

/-- A register written twice holds the second value, all else as before. -/
theorem regsAfter_regsAfter {s t : State} {rt : Reg} {v w w' : Word} (ht : ∀ r, t.readReg r = regsAfter s rt v r)
    (hw : rt ≠ 0#5 → w = w') (r : Reg) : regsAfter t rt w r = regsAfter s rt w' r := by
  by_cases h0 : r = 0#5
  · simp [regsAfter, h0]
  · by_cases hr : r = rt
    · subst hr
      simp [regsAfter, h0, hw h0]
    · simp [regsAfter, h0, hr, ht]

/-- Settles O55: LDUI keeps the low half that ORRI put into the register; `r0` is the zero of both idioms. -/
theorem constantAndCopyIdioms : Obligations.ConstantAndCopyIdioms := by
  unfold Obligations.ConstantAndCopyIdioms
  refine ⟨fun s rt k i j hij => ?_, fun s rt ra => ?_⟩
  · obtain ⟨rfl, rfl⟩ : .orri rt 0#5 (k.extractLsb' 0 16) = i ∧ .ldui rt (k.extractLsb' 16 16) = j := by
      simpa [loadConstant] using hij
    obtain ⟨t, hi, hflags, ht⟩ : WritesRegAndNZ (.orri rt 0#5 (k.extractLsb' 0 16)) s rt (zext16 (k.extractLsb' 0 16)) :=
      writesRegAndNZ_of_finishWithFlags (exec_orri ..) (by rw [readReg_zero, BitVec.zero_or])
    obtain ⟨u, hj, hu⟩ : WritesReg (.ldui rt (k.extractLsb' 16 16)) t rt _ := writesReg_of_finish (exec_ldui ..) rfl
    refine ⟨t, u, hi, hj, ?_, ?_⟩
    · have hregs := regsAfter_regsAfter (w := withUpperHalf (k.extractLsb' 16 16) (t.readReg rt)) (w' := k) ht.regs fun h0 => by
        rw [ht.regs, regsAfter, if_neg h0, if_pos rfl, withUpperHalf_zext16]
      exact {
        regs := fun r => (hu.regs r).trans (hregs r)
        ep := hu.ep.trans ht.ep
        pc := by rw [hu.pc, ht.pc, BitVec.add_assoc]; rfl
        flags := rfl
        mem := fun a => (hu.mem a).trans (ht.mem a)
        config := hu.config.trans ht.config
        ioLog := hu.ioLog.trans ht.ioLog
        draws := hu.draws.trans ht.draws }
    · rw [hu.flags]
      have hlow : (zext16 (k.extractLsb' 0 16)).toNat = k.toNat % 2 ^ 16 := by rw [toNat_zext16, toNat_extract_low]
      rw [hlow] at hflags
      have hn : ¬ 2 ^ 31 ≤ k.toNat % 2 ^ 16 :=
        Nat.not_le.2 ((Nat.mod_lt _ (Nat.two_pow_pos 16)).trans (Nat.pow_lt_pow_right Nat.one_lt_two (by decide)))
      exact flagsAre_congr hflags (iff_false_intro hn) Iff.rfl Iff.rfl Iff.rfl
  · exact writesReg_of_finish (exec_orrr ..) (by rw [readReg_zero, BitVec.or_zero])

/-! ## The end of a run -/

/-- JMPI 0 jumps to itself. -/
theorem exec_jmpi_zero (s : State) : exec (.jmpi 0#26) s = .next s := by
  have htarget : s.jumpTarget 0#26 = s.pc := BitVec.add_zero _
  rw [exec_jmpi, execJmpi, htarget]
  rfl

theorem decode_jmpi_zero (c : Config) : decode c 0x14000000#32 = .ok (.jmpi 0#26) :=
  decode_encode_of_statement (i := .jmpi 0#26) (statement_of_instr _) (wellFormed_of_jalrReadsLink rfl)

theorem step_of_atSelfJump {s : State} (h : atSelfJump s = true) : step s = .next s := by
  rw [atSelfJump] at h
  split at h
  case h_1 t _ hstep =>
    obtain ⟨-, ht⟩ := Bool.and_eq_true_iff.1 h
    rw [hstep, of_decide_eq_true ht]
  case h_2 => cases h

/-- Settles O56: JMPI 0 is a control transfer that leaves the state, and the end of run asks just that of the step. -/
theorem selfJumpEndsTheRun : Obligations.SelfJumpEndsTheRun := by
  unfold Obligations.SelfJumpEndsTheRun
  refine ⟨fun s hpc hram hw => ?_, fun s h => ⟨step_of_atSelfJump h, fun k => ?_⟩⟩
  · have hf := fetch_of_inRam hpc hram
    rw [hw] at hf
    have hstep : step s = .next s := (step_of_fetch hf (decode_jmpi_zero _)).trans (exec_jmpi_zero s)
    refine ⟨?_, hstep⟩
    simp [atSelfJump, nextInstr_of_fetch hf (decode_jmpi_zero _), hstep, isControlFlow]
  · cases k with
    | zero => rfl
    | succ k => exact if_pos h

/-! ## Reset -/

theorem writeCells_append (m : Memory) (cells cells' : List (Word × Byte)) :
    m.writeCells (cells ++ cells') = (m.writeCells cells).writeCells cells' :=
  List.foldl_append

/-- The last byte written to an address is the one that reads back. -/
theorem read_writeCells_last {m : Memory} (h : m.wf = true) (before : List (Word × Byte)) (a : Word) (b : Byte)
    {after : List (Word × Byte)} (ha : ∀ c ∈ after, c.1 ≠ a) : (m.writeCells (before ++ (a, b) :: after)).read a = b := by
  rw [writeCells_append]
  have hwf := wf_write a b (wf_writeCells before h)
  refine (read_writeCells_outside hwf after ha).trans ?_
  rw [read_write (wf_writeCells before h), if_pos rfl]

theorem cellsIn_append_cons {s : State} {kind : RegionKind} {a : Word} (hr : s.region a = kind) (b : Byte)
    (before after : List (Word × Byte)) :
    s.cellsIn kind (before ++ (a, b) :: after) = s.cellsIn kind before ++ (a, b) :: s.cellsIn kind after := by
  simp [State.cellsIn, hr]

theorem readReg_reset (r : Reg) : State.reset.readReg r = 0#32 := by
  rw [State.readReg]
  split
  · rfl
  · exact Vector.getElem_replicate ..

/-- Settles O25: the image is written to empty memory, in its order and as far as it lies in RAM. -/
theorem resetLeavesResetPcAndTheImage : Obligations.ResetLeavesResetPcAndTheImage := by
  unfold Obligations.ResetLeavesResetPcAndTheImage
  intro c image
  refine ⟨rfl, rfl, readReg_reset, rfl, rfl, ?_, fun a ha => ?_⟩
  · rintro before after a b rfl ha hr
    have hcells := cellsIn_append_cons (s := { State.reset with pc := c.resetPc, config := c }) hr b before after
    rw [bootState, State.loadImage, hcells]
    exact read_writeCells_last wf_nil _ a b fun d hd => ha d (mem_cellsIn.1 hd).1
  · exact read_writeCells_outside wf_nil _ fun d hd => ha d (mem_cellsIn.1 hd).1

/-! ## The assembler -/

section

variable {w : Nat} (mk : BitVec w → Instr) (x : BitVec w)

theorem map_unsignedField : (unsignedField w x.toNat).map mk = some (mk x) := by
  have h : (0 : Int) ≤ x.toNat ∧ (x.toNat : Int) < 2 ^ w := ⟨Int.natCast_nonneg _, by exact_mod_cast x.isLt⟩
  rw [unsignedField, if_pos h, BitVec.ofInt_natCast, BitVec.ofNat_toNat, BitVec.setWidth_eq]
  rfl

theorem map_signedField : (signedField w x.toInt).map mk = some (mk x) := by
  have hlt : x.toInt < 2 ^ (w - 1) := x.toInt_lt
  have hle : (2 : Int) ^ (w - 1) ≤ 2 ^ w := pow_le_pow_right₀ (by decide) (Nat.sub_le w 1)
  have h : -2 ^ (w - 1) ≤ x.toInt ∧ x.toInt < 2 ^ w := ⟨x.le_toInt, hlt.trans_le hle⟩
  rw [signedField, if_pos h, BitVec.ofInt_toInt]
  rfl

end

/-- Settles O57: registers are written as they are, and the number written for an immediate is in its field's range. -/
theorem assemblerReadsWhatItWrites : Obligations.AssemblerReadsWhatItWrites := by
  unfold Obligations.AssemblerReadsWhatItWrites
  intro i
  cases i with
  | slli _ _ x | slif _ _ x | srli _ _ x | srif _ _ x | srai _ _ x | sraj _ _ x | andi _ _ x | orri _ _ x | xori _ _ x
  | jmpr _ _ x | jalr _ _ x | ldui _ x =>
    unfold assemble
    exact map_unsignedField _ x
  | jmpi x | jali x | brnr _ x | bror _ x | brcr _ x | brzr _ x | brne _ _ x | brgt _ _ x | ldwd _ _ x | ldhs _ _ x
  | ldhu _ _ x | ldbs _ _ x | ldbu _ _ x | stwd _ _ x | sthw _ _ x | stsb _ _ x => exact map_signedField _ x
  | _ => rfl

/-! ## Worked encodings -/

/-- Settles O2: nine closed words, evaluated both ways. -/
theorem workedEncodings : Obligations.WorkedEncodings := by
  unfold Obligations.WorkedEncodings
  decide

end Sys2Proof.Proofs.Programs
end
